-- ==== Sys2Proof/Word.lean ====
section
/-! DEFINITION. The word of the host command port, the channel number and the block's fixed constants. -/

namespace Sys2Proof

/-- A command word and the read-data word: 32 bits, bit 0 least significant (R13, R45, R51). -/
abbrev Word := BitVec 32

/-- A channel number `CH`, every value of its three bits legal (R44, R61). -/
abbrev Chan := Fin 8

/-- The eight channels in ascending index order (R8, R89, R125). -/
def chans : List Chan := [0, 1, 2, 3, 4, 5, 6, 7]

/-- `PPQN`: ticks per quarter note (R8). -/
abbrev ppqn : Nat := 192

/-- `BEATS_PER_BAR`: quarter notes per bar (R8). -/
abbrev beatsPerBar : Nat := 4

/-- `BARS_PER_WRAP`: bars per wrap period (R8). -/
abbrev barsPerWrap : Nat := 64

/-- `BAR`: ticks per bar, 768 (R8). -/
abbrev bar : Nat := ppqn * beatsPerBar

/-- `LIMIT`: ticks per wrap period, 49152 (R8). -/
abbrev limit : Nat := bar * barsPerWrap

/-- `MIN_BPM` (R8). -/
abbrev minBpm : Nat := 30

/-- `MAX_BPM` (R8). -/
abbrev maxBpm : Nat := 200

/-- `PWM_STEP`: ticks between two PwmTick events (R8, C4). -/
abbrev pwmStep : Nat := 6

/-- `N_SWING`: entries of the swing table, and the number of swingable clock lengths (R8, R112). -/
abbrev nSwing : Nat := 6

/-- `MAX_STEPS`: pattern positions (R8). -/
abbrev maxSteps : Nat := 32

end Sys2Proof
end

