-- ==== Sys2Proof/Config.lean ====
section
/-! DEFINITION. What an implementation of the block fixes (the OPEN parameters of R11 and the tables of R9, R12),
and the free values: constants without a body. -/

namespace Sys2Proof

/-- The behaviour mode of a channel (R29). Code 0 is no kind, so it has no constructor (log 5). -/
inductive Kind where
  | clock | euclidean | randomTrigger | rampUp | rampDown | sine | voltage
deriving DecidableEq, Repr

/-- `TICK_SOURCE` (R11, R78): who produces ticks. -/
inductive TickSource where
  | divider | host
deriving DecidableEq, Repr

/-- `SINE_START` (R11, R108): the level a sine starts at. -/
inductive SineStart where
  | high | low
deriving DecidableEq, Repr

/-- The implementation parameters. They stand in State because `exec` takes no other argument; no step
writes them (log 1). -/
structure Config where
  /-- `F_CLK`, in hertz (R76). -/
  fClk       : Nat
  /-- `TICK_SOURCE` (R78). -/
  tickSource : TickSource
  /-- `SINE_START` (R108). -/
  sineStart  : SineStart
  /-- `SWING_MAX`, at most 255 (R110). -/
  swingMax   : BitVec 8
  /-- `DIV_TABLE`, the duration table in ticks (R9). -/
  div        : Vector Nat 13
  /-- `CAP`, the ceiling of each channel's kind (R12). -/
  cap        : Vector Kind 8
deriving DecidableEq, Repr

/-- The premises the spec puts on the parameters: `F_CLK >= 640` (R76); the duration table's smallest entry at
least 3, every entry at least twice the one before it and a divisor of `LIMIT` (R9, 92_eei_decisions.md). The last clause
is the model's: the longest duration fits the 14-bit `elapsed` register of R32 (log 9). -/
abbrev Config.Wf (cfg : Config) : Prop :=
  640 ≤ cfg.fClk ∧ 3 ≤ cfg.div[0] ∧ (∀ i : Fin 12, 2 * cfg.div[i.val] ≤ cfg.div[i.val + 1]) ∧
    (∀ i : Fin 13, cfg.div[i] ∣ limit) ∧ cfg.div[12] ≤ 16384

/-- The default duration table, `DIV[i] = 3 * 2^i` (R9). -/
def Config.defaultDiv : Vector Nat 13 :=
  #v[3, 6, 12, 24, 48, 96, 192, 384, 768, 1536, 3072, 6144, 12288]

/-- The default kind ceilings: 3 for channels 0 to 3, 7 for channels 4 to 7 (R12). -/
def Config.defaultCap : Vector Kind 8 :=
  #v[.randomTrigger, .randomTrigger, .randomTrigger, .randomTrigger, .voltage, .voltage, .voltage, .voltage]

/-- The parameters `State.reset` is written with: the spec's defaults; `F_CLK` and `TICK_SOURCE` have none and
are DESIGN CHOICE (log 1). -/
def Config.default : Config where
  fClk       := 16000000
  tickSource := .host
  sineStart  := .high
  swingMax   := 47
  div        := defaultDiv
  cap        := defaultCap

/-- FREE VALUE: the word the environment presents on `rnd_i` at the n-th draw, once the stream listed in the state
is used up (R143; log 2). -/
opaque Config.rnd : Nat → Word

/-- FREE VALUE: the level of a PwmTick of a gate kind, for which R106 has no case. No reachable state dispatches one
(R36; log 6). -/
opaque Config.strayLevel : Kind → BitVec 8

/-- FREE VALUE: the eligibility of a CV kind, for which R96 has no case. No reachable state asks for one
(R36; log 6). -/
opaque Config.strayEligible : Kind → Bool

end Sys2Proof
end

