-- ==== Sys2Proof/Syntax.lean ====
section
/-! DEFINITION. The commands of the block, one constructor per row of spec/opcode_table.json, and the assembler's
commands above them (R62, R73, R74). -/

namespace Sys2Proof

/-- A decoded command word (R62, R72). Every operand has exactly the width of its field (R69), so every term is
encodable; reserved bits are no part of a command (R70). -/
inductive Instr where
  /-- NOP (R130). -/
  | nop
  /-- SET_TEMPO (R85). -/
  | setTempo (val : BitVec 8)
  /-- SET_SWING (R115). -/
  | setSwing (val : BitVec 8)
  /-- START (R86). -/
  | start
  /-- STOP (R87). -/
  | stop
  /-- STAGE_TIMING (R119). -/
  | stageTiming (ch : Chan) (kind : BitVec 3) (clk gate delay : BitVec 4)
  /-- STAGE_PATTERN (R120). -/
  | stagePattern (ch : Chan) (len steps : BitVec 6) (prob : BitVec 7)
  /-- COMMIT (R122). -/
  | commit (ch : Chan)
  /-- READ (R128). -/
  | read (ch : Chan) (sel : BitVec 4)
  /-- CLEAR_ERR (R131). -/
  | clearErr
  /-- STEP_TICK (R88). -/
  | stepTick
  /-- The reserved opcode 0xB (R132). -/
  | reservedB
  /-- The reserved opcode 0xC (R132). -/
  | reservedC
  /-- The reserved opcode 0xD (R132). -/
  | reservedD
  /-- The reserved opcode 0xE (R132). -/
  | reservedE
  /-- The reserved opcode 0xF (R132). -/
  | reservedF
deriving DecidableEq, Repr

/-- A `clk` or `gate` operand as written: an index, or a note value that stands for its index (R73). -/
inductive LenOperand where
  | index (n : Nat)
  | note (i : Fin 13)
deriving DecidableEq, Repr

/-- A `delay` operand as written: an index (`0` is index 0), or a note value that stands for its index plus one
(R10, R73). -/
inductive DelayOperand where
  | index (n : Nat)
  | note (i : Fin 13)
deriving DecidableEq, Repr

/-- A line of the assembler: the eleven commands of R73 and the pseudo-commands of R74, with the operands as
written. -/
inductive AsmCmd where
  | nop
  | setTempo (bpm : Nat)
  | setSwing (amount : Nat)
  | start
  | stop
  | stageTiming (ch kind : Nat) (clk gate : LenOperand) (delay : DelayOperand)
  | stagePattern (ch len steps prob : Nat)
  | commit (ch : Nat)
  | read (ch sel : Nat)
  | clearErr
  | stepTick
  | stage (ch kind : Nat) (clk gate : LenOperand) (delay : DelayOperand) (len steps prob : Nat)
  | config (ch kind : Nat) (clk gate : LenOperand) (delay : DelayOperand) (len steps prob : Nat)
  | ticks (n : Nat)
  | readStatus
  | readTick
deriving DecidableEq, Repr

end Sys2Proof
end

