-- ==== Sys2Proof/WellFormed.lean ====
section
/-! DEFINITION. Which assembler lines are well formed: no operand is too wide for its field (R73). A decoded `Instr` needs
no check, since its operands have the widths of their fields (R69). -/

namespace Sys2Proof

/-- The index a length operand stands for (R73). -/
def LenOperand.value : LenOperand → Nat
  | .index n => n
  | .note i => i.val

/-- The index a delay operand stands for (R73). -/
def DelayOperand.value : DelayOperand → Nat
  | .index n => n
  | .note i => i.val + 1

/-- `CH` fits three bits. -/
def chFits (ch : Nat) : Bool := ch < 8

/-- The operands of STAGE_TIMING fit their fields (R65). -/
def timingFits (ch kind : Nat) (clk gate : LenOperand) (delay : DelayOperand) : Bool :=
  chFits ch && kind < 8 && clk.value < 16 && gate.value < 16 && delay.value < 16

/-- The operands of STAGE_PATTERN fit their fields (R66). -/
def patternFits (ch len steps prob : Nat) : Bool :=
  chFits ch && len < 64 && steps < 64 && prob < 128

/-- "An operand too wide for its field is an assembler error." (R73) -/
def AsmCmd.wellFormed : AsmCmd → Bool
  | .nop => true
  | .setTempo bpm => bpm < 256
  | .setSwing amount => amount < 256
  | .start => true
  | .stop => true
  | .stageTiming ch kind clk gate delay => timingFits ch kind clk gate delay
  | .stagePattern ch len steps prob => patternFits ch len steps prob
  | .commit ch => chFits ch
  | .read ch sel => chFits ch && sel < 16
  | .clearErr => true
  | .stepTick => true
  | .stage ch kind clk gate delay len steps prob =>
      timingFits ch kind clk gate delay && patternFits ch len steps prob
  | .config ch kind clk gate delay len steps prob =>
      timingFits ch kind clk gate delay && patternFits ch len steps prob
  | .ticks _ => true
  | .readStatus => true
  | .readTick => true

end Sys2Proof
end

