-- ==== Sys2Proof/Decode.lean ====
section
/-! DEFINITION. The decoder, total on 32-bit words (R72), the encoder written from the same formats (R63 to R68, R73), and the
assembler (R73, R74). -/

namespace Sys2Proof

/-- `OP = cmd[31:28]` (R61). -/
def opField (w : Word) : BitVec 4 := w.extractLsb' 28 4

/-- `CH = cmd[26:24]` (R69). -/
def chField (w : Word) : Chan := (w.extractLsb' 24 3).toFin

/-- `VAL = cmd[7:0]` (R64). -/
def valField (w : Word) : BitVec 8 := w.extractLsb' 0 8

/-- `KIND = cmd[18:16]` (R65). -/
def kindField (w : Word) : BitVec 3 := w.extractLsb' 16 3

/-- `CLK = cmd[15:12]` (R65). -/
def clkField (w : Word) : BitVec 4 := w.extractLsb' 12 4

/-- `GATE = cmd[11:8]` (R65). -/
def gateField (w : Word) : BitVec 4 := w.extractLsb' 8 4

/-- `DELAY = cmd[7:4]` (R65). -/
def delayField (w : Word) : BitVec 4 := w.extractLsb' 4 4

/-- `LEN = cmd[21:16]` (R66). -/
def lenField (w : Word) : BitVec 6 := w.extractLsb' 16 6

/-- `STEPS = cmd[13:8]` (R66). -/
def stepsField (w : Word) : BitVec 6 := w.extractLsb' 8 6

/-- `PROB = cmd[6:0]` (R66). -/
def probField (w : Word) : BitVec 7 := w.extractLsb' 0 7

/-- `SEL = cmd[3:0]` (R68). -/
def selField (w : Word) : BitVec 4 := w.extractLsb' 0 4

/-- The command a word is: by `OP` alone, every reserved bit ignored (R62, R70, R72). A reserved opcode decodes to
its own name, never to a neighbour. -/
def decode (w : Word) : Instr :=
  match (opField w).toNat with
  | 0  => .nop
  | 1  => .setTempo (valField w)
  | 2  => .setSwing (valField w)
  | 3  => .start
  | 4  => .stop
  | 5  => .stageTiming (chField w) (kindField w) (clkField w) (gateField w) (delayField w)
  | 6  => .stagePattern (chField w) (lenField w) (stepsField w) (probField w)
  | 7  => .commit (chField w)
  | 8  => .read (chField w) (selField w)
  | 9  => .clearErr
  | 10 => .stepTick
  | 11 => .reservedB
  | 12 => .reservedC
  | 13 => .reservedD
  | 14 => .reservedE
  | _  => .reservedF -- `OP` has four bits: 15 is what is left

/-- A field of a word, moved to the bit position of its least significant bit. -/
def placeField {n : Nat} (v : BitVec n) (lo : Nat) : Word := v.setWidth 32 <<< lo

/-- The opcode's four bits in place (R61). -/
def placeOp (op : BitVec 4) : Word := placeField op 28

/-- The channel field in place (R61). -/
def placeCh (ch : Chan) : Word := placeField (BitVec.ofFin (w := 3) ch) 24

/-- The word of a command, reserved bits 0 (R70, R73). -/
def encode : Instr → Word
  | .nop => placeOp 0x0
  | .setTempo val => placeOp 0x1 ||| placeField val 0
  | .setSwing val => placeOp 0x2 ||| placeField val 0
  | .start => placeOp 0x3
  | .stop => placeOp 0x4
  | .stageTiming ch kind clk gate delay =>
      placeOp 0x5 ||| placeCh ch ||| placeField kind 16 ||| placeField clk 12 ||| placeField gate 8 |||
        placeField delay 4
  | .stagePattern ch len steps prob =>
      placeOp 0x6 ||| placeCh ch ||| placeField len 16 ||| placeField steps 8 ||| placeField prob 0
  | .commit ch => placeOp 0x7 ||| placeCh ch
  | .read ch sel => placeOp 0x8 ||| placeCh ch ||| placeField sel 0
  | .clearErr => placeOp 0x9
  | .stepTick => placeOp 0xA
  | .reservedB => placeOp 0xB
  | .reservedC => placeOp 0xC
  | .reservedD => placeOp 0xD
  | .reservedE => placeOp 0xE
  | .reservedF => placeOp 0xF

/-- The word of a command written in the opcode table's bit numbers: a command is one 32-bit word (R60), so bit 0 of
the table is bit 0 of the word, and bits above `nbits` are 0. -/
def tableWord (nbits w : Nat) : Word := BitVec.ofNat 32 (w % 2 ^ nbits)

/-- The command the decoder reads from an opcode-table word. -/
def decodeTableWord (nbits w : Nat) : Option Instr := some (decode (tableWord nbits w))

/-- The channel operand of a well-formed line. -/
def asmCh (ch : Nat) : Chan := Fin.ofNat 8 ch

/-- The STAGE_TIMING command of a line's operands (R73). -/
def asmTiming (ch kind : Nat) (clk gate : LenOperand) (delay : DelayOperand) : Instr :=
  .stageTiming (asmCh ch) (BitVec.ofNat 3 kind) (BitVec.ofNat 4 clk.value) (BitVec.ofNat 4 gate.value)
    (BitVec.ofNat 4 delay.value)

/-- The STAGE_PATTERN command of a line's operands (R73). -/
def asmPattern (ch len steps prob : Nat) : Instr :=
  .stagePattern (asmCh ch) (BitVec.ofNat 6 len) (BitVec.ofNat 6 steps) (BitVec.ofNat 7 prob)

/-- The commands a line stands for, its operands taken to fit (R73, R74). -/
def AsmCmd.expand : AsmCmd → List Instr
  | .nop => [.nop]
  | .setTempo bpm => [.setTempo (BitVec.ofNat 8 bpm)]
  | .setSwing amount => [.setSwing (BitVec.ofNat 8 amount)]
  | .start => [.start]
  | .stop => [.stop]
  | .stageTiming ch kind clk gate delay => [asmTiming ch kind clk gate delay]
  | .stagePattern ch len steps prob => [asmPattern ch len steps prob]
  | .commit ch => [.commit (asmCh ch)]
  | .read ch sel => [.read (asmCh ch) (BitVec.ofNat 4 sel)]
  | .clearErr => [.clearErr]
  | .stepTick => [.stepTick]
  | .stage ch kind clk gate delay len steps prob =>
      [asmTiming ch kind clk gate delay, asmPattern ch len steps prob]
  | .config ch kind clk gate delay len steps prob =>
      [asmTiming ch kind clk gate delay, asmPattern ch len steps prob, .commit (asmCh ch)]
  | .ticks n => List.replicate n .stepTick
  | .readStatus => [.read 0 0]
  | .readTick => [.read 0 3]

/-- The words of an assembler line, or none where an operand is too wide for its field (R73, R74). -/
def assemble (c : AsmCmd) : Option (List Word) :=
  if c.wellFormed then some (c.expand.map encode) else none

end Sys2Proof
end

