-- ==== Sys2Proof/Machine/State.lean ====
section
/-! DEFINITION. The state of the block (10_state.md), the reasons a step can stop (none, R133), and the state after reset (R43). -/

namespace Sys2Proof.Machine

/-- A channel's pending transition, `nextKind` (R33, R34). -/
inductive EventKind where
  | none | gateOpen | gateClose | pwmTick
deriving DecidableEq, Repr

/-- The nine configuration fields of a live or a staged record (R30, R31, R37). -/
structure Record where
  kind  : Kind
  /-- Index into `DIV`, the clock period; 4 bits, `0..12` (log 5). -/
  clk   : Fin 13
  /-- Index into `DIV`, the gate-open time or the waveform length; 4 bits, `0..12` (log 5). -/
  gate  : Fin 13
  /-- Index into `DELAY`; 4 bits, `0..13` (log 5). -/
  delay : Fin 14
  steps : BitVec 6
  len   : BitVec 6
  prob  : BitVec 7
  seqLo : BitVec 16
  seqHi : BitVec 16
deriving DecidableEq, Repr

/-- A live channel record `ch[c]`: its configuration (R30) and its dynamic fields (R32). -/
structure Channel where
  conf         : Record
  seqIdx       : BitVec 5
  gateLevel    : Bool
  pwmLevel     : BitVec 8
  nextTime     : BitVec 16
  nextKind     : EventKind
  swingPhase   : Bool
  openEligible : Bool
  elapsed      : BitVec 14
deriving DecidableEq, Repr

/-- A staged record `stg[c]` with its ready flag (R37). -/
structure Staged where
  conf  : Record
  ready : Bool
deriving DecidableEq, Repr

/-- An output event `(c, gateLevel, pwmLevel)` (R39). -/
structure OutEvent where
  chan : Chan
  gate : Bool
  pwm  : BitVec 8
deriving DecidableEq, Repr

/-- The entropy input `rnd_i` (R143): the values the environment will present, first next, and how many draws were
made. Once the stream is used up, draw number n is the free value `Config.rnd n` (log 2). -/
structure Entropy where
  stream : List Word
  count  : Nat
deriving DecidableEq, Repr

/-- One move of the environment: a command word on the host port (R45), a system clock cycle of the divider (R77), or
the reset input (R147). The list of them in the state is the global order of steps of R54 (log 3). -/
inductive Input where
  | command (w : Word)
  | clock
  | reset
deriving DecidableEq, Repr

/-- The state of the block: every register of 10_state.md, the step's output trace, and the model's own fields
`cfg`, `entropy`, `inputs`. -/
structure State where
  /-- The implementation parameters (R11; log 1). No step writes them. -/
  cfg         : Config
  /-- `TickCounter` (R22). -/
  tickCounter : BitVec 16
  /-- The transport runs (R23). -/
  running     : Bool
  /-- The tempo last requested (R24). -/
  tempoReq    : BitVec 8
  /-- The tempo of the current tick period (R24). -/
  tempoActive : BitVec 8
  /-- The divider's down-counter (R25; log 7). -/
  divCount    : Nat
  /-- The swing amount the table is built from (R26). -/
  swingLive   : BitVec 8
  /-- The swing amount last requested while running (R26). -/
  swingStaged : BitVec 8
  /-- The staged-swing ready flag (R26). -/
  swingReady  : Bool
  /-- `SWT[0..5]` (R111). -/
  swt         : Vector (BitVec 8) 6
  /-- `STATUS_ERR`: bit 0 `CMD_ERR`, bit 1 `BUSY_ERR` (R27). -/
  statusErr   : BitVec 2
  /-- The read-data register (R28). -/
  rdata       : Word
  /-- The live channel records (R30, R32). -/
  ch          : Vector Channel 8
  /-- The staged records (R37). -/
  stg         : Vector Staged 8
  /-- The step's output trace, in the order of the writes (R39; log 4). -/
  out         : List OutEvent
  /-- The entropy input (R143; log 2). -/
  entropy     : Entropy
  /-- The environment's coming moves, first next (R45, R54; log 3). -/
  inputs      : List Input
deriving DecidableEq, Repr

/-- The reasons the machine stops with a fault: none. "A model's step function is total and has no exceptional
outcome" (R133), so nothing raises one; safe, since no claim can be lost in a fault. -/
inductive Fault where
deriving DecidableEq, Repr

/-- The reasons a command has no meaning. -/
inductive Refusal where
  /-- Raised by `exec` for an instruction the model gives no meaning yet; safe. No arm raises it: every row of the opcode
  table has its meaning. -/
  | notModelled (mnemonic : String)
deriving DecidableEq, Repr

/-- The outcome of a command or a step. -/
abbrev Result := Host.Outcome State Fault Refusal

/-- The configuration every record holds after reset (R43, R147). -/
def Record.reset : Record where
  kind  := .clock
  clk   := 6
  gate  := 5
  delay := 0
  steps := 4
  len   := 16
  prob  := 50
  seqLo := 0
  seqHi := 0

/-- A live record after reset: the timeline reset at tick 0 of a Clock channel (R43, R147). -/
def Channel.reset : Channel where
  conf         := Record.reset
  seqIdx       := 0
  gateLevel    := false
  pwmLevel     := 0
  nextTime     := 0
  nextKind     := .gateOpen
  swingPhase   := false
  openEligible := true
  elapsed      := 0

/-- A staged record after reset (R43). -/
def Staged.reset : Staged where
  conf  := Record.reset
  ready := false

/-- The registers after reset under given parameters, entropy input and coming inputs: the three that are no registers
(R43, R147). -/
def State.resetWith (cfg : Config) (entropy : Entropy) (inputs : List Input) : State where
  cfg         := cfg
  tickCounter := 0
  running     := false
  tempoReq    := 120
  tempoActive := 120
  divCount    := 0
  swingLive   := 0
  swingStaged := 0
  swingReady  := false
  swt         := Vector.replicate 6 0
  statusErr   := 0
  rdata       := 0
  ch          := Vector.replicate 8 Channel.reset
  stg         := Vector.replicate 8 Staged.reset
  out         := []
  entropy     := entropy
  inputs      := inputs

/-- The block right after reset, the default parameters, no entropy value and no input listed (R43, R148; log 1, log 2,
log 3). -/
def State.reset : State := State.resetWith Config.default ⟨[], 0⟩ []

end Sys2Proof.Machine
end

