-- ==== Sys2Proof/Machine/Operands.lean ====
section
/-! DEFINITION. Operand forms: the tick-time operators (R14), the kind codes (R29), the clamps of R135, the duration tables
(R9, R10, R93, R94), the bit test (R95), the random draws (R143) and the fields of a READ word (R129). -/

namespace Sys2Proof.Machine

/-- `clamp(v, lo, hi)` (R14). -/
def clampNat (v lo hi : Nat) : Nat := min (max v lo) hi

/-- `ceil_div(a, b)` (R14). -/
def ceilDiv (a b : Nat) : Nat := (a + b - 1) / b

/-- `tadd(t, d) = (t + d) mod LIMIT` (R14). -/
def tadd (t : BitVec 16) (d : Nat) : BitVec 16 := BitVec.ofNat 16 ((t.toNat + d) % limit)

/-- `tsub(t, d) = (t + LIMIT - (d mod LIMIT)) mod LIMIT` (R14). -/
def tsub (t : BitVec 16) (d : Nat) : BitVec 16 :=
  BitVec.ofNat 16 ((t.toNat + limit - d % limit) % limit)

/-- A tick value is a bar boundary (R80). -/
def barBoundary (t : BitVec 16) : Bool := t.toNat % bar == 0

/-- The code of a kind (R29). -/
def kindCode : Kind → Nat
  | .clock => 1
  | .euclidean => 2
  | .randomTrigger => 3
  | .rampUp => 4
  | .rampDown => 5
  | .sine => 6
  | .voltage => 7

/-- The kind of a code. A code below 1 is clamped to 1 and one above 7 to 7: the source's "`type == 8 → 7`,
`type == 0 → 1`" (R29, R117). -/
def kindOfCode : Nat → Kind
  | 0 => .clock
  | 1 => .clock
  | 2 => .euclidean
  | 3 => .randomTrigger
  | 4 => .rampUp
  | 5 => .rampDown
  | 6 => .sine
  | _ => .voltage

/-- Gate kinds: Clock, Euclidean and RandomTrigger; the others are CV kinds (R18, R29). -/
def isGateKind : Kind → Bool
  | .clock => true
  | .euclidean => true
  | .randomTrigger => true
  | .rampUp => false
  | .rampDown => false
  | .sine => false
  | .voltage => false

/-- The code of a pending event (R33). -/
def eventCode : EventKind → BitVec 2
  | .none => 0
  | .gateOpen => 1
  | .gateClose => 2
  | .pwmTick => 3

/-- `CLAMP_KIND(c, k) = clamp(k, 1, CAP[c])` (R117). -/
def clampKind (cap : Kind) (k : BitVec 3) : Kind := kindOfCode (clampNat k.toNat 1 (kindCode cap))

/-- `min(CLK, 12)` and `min(GATE, 12)` (R119). -/
def clampLength (v : BitVec 4) : Fin 13 := ⟨min v.toNat 12, by omega⟩

/-- `min` of two length indices (R121). -/
def shorterOf (a b : Fin 13) : Fin 13 := if b < a then b else a

/-- `min(DELAY, 13)` (R119). -/
def clampDelay (v : BitVec 4) : Fin 14 := ⟨min v.toNat 13, by omega⟩

/-- `clamp(VAL, MIN_BPM, MAX_BPM)` (R85). -/
def clampTempo (v : BitVec 8) : BitVec 8 := BitVec.ofNat 8 (clampNat v.toNat minBpm maxBpm)

/-- `min(VAL, SWING_MAX)` (R115). -/
def clampSwing (cfg : Config) (v : BitVec 8) : BitVec 8 := BitVec.ofNat 8 (min v.toNat cfg.swingMax.toNat)

/-- `min(LEN, MAX_STEPS)` (R120). -/
def clampLen (v : BitVec 6) : BitVec 6 := BitVec.ofNat 6 (min v.toNat maxSteps)

/-- `clamp(STEPS, 1, MAX_STEPS)` (R120). -/
def clampSteps (v : BitVec 6) : BitVec 6 := BitVec.ofNat 6 (clampNat v.toNat 1 maxSteps)

/-- `min(PROB, 100)` (R120). -/
def clampProb (v : BitVec 7) : BitVec 7 := BitVec.ofNat 7 (min v.toNat 100)

/-- `DELAY[j]`: 0 ticks for index 0, else `DIV[j - 1]` (R10). -/
def delayTicks (cfg : Config) (j : Fin 14) : Nat :=
  if h : j.val = 0 then 0 else cfg.div[j.val - 1]

/-- `clockTicks(c) = DIV[ch[c].clk]` (R93). -/
def clockTicks (cfg : Config) (r : Record) : Nat := cfg.div[r.clk]

/-- `gateTicks(c) = DIV[ch[c].gate]` (R93). -/
def gateTicks (cfg : Config) (r : Record) : Nat := cfg.div[r.gate]

/-- `openDur(c)`: the gate-open time, one tick short of the clock where the gate is not shorter than the clock
(R94, C1). -/
def openDur (cfg : Config) (r : Record) : Nat :=
  if r.gate < r.clk then gateTicks cfg r else clockTicks cfg r - 1

/-- `closeDur(c)`: what is left of the clock (R94, C1). -/
def closeDur (cfg : Config) (r : Record) : Nat :=
  if r.gate < r.clk then clockTicks cfg r - gateTicks cfg r else 1

/-- `DIVISOR(bpm) = (F_CLK * 60) div (bpm * 192)` (R76). -/
def divisor (cfg : Config) (bpm : Nat) : Nat := (cfg.fClk * 60) / (bpm * ppqn)

/-- `DIVW`: the least number of bits that holds `DIVISOR(MIN_BPM) - 1` (R25). -/
def divWidth (cfg : Config) : Nat :=
  if divisor cfg minBpm - 1 = 0 then 0 else (divisor cfg minBpm - 1).log2 + 1

/-- The pattern word `P = {seqHi, seqLo}` (R31). -/
def pattern (r : Record) : Word := r.seqHi ++ r.seqLo

/-- A record with the pattern word `P` (R31, R104). -/
def withPattern (r : Record) (p : Word) : Record :=
  { r with seqLo := p.extractLsb' 0 16, seqHi := p.extractLsb' 16 16 }

/-- `bit(P, i) = (P >> i) & 1` (R95). -/
def bitTest (p : Word) (i : Nat) : Bool := (p >>> i) &&& 1 == 1

/-- `draw_bits32()`: one fresh value of `rnd_i` (R143; log 2). -/
def drawBits32 (e : Entropy) : Word × Entropy :=
  match e.stream with
  | v :: rest => (v, { stream := rest, count := e.count + 1 })
  | [] => (Config.rnd e.count, { stream := [], count := e.count + 1 })

/-- `draw_percent() = rnd_i mod 100` (R143). -/
def drawPercent (e : Entropy) : Nat × Entropy :=
  ((drawBits32 e).1.toNat % 100, (drawBits32 e).2)

/-- `draw_level() = 1 + (rnd_i mod 255)` (R143). -/
def drawLevel (e : Entropy) : BitVec 8 × Entropy :=
  (BitVec.ofNat 8 (1 + (drawBits32 e).1.toNat % 255), (drawBits32 e).2)

/-- A one-bit flag as a field of a READ word (R129). -/
def flagBit (b : Bool) : BitVec 1 := BitVec.ofBool b

/-- `CH_CFG` and `STG_CFG[14:0]` (R129). -/
def packConfig (r : Record) : Word :=
  placeField (BitVec.ofNat 3 (kindCode r.kind)) 0 ||| placeField (BitVec.ofNat 4 r.clk) 4 |||
    placeField (BitVec.ofNat 4 r.gate) 8 ||| placeField (BitVec.ofNat 4 r.delay) 12

/-- `CH_PARAM` and `STG_PARAM` (R129). -/
def packParam (r : Record) : Word :=
  placeField r.steps 0 ||| placeField r.len 8 ||| placeField r.prob 16

/-- `CH_LEVEL` (R129). -/
def packLevel (x : Channel) : Word :=
  placeField x.pwmLevel 0 ||| placeField (flagBit x.gateLevel) 8 ||| placeField (flagBit x.swingPhase) 9 |||
    placeField (flagBit x.openEligible) 10 ||| placeField x.seqIdx 11 ||| placeField x.elapsed 16

/-- `CH_EVENT` (R129). -/
def packEvent (x : Channel) : Word := placeField x.nextTime 0 ||| placeField (eventCode x.nextKind) 16

/-- `STG_CFG`: as `CH_CFG`, and bit 31 is the ready flag (R129). -/
def packStagedConfig (x : Staged) : Word := packConfig x.conf ||| placeField (flagBit x.ready) 31

end Sys2Proof.Machine
end

