-- ==== Sys2Proof/Machine/Flags.lean ====
section
/-! DEFINITION. The one-bit flags: the sticky error bits (R27, R134), the ready flags (R38) and the STATUS word (R129).
The block has no condition codes (R40). -/

namespace Sys2Proof.Machine

/-- The bit of `STATUS_ERR` that is `CMD_ERR` (R27). -/
def cmdErrBit : Nat := 0

/-- The bit of `STATUS_ERR` that is `BUSY_ERR` (R27). -/
def busyErrBit : Nat := 1

/-- `CMD_ERR` (R27). -/
def cmdErr (s : State) : Bool := s.statusErr.getLsbD cmdErrBit

/-- `BUSY_ERR` (R27). -/
def busyErr (s : State) : Bool := s.statusErr.getLsbD busyErrBit

/-- `set_err(b)` sets bit `b` and leaves the other bit unchanged (R27). -/
def setErr (b : Nat) (s : State) : State := { s with statusErr := s.statusErr ||| (1#2 <<< b) }

/-- `stg[c].ready` (R37). -/
def stagedReady (s : State) (c : Chan) : Bool := s.stg[c].ready

/-- `STATUS[15:8]`: bit `c` is `stg[c].ready` (R129). -/
def readyBits (s : State) : BitVec 8 :=
  chans.foldl (fun v c => v ||| ((flagBit (stagedReady s c)).setWidth 8 <<< c.val)) 0

/-- The STATUS word (R129). -/
def packStatus (s : State) : Word :=
  placeField (flagBit s.running) 0 ||| placeField (flagBit s.swingReady) 1 ||| placeField (flagBit (cmdErr s)) 2 |||
    placeField (flagBit (busyErr s)) 3 ||| placeField (readyBits s) 8

end Sys2Proof.Machine
end

