-- ==== Sys2Proof/Machine/Generators.lean ====
section
/-! DEFINITION. The pattern generators (R101 to R104), the swing table (R111) and the waveform shaper (R105 to R109). -/

namespace Sys2Proof.Machine

/-- The bit position of step `i` of `EUCLID(k, n)`: `n - ceil_div(i * n, k) - 1` (R101). -/
def euclidPos (k n i : Nat) : Nat := n - ceilDiv (i * n) k - 1

/-- The pattern of the first `m` steps of `EUCLID(k, n)` (R101). -/
def euclidSteps (k n : Nat) : Nat → Word
  | 0 => 0
  | m + 1 => euclidSteps k n m ||| (1#32 <<< euclidPos k n m)

/-- `EUCLID(k, n)` (R101). -/
def euclid (k n : Nat) : Word := euclidSteps k n k

/-- Steps `j .. j + m - 1` of `RTRIG(p, len)`, one draw each, onto the pattern `acc` (R102). -/
def rtrigFrom (p : Nat) : Nat → Nat → Word → Entropy → Word × Entropy
  | 0, _, acc, e => (acc, e)
  | m + 1, j, acc, e =>
      rtrigFrom p m (j + 1) (if (drawPercent e).1 < p then acc ||| (1#32 <<< j) else acc) (drawPercent e).2

/-- `RTRIG(p, len)` (R102). -/
def rtrig (p len : Nat) (e : Entropy) : Word × Entropy := rtrigFrom p len 0 0 e

/-- `RVOLT(len)`: one 32-bit draw that holds four samples (R103). -/
def rvolt (e : Entropy) : Word × Entropy := drawBits32 e

/-- The pattern word `GENERATE` gives a record, with the draws it takes (R104). -/
def generatePattern (r : Record) (e : Entropy) : Word × Entropy :=
  match r.kind with
  | .euclidean => (euclid r.steps.toNat r.len.toNat, e)
  | .randomTrigger => if r.len = 0 then (0, e) else rtrig r.prob.toNat r.len.toNat e
  | .voltage => if r.len = 0 then (0, e) else rvolt e
  | .clock => (0, e)
  | .rampUp => (0, e)
  | .rampDown => (0, e)
  | .sine => (0, e)

/-- `GENERATE(c)` on the staged record (R104). -/
def generate (r : Record) (e : Entropy) : Record × Entropy :=
  (withPattern r (generatePattern r e).1, (generatePattern r e).2)

/-- `SWT[i] = (s == 0) ? 0 : max(1, s >> (5 - i))` (R111). -/
def swingEntry (s : BitVec 8) (i : Nat) : BitVec 8 :=
  if s = 0 then 0 else BitVec.ofNat 8 (max 1 (s.toNat >>> (5 - i)))

/-- The swing table of a swing amount (R111). -/
def swingTable (s : BitVec 8) : Vector (BitVec 8) 6 :=
  #v[swingEntry s 0, swingEntry s 1, swingEntry s 2, swingEntry s 3, swingEntry s 4, swingEntry s 5]

/-- `RAMP(e, L)` (R107). -/
def ramp (e l : Nat) : Nat := if l ≤ e then 255 else 255 * e / l

/-- Three-way comparison of two integers. -/
def cmpInt (a b : Int) : Ordering := if a < b then .lt else if a = b then .eq else .gt

/-- How `cos(2*pi*a/l)` compares with the fraction `p/q` (`a < l`, `q > 0`), decided without any rounding: the cosine of
a zero angle is 1 and that of a third of a turn -1/2; any other angle is doubled, by `cos(2x) = 2*cos(x)^2 - 1`, after the
signs of the two sides were compared. `fuel` bounds the doublings; 14 are enough for every `l` that divides `LIMIT`
(R108; log 10). -/
def cosCmp : Nat → Nat → Nat → Int → Int → Ordering
  | 0, a, _, p, q => if a = 0 then cmpInt q p else cmpInt (-q) (2 * p)
  | fuel + 1, a, l, p, q =>
      if a = 0 then cmpInt q p
      else if 3 * a = l ∨ 3 * a = 2 * l then cmpInt (-q) (2 * p)
      else if 4 * a ≤ l ∨ 3 * l ≤ 4 * a then
        if p < 0 then .gt else cosCmp fuel (2 * a % l) l (2 * p * p - q * q) (q * q)
      else
        if 0 ≤ p then .lt else (cosCmp fuel (2 * a % l) l (2 * p * p - q * q) (q * q)).swap

/-- Whether the level `SINE(e, L)` is at least `v`, for `v` in `1..255`: `255 * (1 ± cos) / 2 + 1/2 >= v` solved for the
cosine (R108). -/
def sineAtLeast (start : SineStart) (e l v : Nat) : Bool :=
  match start with
  | .high => cosCmp 14 (e % l) l (2 * (v : Int) - 256) 255 != .lt
  | .low => cosCmp 14 (e % l) l (256 - 2 * (v : Int)) 255 != .gt

/-- `SINE(e, L)`: the greatest level the wave reaches, found bit by bit (R108). -/
def sine (start : SineStart) (e l : Nat) : Nat :=
  [128, 64, 32, 16, 8, 4, 2, 1].foldl (fun v b => if sineAtLeast start e l (v + b) then v + b else v) 0

/-- Sample `i` of a pattern word, `P[8i+7:8i]` (R31, R109). -/
def voltSample (p : Word) (i : Nat) : BitVec 8 := p.extractLsb' (8 * i) 8

/-- `VOLT_LEVEL(c)` (R109). -/
def voltLevel (x : Channel) (e : Entropy) : BitVec 8 × Entropy :=
  if x.conf.len = 0 then drawLevel e else (voltSample (pattern x.conf) x.seqIdx.toNat, e)

/-- `CV_LEVEL(c)` (R106). A gate kind has no case in the rule: its level is a free value, and no reachable state asks for
it (log 6). -/
def cvLevel (cfg : Config) (x : Channel) (e : Entropy) : BitVec 8 × Entropy :=
  match x.conf.kind with
  | .rampUp => (BitVec.ofNat 8 (ramp x.elapsed.toNat (gateTicks cfg x.conf)), e)
  | .rampDown => (BitVec.ofNat 8 (255 - ramp x.elapsed.toNat (gateTicks cfg x.conf)), e)
  | .sine => (BitVec.ofNat 8 (sine cfg.sineStart x.elapsed.toNat (gateTicks cfg x.conf)), e)
  | .voltage => voltLevel x e
  | .clock => (Config.strayLevel .clock, e)
  | .euclidean => (Config.strayLevel .euclidean, e)
  | .randomTrigger => (Config.strayLevel .randomTrigger, e)

/-- The next index of a Voltage channel whose cycle restarts; other kinds keep theirs (R105). -/
def restartIdx (x : Channel) : BitVec 5 :=
  if x.conf.kind = .voltage ∧ x.conf.len ≠ 0 then BitVec.ofNat 5 ((x.seqIdx.toNat + 1) % x.conf.len.toNat)
  else x.seqIdx

/-- `ADVANCE_ELAPSED(c)` (R105). -/
def advanceElapsed (cfg : Config) (x : Channel) : Channel :=
  if clockTicks cfg x.conf ≤ x.elapsed.toNat + pwmStep then
    { x with elapsed := 0, seqIdx := restartIdx x }
  else
    { x with elapsed := BitVec.ofNat 14 (x.elapsed.toNat + pwmStep) }

end Sys2Proof.Machine
end

