-- ==== Sys2Proof/Machine/Ops.lean ====
section
/-! DEFINITION. The named operations the meanings share: the channel state machine (R89 to R100), staging and commit (R116 to
R125), the tick step (R81), the divider (R77) and reset (R147). The block raises no exception and takes no trap, so there
is no exception entry and no return to write (R133). -/

namespace Sys2Proof.Machine

/-! ### Registers and the output port -/

/-- `gate_o[c]`: always the channel's gate level (R39). -/
def State.gateO (s : State) (c : Chan) : Bool := s.ch[c].gateLevel

/-- `pwm_o[c]`: always the channel's PWM level (R39). -/
def State.pwmO (s : State) (c : Chan) : BitVec 8 := s.ch[c].pwmLevel

/-- `out_valid[c]`, for the step whose trace the state holds (R142; log 4). -/
def State.outValid (s : State) (c : Chan) : Bool := s.out.any (fun ev => ev.chan == c)

/-- `out_valid[c]` of a system clock cycle, from the states its steps left: 1 exactly when one of them emitted an event of
the channel (R142). -/
def cycleOutValid (steps : List State) (c : Chan) : Bool := steps.any (fun s => s.outValid c)

/-- `emit_out(c) if (gateLevel, pwmLevel) changed`: the event of a change from `old` to `new`, or none (R39). -/
def emission (c : Chan) (old new : Channel) : List OutEvent :=
  if old.gateLevel = new.gateLevel ∧ old.pwmLevel = new.pwmLevel then []
  else [{ chan := c, gate := new.gateLevel, pwm := new.pwmLevel }]

/-- Store a live record and the entropy input after an event rule or a timeline reset, with the rule's output
event (R39). -/
def putChannel (c : Chan) (x : Channel × Entropy) (s : State) : State :=
  { s with ch := s.ch.set c x.1, entropy := x.2, out := s.out ++ emission c s.ch[c] x.1 }

/-- Store the configuration fields of `stg[c]` and the entropy input. -/
def putStaged (c : Chan) (x : Record × Entropy) (s : State) : State :=
  { s with stg := s.stg.set c { s.stg[c] with conf := x.1 }, entropy := x.2 }

/-- Write `stg[c].ready`. -/
def setReady (c : Chan) (b : Bool) (s : State) : State :=
  { s with stg := s.stg.set c { s.stg[c] with ready := b } }

/-- Write `swingLive`; `SWT` is rewritten in the same step (R111). -/
def setSwingLive (a : BitVec 8) (s : State) : State := { s with swingLive := a, swt := swingTable a }

/-- `for c in 0..7`, ascending (R87, R89, R125). -/
def forChannels (f : Chan → State → State) (s : State) : State := chans.foldl (fun t c => f c t) s

/-! ### The channel state machine -/

/-- `ELIGIBILITY(c)`: the decision, the index after it, and the entropy input after its draw. The bit is tested before
the index moves (R96). A CV kind has no case in the rule: its decision is a free value, and no reachable state asks for
it (log 6). -/
def eligibility (x : Channel) (e : Entropy) : Bool × BitVec 5 × Entropy :=
  match x.conf.kind with
  | .clock => (true, x.seqIdx, e)
  | .euclidean =>
      (bitTest (pattern x.conf) x.seqIdx.toNat,
        if x.seqIdx = 0 then BitVec.ofNat 5 (x.conf.len.toNat - 1) else x.seqIdx - 1, e)
  | .randomTrigger =>
      if x.conf.len = 0 then
        ((drawPercent e).1 < x.conf.prob.toNat, x.seqIdx, (drawPercent e).2)
      else
        (bitTest (pattern x.conf) x.seqIdx.toNat,
          BitVec.ofNat 5 ((x.seqIdx.toNat + 1) % x.conf.len.toNat), e)
  | .rampUp => (Config.strayEligible .rampUp, x.seqIdx, e)
  | .rampDown => (Config.strayEligible .rampDown, x.seqIdx, e)
  | .sine => (Config.strayEligible .sine, x.seqIdx, e)
  | .voltage => (Config.strayEligible .voltage, x.seqIdx, e)

/-- Store a decision of `eligibility` in the record (R96). -/
def withEligibility (x : Channel) (e : Entropy) : Channel × Entropy :=
  ({ x with openEligible := (eligibility x e).1, seqIdx := (eligibility x e).2.1 }, (eligibility x e).2.2)

/-- `APPLY_SWING`: the swung time and the inverted phase, for the offset `off` (R113). -/
def applySwing (phase : Bool) (base : BitVec 16) (off : Nat) : BitVec 16 × Bool :=
  if phase then (tsub base off, false) else (tadd base off, true)

/-- The offset of a clock length, where it is swingable: `clk` in `0..5`, bucket `clk` (R112). -/
def swingOffset (swt : Vector (BitVec 8) 6) (clk : Fin 13) : Option Nat :=
  if h : clk.val < nSwing then some swt[clk.val].toNat else none

/-- The time of the GateOpen after a GateClose at `now`, and the swing phase after it (R98). -/
def nextOpen (cfg : Config) (swt : Vector (BitVec 8) 6) (now : BitVec 16) (x : Channel) : BitVec 16 × Bool :=
  match swingOffset swt x.conf.clk with
  | some off => applySwing x.swingPhase (tadd now (closeDur cfg x.conf)) off
  | none => (tadd now (closeDur cfg x.conf), x.swingPhase)

/-- `GATE_OPEN(c, now)` (R97). -/
def gateOpen (cfg : Config) (now : BitVec 16) (x : Channel) (e : Entropy) : Channel × Entropy :=
  ({ x with
      gateLevel := x.openEligible
      pwmLevel := 0
      nextTime := tadd now (openDur cfg x.conf)
      nextKind := .gateClose }, e)

/-- `GATE_CLOSE(c, now)` (R98). -/
def gateClose (cfg : Config) (swt : Vector (BitVec 8) 6) (now : BitVec 16) (x : Channel) (e : Entropy) :
    Channel × Entropy :=
  withEligibility
    { x with
      gateLevel := false
      pwmLevel := 0
      swingPhase := (nextOpen cfg swt now x).2
      nextTime := (nextOpen cfg swt now x).1
      nextKind := .gateOpen } e

/-- `PWM_TICK(c, now)`: the level is computed before `elapsed` advances (R99). -/
def pwmTick (cfg : Config) (now : BitVec 16) (x : Channel) (e : Entropy) : Channel × Entropy :=
  ({ advanceElapsed cfg x with
      pwmLevel := (cvLevel cfg x e).1
      gateLevel := false
      nextTime := tadd now pwmStep
      nextKind := .pwmTick }, (cvLevel cfg x e).2)

/-- `HANDLE(c, now)` by the pending event; a channel with none is left as it is (R89, R34). -/
def handleChannel (cfg : Config) (swt : Vector (BitVec 8) 6) (now : BitVec 16) (x : Channel) (e : Entropy) :
    Channel × Entropy :=
  match x.nextKind with
  | .gateOpen => gateOpen cfg now x e
  | .gateClose => gateClose cfg swt now x e
  | .pwmTick => pwmTick cfg now x e
  | .none => (x, e)

/-- `HANDLE(c, now)` (R89). -/
def handle (now : BitVec 16) (c : Chan) (s : State) : State :=
  putChannel c (handleChannel s.cfg s.swt now s.ch[c] s.entropy) s

/-- The channel has a pending event at `now` (R89). -/
def due (now : BitVec 16) (x : Channel) : Bool := x.nextKind != .none && x.nextTime == now

/-- One examination of a channel by the dispatch pass (R89). -/
def dispatch (now : BitVec 16) (c : Chan) (s : State) : State :=
  if due now s.ch[c] then handle now c s else s

/-- `DISPATCH_ALL(now)`: each channel examined exactly once, in ascending order (R89). -/
def dispatchAll (now : BitVec 16) (s : State) : State := forChannels (dispatch now) s

/-- `TIMELINE_RESET(c, now)` (R100). -/
def timelineChannel (cfg : Config) (now : BitVec 16) (x : Channel) (e : Entropy) : Channel × Entropy :=
  let fresh : Channel :=
    { x with
      gateLevel := false
      pwmLevel := 0
      swingPhase := false
      elapsed := 0
      seqIdx := if x.conf.kind = .euclidean then BitVec.ofNat 5 (x.conf.len.toNat - 1) else 0
      nextTime := tadd now (delayTicks cfg x.conf.delay) }
  if isGateKind x.conf.kind then withEligibility { fresh with nextKind := .gateOpen } e
  else ({ fresh with nextKind := .pwmTick, openEligible := false }, e)

/-- `TIMELINE_RESET(c, now)` in the state (R100). -/
def timelineReset (now : BitVec 16) (c : Chan) (s : State) : State :=
  putChannel c (timelineChannel s.cfg now s.ch[c] s.entropy) s

/-! ### Staging and commit -/

/-- `NORMALIZE(c)` on the staged record (R121). -/
def normalize (r : Record) : Record :=
  match r.kind with
  | .clock => { r with gate := shorterOf r.gate r.clk }
  | .randomTrigger => { r with gate := shorterOf r.gate r.clk }
  | .euclidean =>
      { r with
        gate := shorterOf r.gate r.clk
        len := BitVec.ofNat 6 (max r.len.toNat 1)
        steps := BitVec.ofNat 6 (min r.steps.toNat (max r.len.toNat 1)) }
  | .voltage => { r with len := BitVec.ofNat 6 (min r.len.toNat 4) }
  | .rampUp => r
  | .rampDown => r
  | .sine => r

/-- The end of both staging commands: `NORMALIZE(c)`, then `GENERATE(c)` (R119, R120). -/
def stageRecord (c : Chan) (r : Record) (s : State) : State :=
  putStaged c (generate (normalize r) s.entropy) s

/-- `COPY_STAGED(c)`: the nine configuration fields; `stg[c]` is left as it is (R124). It changes no level, so it emits
nothing. -/
def copyStaged (c : Chan) (s : State) : State :=
  { s with ch := s.ch.set c { s.ch[c] with conf := s.stg[c].conf } }

/-- `APPLY_CFG(c, now)` (R124). -/
def applyCfg (now : BitVec 16) (c : Chan) (s : State) : State := timelineReset now c (copyStaged c s)

/-- `SWING_COMMIT()` (R116). -/
def swingCommit (s : State) : State := { setSwingLive s.swingStaged s with swingReady := false }

/-- `SWING_COMMIT()` where a swing amount is ready (R87, R125). -/
def commitSwingIfReady (s : State) : State := if s.swingReady then swingCommit s else s

/-- What the bar gate does to one channel: apply it where it is ready, clear the flag, and handle its first event where
that falls at `now` (R125). -/
def barCommitChannel (now : BitVec 16) (c : Chan) (s : State) : State :=
  if s.stg[c].ready then
    let t := setReady c false (applyCfg now c s)
    if t.ch[c].nextTime = now then handle now c t else t
  else s

/-- `BAR_COMMIT(now)`: the swing first, then the channels in ascending order (R125). -/
def barCommit (now : BitVec 16) (s : State) : State := forChannels (barCommitChannel now) (commitSwingIfReady s)

/-- What STOP does to a ready staged record: copy it and clear the flag (R87). -/
def stopCommitChannel (c : Chan) (s : State) : State :=
  if s.stg[c].ready then setReady c false (copyStaged c s) else s

/-! ### The tick step and the divider -/

/-- Step (2) of the tick step: the bar gate, at a bar boundary (R81). -/
def barGate (now : BitVec 16) (s : State) : State := if barBoundary now then barCommit now s else s

/-- One tick step: dispatch, commit at a bar boundary, increment; nothing while stopped (R81). -/
def tickStep (s : State) : State :=
  if s.running then
    { barGate s.tickCounter (dispatchAll s.tickCounter s) with tickCounter := tadd s.tickCounter 1 }
  else s

/-- One system clock cycle of the divider: a tick step where the down-counter is 0 (R77). While stopped, or with
`TICK_SOURCE = HOST`, it holds `divCount` and produces no tick. -/
def dividerCycle (s : State) : State :=
  if s.running && s.cfg.tickSource == .divider then
    if s.divCount = 0 then
      tickStep { s with
        tempoActive := s.tempoReq
        divCount := divisor s.cfg s.tempoReq.toNat - 1 }
    else { s with divCount := s.divCount - 1 }
  else s

/-! ### Reset and the input port -/

/-- `rst`: every register at its reset value, no output event (R147). The parameters, the entropy input and the coming
inputs are no registers (log 11). -/
def resetStep (s : State) : State := State.resetWith s.cfg s.entropy s.inputs

/-- The environment's next move and the state without it; the trace of the step before is gone (R39, R54). With no
move listed, `cmd_valid` is 0 and the cycle is the divider's (log 3). -/
def takeInput (s : State) : Input × State :=
  match s.inputs with
  | i :: rest => (i, { s with inputs := rest, out := [] })
  | [] => (.clock, { s with out := [] })

end Sys2Proof.Machine
end

