-- ==== Sys2Proof/Machine/Commit.lean ====
section
/-! DEFINITION. The configuration commands STAGE_TIMING, STAGE_PATTERN and COMMIT (44_commit.md). -/

namespace Sys2Proof.Machine

/-- STAGE_TIMING (R119); refused with BUSY_ERR while the record is ready (R118). -/
def execStageTiming (ch : Chan) (kind : BitVec 3) (clk gate delay : BitVec 4) (s : State) : Result :=
  if s.stg[ch].ready then .next (setErr busyErrBit s)
  else
    .next (stageRecord ch
      { s.stg[ch].conf with
        kind := clampKind s.cfg.cap[ch] kind
        clk := clampLength clk
        gate := clampLength gate
        delay := clampDelay delay } s)

/-- STAGE_PATTERN (R120); refused with BUSY_ERR while the record is ready (R118). -/
def execStagePattern (ch : Chan) (len steps : BitVec 6) (prob : BitVec 7) (s : State) : Result :=
  if s.stg[ch].ready then .next (setErr busyErrBit s)
  else
    .next (stageRecord ch
      { s.stg[ch].conf with
        len := clampLen len
        steps := clampSteps steps
        prob := clampProb prob } s)

/-- COMMIT (R122, R123). -/
def execCommit (ch : Chan) (s : State) : Result :=
  if s.stg[ch].ready then .next s
  else if s.running then .next (setReady ch true s)
  else .next (applyCfg 0 ch s)

end Sys2Proof.Machine
end

