-- ==== Sys2Proof/Machine/HostAccess.lean ====
section
/-! DEFINITION. The commands READ, NOP, CLEAR_ERR and the reserved opcodes (45_host_access.md). -/

namespace Sys2Proof.Machine

/-- `READ_VALUE(SEL, c)`; none for the reserved selectors 14 and 15 (R129). -/
def readValue (s : State) (sel : BitVec 4) (c : Chan) : Option Word :=
  match sel.toNat with
  | 0 => some (packStatus s)
  | 1 => some (placeField s.tempoReq 0 ||| placeField s.tempoActive 8)
  | 2 => some (placeField s.swingLive 0 ||| placeField s.swingStaged 8)
  | 3 => some (placeField s.tickCounter 0)
  | 4 => some (packConfig s.ch[c].conf)
  | 5 => some (packParam s.ch[c].conf)
  | 6 => some (packLevel s.ch[c])
  | 7 => some (pattern s.ch[c].conf)
  | 8 => some (packEvent s.ch[c])
  | 9 => some (packStagedConfig s.stg[c])
  | 10 => some (packParam s.stg[c].conf)
  | 11 => some (pattern s.stg[c].conf)
  | 12 => some (placeField s.swt[0] 0 ||| placeField s.swt[1] 8 ||| placeField s.swt[2] 16 ||| placeField s.swt[3] 24)
  | 13 => some (placeField s.swt[4] 0 ||| placeField s.swt[5] 8)
  | _ => none -- `SEL` has four bits: 14 and 15 are what is left

/-- READ (R128). -/
def execRead (ch : Chan) (sel : BitVec 4) (s : State) : Result :=
  match readValue s sel ch with
  | some v => .next { s with rdata := v }
  | none => .next (setErr cmdErrBit { s with rdata := 0 })

/-- NOP: no operation (R130). -/
def execNop (s : State) : Result := .next s

/-- CLEAR_ERR (R131). -/
def execClearErr (s : State) : Result := .next { s with statusErr := 0 }

/-- A reserved opcode sets CMD_ERR and changes nothing else (R132). -/
def refuseWord (s : State) : Result := .next (setErr cmdErrBit s)

/-- The reserved opcode 0xB (R132). -/
def execReservedB (s : State) : Result := refuseWord s

/-- The reserved opcode 0xC (R132). -/
def execReservedC (s : State) : Result := refuseWord s

/-- The reserved opcode 0xD (R132). -/
def execReservedD (s : State) : Result := refuseWord s

/-- The reserved opcode 0xE (R132). -/
def execReservedE (s : State) : Result := refuseWord s

/-- The reserved opcode 0xF (R132). -/
def execReservedF (s : State) : Result := refuseWord s

end Sys2Proof.Machine
end

