-- ==== Sys2Proof/Machine/Scheduler.lean ====
section
/-! DEFINITION. The scheduler's commands: SET_TEMPO, START, STOP, STEP_TICK (40_scheduler.md). -/

namespace Sys2Proof.Machine

/-- SET_TEMPO (R85). -/
def execSetTempo (val : BitVec 8) (s : State) : Result :=
  .next { s with
    tempoReq := clampTempo val
    tempoActive := if s.running then s.tempoActive else clampTempo val }

/-- START (R86). -/
def execStart (s : State) : Result :=
  if s.running then .next s
  else .next { s with running := true, divCount := 0, tempoActive := s.tempoReq }

/-- STOP (R87). -/
def execStop (s : State) : Result :=
  let halted := { s with running := false, tickCounter := 0, divCount := 0 }
  .next (forChannels (timelineReset 0) (forChannels stopCommitChannel (commitSwingIfReady halted)))

/-- STEP_TICK (R88, R78). -/
def execStepTick (s : State) : Result :=
  match s.cfg.tickSource with
  | .host => .next (tickStep s)
  | .divider => .next (setErr cmdErrBit s)

end Sys2Proof.Machine
end

