-- ==== Sys2Proof/Machine/Swing.lean ====
section
/-! DEFINITION. The swing command SET_SWING (43_swing.md). -/

namespace Sys2Proof.Machine

/-- SET_SWING (R115). -/
def execSetSwing (val : BitVec 8) (s : State) : Result :=
  if s.running then
    .next { s with swingStaged := clampSwing s.cfg val, swingReady := true }
  else
    .next { setSwingLive (clampSwing s.cfg val) s with swingReady := false }

end Sys2Proof.Machine
end

