-- ==== Sys2Proof/Machine/Dispatch.lean ====
section
/-! DEFINITION. One arm per command, each a direct call of its meaning (R46). -/

namespace Sys2Proof.Machine

def exec (i : Instr) (s : State) : Host.Outcome State Fault Refusal :=
  match i with
  | .nop => Sys2Proof.Machine.execNop s
  | .setTempo val => Sys2Proof.Machine.execSetTempo val s
  | .setSwing val => Sys2Proof.Machine.execSetSwing val s
  | .start => Sys2Proof.Machine.execStart s
  | .stop => Sys2Proof.Machine.execStop s
  | .stageTiming ch kind clk gate delay => Sys2Proof.Machine.execStageTiming ch kind clk gate delay s
  | .stagePattern ch len steps prob => Sys2Proof.Machine.execStagePattern ch len steps prob s
  | .commit ch => Sys2Proof.Machine.execCommit ch s
  | .read ch sel => Sys2Proof.Machine.execRead ch sel s
  | .clearErr => Sys2Proof.Machine.execClearErr s
  | .stepTick => Sys2Proof.Machine.execStepTick s
  | .reservedB => Sys2Proof.Machine.execReservedB s
  | .reservedC => Sys2Proof.Machine.execReservedC s
  | .reservedD => Sys2Proof.Machine.execReservedD s
  | .reservedE => Sys2Proof.Machine.execReservedE s
  | .reservedF => Sys2Proof.Machine.execReservedF s

end Sys2Proof.Machine
end

