-- ==== Sys2Proof/Machine/Step.lean ====
section
/-! DEFINITION. One step of the machine: the environment's next move (R16, R46, R77, R147). -/

namespace Sys2Proof.Machine

/-- A command step performs the word's command; a clock cycle is the divider's; a reset resets (R16, R46). -/
def step (s : State) : Host.Outcome State Fault Refusal :=
  match (takeInput s).1 with
  | .command w => exec (decode w) (takeInput s).2
  | .clock => .next (dividerCycle (takeInput s).2)
  | .reset => .next (resetStep (takeInput s).2)

/-- The state with an opcode-table word as the environment's next move on the command port (log 8). -/
def State.withFetchWord (s : State) (nbits w : Nat) : State :=
  { s with inputs := .command (tableWord nbits w) :: s.inputs }

end Sys2Proof.Machine
end

