-- ==== Sys2Proof/Safety.lean ====
section
/-! DEFINITION. What a legal state is: the legal values of R30 and R32 and the invariants of R22 to R26, R31, R35, R36 and R38.
No reachable state breaks one: a broken invariant would be the logic fault of R137. -/

namespace Sys2Proof.Machine

/-- The legal values of a configuration record under the channel's kind ceiling (R30). -/
abbrev Record.Legal (cap : Kind) (r : Record) : Prop :=
  kindCode r.kind ≤ kindCode cap ∧ (isGateKind r.kind = true → r.gate ≤ r.clk) ∧
    (1 ≤ r.steps.toNat ∧ r.steps.toNat ≤ 32) ∧ r.len.toNat ≤ 32 ∧ r.prob.toNat ≤ 100 ∧
    (r.kind = .euclidean → 1 ≤ r.len.toNat ∧ r.steps.toNat ≤ r.len.toNat) ∧
    (r.kind = .voltage → r.len.toNat ≤ 4)

/-- The pattern word a record of each kind holds: the Euclidean pattern; a random-trigger pattern, 0 from bit `len` on;
any four samples, or 0 when the Voltage channel free-runs; 0 for the other kinds (R31, R104). -/
abbrev Record.PatternLegal (r : Record) : Prop :=
  (r.kind = .euclidean → pattern r = euclid r.steps.toNat r.len.toNat) ∧
    (r.kind = .randomTrigger → ∀ j : Fin 32, r.len.toNat ≤ j.val → (pattern r).getLsbD j.val = false) ∧
    (r.kind = .voltage → r.len = 0 → pattern r = 0) ∧
    (r.kind ≠ .euclidean → r.kind ≠ .randomTrigger → r.kind ≠ .voltage → pattern r = 0)

/-- The dynamic fields of a gate-kind channel (R36, R96, R97). -/
abbrev Channel.GateLegal (x : Channel) : Prop :=
  (x.nextKind = .gateOpen ∨ x.nextKind = .gateClose) ∧ x.pwmLevel = 0 ∧ x.elapsed = 0 ∧
    (x.nextKind = .gateOpen → x.gateLevel = false) ∧ (x.conf.kind = .clock → x.openEligible = true)

/-- The dynamic fields of a CV-kind channel (R36, R105). -/
abbrev Channel.CvLegal (cfg : Config) (x : Channel) : Prop :=
  x.nextKind = .pwmTick ∧ x.gateLevel = false ∧ x.openEligible = false ∧ x.swingPhase = false ∧
    x.elapsed.toNat < clockTicks cfg x.conf ∧ x.elapsed.toNat % pwmStep = 0

/-- The legal values of a live record (R30, R31, R32, R35, R36). -/
abbrev Channel.Legal (cfg : Config) (cap : Kind) (x : Channel) : Prop :=
  x.conf.Legal cap ∧ x.conf.PatternLegal ∧ x.nextTime.toNat < limit ∧
    (0 < x.conf.len.toNat → x.seqIdx.toNat < x.conf.len.toNat) ∧
    (isGateKind x.conf.kind = true → x.GateLegal) ∧ (isGateKind x.conf.kind = false → x.CvLegal cfg)

/-- The legal values of a staged record (R37). -/
abbrev Staged.Legal (cap : Kind) (x : Staged) : Prop := x.conf.Legal cap ∧ x.conf.PatternLegal

/-- The invariants of the state. -/
structure State.Inv (s : State) : Prop where
  /-- The parameters meet the spec's premises (R9, R76). -/
  cfgWf : s.cfg.Wf
  /-- `TickCounter < LIMIT` (R22). -/
  tickBelowLimit : s.tickCounter.toNat < limit
  /-- `running == 0` implies `TickCounter == 0` (R23). -/
  stoppedAtZero : s.running = false → s.tickCounter = 0
  /-- Both tempo registers hold a value in `30..200` (R24). -/
  tempoReqLegal : minBpm ≤ s.tempoReq.toNat ∧ s.tempoReq.toNat ≤ maxBpm
  /-- Both tempo registers hold a value in `30..200` (R24). -/
  tempoActiveLegal : minBpm ≤ s.tempoActive.toNat ∧ s.tempoActive.toNat ≤ maxBpm
  /-- The divider's counter is below the longest period, so it fits its `DIVW` bits (R25). -/
  divCountBelow : s.divCount < divisor s.cfg minBpm
  /-- `swingLive` is in `0..SWING_MAX` (R26). -/
  swingLiveLegal : s.swingLive.toNat ≤ s.cfg.swingMax.toNat
  /-- `swingStaged` is in `0..SWING_MAX` (R26). -/
  swingStagedLegal : s.swingStaged.toNat ≤ s.cfg.swingMax.toNat
  /-- `SWT` is the table of `swingLive` (R111). -/
  swtIsTable : s.swt = swingTable s.swingLive
  /-- `swingReady == 1` only while running (R38 b). -/
  swingReadyRunning : s.swingReady = true → s.running = true
  /-- `stg[c].ready == 1` only while running (R38 b). -/
  readyRunning : ∀ c : Chan, s.stg[c].ready = true → s.running = true
  /-- Every live record is legal (R30 to R36). -/
  liveLegal : ∀ c : Chan, s.ch[c].Legal s.cfg s.cfg.cap[c]
  /-- Every staged record is legal (R37). -/
  stagedLegal : ∀ c : Chan, s.stg[c].Legal s.cfg.cap[c]

end Sys2Proof.Machine
end

