-- ==== Sys2Proof/Certificates/Slice0/Obligations.lean ====
section
/-! DEFINITION. The statements about the block, from the numbered rules of spec/. A frame is written
`{ t with f := s.f } = s`: the state after is the state before but for the named fields. -/

namespace Sys2Proof.Claims

open Sys2Proof.Machine

/-- The opcode of a command's row (R62). -/
def opcodeOf : Instr → BitVec 4
  | .nop => 0x0
  | .setTempo _ => 0x1
  | .setSwing _ => 0x2
  | .start => 0x3
  | .stop => 0x4
  | .stageTiming _ _ _ _ _ => 0x5
  | .stagePattern _ _ _ _ => 0x6
  | .commit _ => 0x7
  | .read _ _ => 0x8
  | .clearErr => 0x9
  | .stepTick => 0xA
  | .reservedB => 0xB
  | .reservedC => 0xC
  | .reservedD => 0xD
  | .reservedE => 0xE
  | .reservedF => 0xF

/-- The reserved bits of a word, by its opcode: every "res" of the formats N, V, T, P, C and R (R63 to R68). -/
def reservedMask (op : BitVec 4) : Word :=
  if op = 0x1 ∨ op = 0x2 then 0x0FFFFF00
  else if op = 0x5 then 0x08F8000F
  else if op = 0x6 then 0x08C0C080
  else if op = 0x7 then 0x08FFFFFF
  else if op = 0x8 then 0x08FFFFF0
  else 0x0FFFFFFF

/-! The spec's tables and terms, written out here so that no statement rests on the model's own copy of one. -/

/-- The codes of the kinds (R29). -/
def kindNumber : Kind → Nat
  | .clock => 1
  | .euclidean => 2
  | .randomTrigger => 3
  | .rampUp => 4
  | .rampDown => 5
  | .sine => 6
  | .voltage => 7

/-- The codes of the pending events (R33). -/
def eventNumber : EventKind → Nat
  | .none => 0
  | .gateOpen => 1
  | .gateClose => 2
  | .pwmTick => 3

/-- The gate kinds; the other kinds are CV kinds (R18, R29). -/
abbrev GateKind (k : Kind) : Prop := k = .clock ∨ k = .euclidean ∨ k = .randomTrigger

/-- The 32-bit pattern word `P = {seqHi, seqLo}` (R31). -/
def patternWord (r : Record) : Word := r.seqHi ++ r.seqLo

/-- The gate-open time of a gate-kind record (R94). -/
def openTime (cfg : Config) (r : Record) : Nat :=
  if r.gate.val < r.clk.val then cfg.div[r.gate] else cfg.div[r.clk] - 1

/-- The gate-closed time of a gate-kind record (R94). -/
def closeTime (cfg : Config) (r : Record) : Nat :=
  if r.gate.val < r.clk.val then cfg.div[r.clk] - cfg.div[r.gate] else 1

/-- `DIVISOR(bpm) = (F_CLK * 60) div (bpm * 192)` (R76). -/
def tickPeriod (cfg : Config) (bpm : Nat) : Nat := cfg.fClk * 60 / (bpm * 192)

/-- The table a swing amount gives: `SWT[i] = (s == 0) ? 0 : max(1, s >> (5 - i))` (R111). -/
def SwingTableOf (amount : BitVec 8) (swt : Vector (BitVec 8) 6) : Prop :=
  ∀ i : Fin 6, swt[i].toNat = if amount.toNat = 0 then 0 else max 1 (amount.toNat / 2 ^ (5 - i.val))

/-- The transport runs under `TICK_SOURCE = HOST`, channel `c` has the pending event `k` at this tick, and no commit of `c`
falls into it: the next STEP_TICK handles the event, and nothing else touches the channel (R81, R89, R125). -/
def DueAt (s : State) (c : Chan) (k : EventKind) : Prop :=
  s.cfg.tickSource = .host ∧ s.running = true ∧ (s.tickCounter.toNat % 768 ≠ 0 ∨ s.stg[c].ready = false) ∧
    s.ch[c].nextKind = k ∧ s.ch[c].nextTime = s.tickCounter

/-- The eligibility of a legal gate-kind record whose index is `i`, and the index after it, by kind (R96). A live
RandomTrigger channel compares some draw below 100; which value of the entropy input it takes, `GateCloseEvent`,
`CommitWhileStoppedAppliesAtOnce`, `StopDrawsForLiveRandomTriggersOnly` and `ChannelsAreHandledInAscendingOrder` say. -/
def EligibleFrom (r : Record) (i : Nat) (open' : Bool) (idx : BitVec 5) : Prop :=
  (r.kind = .clock → open' = true ∧ idx.toNat = i) ∧
    (r.kind = .euclidean →
      open' = (patternWord r).getLsbD i ∧ idx.toNat = if i = 0 then r.len.toNat - 1 else i - 1) ∧
    (r.kind = .randomTrigger → r.len.toNat ≠ 0 →
      open' = (patternWord r).getLsbD i ∧ idx.toNat = (i + 1) % r.len.toNat) ∧
    (r.kind = .randomTrigger → r.len.toNat = 0 →
      (∃ draw < 100, open' = decide (draw < r.prob.toNat)) ∧ idx.toNat = i)

/-- The events of channel `c` in the trace, in their order. -/
def eventsAt (s : State) (c : Chan) : List OutEvent := s.out.filter fun ev => ev.chan = c

/-- The levels of channel `c`. -/
def levels (s : State) (c : Chan) : Bool × BitVec 8 := (s.ch[c].gateLevel, s.ch[c].pwmLevel)

/-- The event of one write of channel `c`'s levels: none unless the pair changes (R39). -/
def change (c : Chan) (old new : Bool × BitVec 8) : List OutEvent :=
  if old = new then [] else [{ chan := c, gate := new.1, pwm := new.2 }]

/-- The trace of channel `c` grows by one event with the new levels exactly if the levels changed (R39). -/
def EmitsOnChange (s t : State) (c : Chan) : Prop :=
  eventsAt t c = eventsAt s c ++ change c (levels s c) (levels t c)

/-- The channels of a trace in strictly ascending order, so at most one event each. -/
abbrev AscendingStrict (l : List OutEvent) : Prop := (l.map (·.chan)).Pairwise (· < ·)

/-- The channels of a trace in ascending order: all events of a channel before those of the next. -/
abbrev Ascending (l : List OutEvent) : Prop := (l.map (·.chan)).Pairwise (· ≤ ·)

/-- The channels that meet `p`, in ascending order. -/
def ascending (p : Chan → Prop) [DecidablePred p] : List Chan := (List.finRange 8).filter fun c => p c

/-- One draw for each channel of `l`, in the order of `l`: the stream is shorter by as many values, and as many more draws were
made (R143). -/
def DrawsOnce (s t : State) (l : List Chan) : Prop :=
  t.entropy.stream = s.entropy.stream.drop l.length ∧ t.entropy.count = s.entropy.count + l.length

/-- The value of the entropy input that channel `c` takes where the channels of `l` draw one each, in the order of `l`. -/
def Takes (s : State) (l : List Chan) (c : Chan) (v : Word) : Prop :=
  ∃ k : Nat, l[k]? = some c ∧ s.entropy.stream[k]? = some v

/-- The dispatch pass handles an event of `c` that draws: the GateClose of a live RandomTrigger channel (R96, R98) or the
PwmTick of a Voltage channel without a sequence (R99, R109). -/
abbrev DispatchDraws (s : State) (c : Chan) : Prop :=
  s.ch[c].nextTime = s.tickCounter ∧ s.ch[c].conf.len = 0 ∧
    (s.ch[c].nextKind = .gateClose ∧ s.ch[c].conf.kind = .randomTrigger ∨
      s.ch[c].nextKind = .pwmTick ∧ s.ch[c].conf.kind = .voltage)

/-- The bar gate's commit of `c` draws: for the eligibility of a live RandomTrigger record, or for the level of a Voltage
record without a sequence whose first event is handled at once (R100, R125). -/
abbrev CommitDraws (s : State) (c : Chan) : Prop :=
  s.stg[c].ready = true ∧ s.stg[c].conf.len = 0 ∧
    (s.stg[c].conf.kind = .randomTrigger ∨ s.stg[c].conf.kind = .voltage ∧ s.stg[c].conf.delay.val = 0)

/-- The state with no staged record ready. -/
def noneReady (s : State) : State := { s with stg := s.stg.map fun x => { x with ready := false } }

/-- The channel's timeline starts afresh at `now`, its first event a start delay later: 0 ticks for index 0, else `DIV[delay - 1]`
(R100, R10). For a legal configuration. -/
def FreshTimeline (cfg : Config) (now : Nat) (x : Channel) : Prop :=
  x.gateLevel = false ∧ x.pwmLevel = 0 ∧ x.swingPhase = false ∧ x.elapsed = 0 ∧
    x.nextTime.toNat =
      (now + if h : x.conf.delay.val = 0 then 0 else cfg.div[x.conf.delay.val - 1]) % 49152 ∧
    (GateKind x.conf.kind →
      x.nextKind = .gateOpen ∧
        EligibleFrom x.conf (if x.conf.kind = .euclidean then x.conf.len.toNat - 1 else 0) x.openEligible x.seqIdx) ∧
    (¬ GateKind x.conf.kind → x.nextKind = .pwmTick ∧ x.openEligible = false ∧ x.seqIdx = 0)

/-- The index a `clk` or `gate` operand stands for: a note value for its `DIV` index (R73). -/
def lengthIndex : LenOperand → Nat
  | .index n => n
  | .note i => i.val

/-- The index a `delay` operand stands for: a note value for its `DIV` index plus one (R10, R73). -/
def delayIndex : DelayOperand → Nat
  | .index n => n
  | .note i => i.val + 1

/-- The word of a STAGE_TIMING line, none where an operand is too wide for its field (R65, R73). -/
def timingLine (ch kind clk gate delay : Nat) : Option (List Word) :=
  if ch < 8 ∧ kind < 8 ∧ clk < 16 ∧ gate < 16 ∧ delay < 16 then
    some [BitVec.ofNat 32 (0x50000000 + ch * 2 ^ 24 + kind * 2 ^ 16 + clk * 2 ^ 12 + gate * 2 ^ 8 + delay * 2 ^ 4)]
  else none

/-- The word of a STAGE_PATTERN line, none where an operand is too wide for its field (R66, R73). -/
def patternLine (ch len steps prob : Nat) : Option (List Word) :=
  if ch < 8 ∧ len < 64 ∧ steps < 64 ∧ prob < 128 then
    some [BitVec.ofNat 32 (0x60000000 + ch * 2 ^ 24 + len * 2 ^ 16 + steps * 2 ^ 8 + prob)]
  else none

/-- One line's words after another's; none where either is refused. -/
def bothLines (a b : Option (List Word)) : Option (List Word) := a.bind fun x => b.map fun y => x ++ y

/-- `n` STEP_TICK words on the command port (R74, `TICKS n`). -/
def ticks (n : Nat) : List Input := List.replicate n (.command (encode .stepTick))

/-- The state under another clock frequency. -/
def withClock (hz : Nat) (s : State) : State := { s with cfg := { s.cfg with fClk := hz } }

end Sys2Proof.Claims

open Sys2Proof Sys2Proof.Machine Sys2Proof.Claims

/-! ### Encoding -/

/-- Every command is what its own word decodes to, whatever its operands (R62 to R69, R73). -/
def Obligations.DecodeEncodeRoundTrip : Prop := ∀ i : Instr, decode (encode i) = i

/-- "Reserved bits (every "res" of section 2) are ignored": changing any of them changes neither the command nor what it
does, and an assembler writes them as 0 (R70). -/
def Obligations.ReservedBitsAreIgnored : Prop :=
  (∀ (w x : Word), decode (w ^^^ (x &&& reservedMask (w.extractLsb' 28 4))) = decode w ∧
      ∀ s : State, exec (decode (w ^^^ (x &&& reservedMask (w.extractLsb' 28 4)))) s = exec (decode w) s) ∧
    ∀ i : Instr, encode i &&& reservedMask (opcodeOf i) = 0

/-- The opcode map: the match for opcode `k` is `cmd[31:28] == k` (R62). -/
def Obligations.OpcodeFieldSelectsTheCommand : Prop :=
  ∀ w : Word, opcodeOf (decode w) = w.extractLsb' 28 4 ∧
    w &&& 0xF0000000 = (opcodeOf (decode w)).setWidth 32 <<< 28

/-- Every operand is the unsigned number in its own bits of the word (R64 to R69). -/
def Obligations.OperandsAreTheirBits : Prop :=
  ∀ w : Word,
    (∀ val, decode w = .setTempo val ∨ decode w = .setSwing val → val.toNat = w.toNat % 256) ∧
    (∀ ch kind clk gate delay, decode w = .stageTiming ch kind clk gate delay →
      ch.val = w.toNat / 2 ^ 24 % 8 ∧ kind.toNat = w.toNat / 2 ^ 16 % 8 ∧ clk.toNat = w.toNat / 2 ^ 12 % 16 ∧
        gate.toNat = w.toNat / 2 ^ 8 % 16 ∧ delay.toNat = w.toNat / 2 ^ 4 % 16) ∧
    (∀ ch len steps prob, decode w = .stagePattern ch len steps prob →
      ch.val = w.toNat / 2 ^ 24 % 8 ∧ len.toNat = w.toNat / 2 ^ 16 % 64 ∧ steps.toNat = w.toNat / 2 ^ 8 % 64 ∧
        prob.toNat = w.toNat % 128) ∧
    (∀ ch, decode w = .commit ch → ch.val = w.toNat / 2 ^ 24 % 8) ∧
    (∀ ch sel, decode w = .read ch sel → ch.val = w.toNat / 2 ^ 24 % 8 ∧ sel.toNat = w.toNat % 16)

/-- The worked encodings of R75. -/
def Obligations.WorkedEncodings : Prop :=
  assemble (.setTempo 120) = some [0x10000078] ∧
    assemble (.setSwing 32) = some [0x20000020] ∧
    assemble (.stageTiming 1 2 (.note 4) (.note 3) (.index 0)) = some [0x51024300] ∧
    assemble (.stagePattern 1 8 3 0) = some [0x61080300] ∧
    assemble (.commit 1) = some [0x71000000] ∧
    assemble (.read 1 7) = some [0x81000007] ∧
    assemble (.stageTiming 4 4 (.note 6) (.note 5) (.index 0)) = some [0x54046500]

/-- Decoding is right on words written out from the formats (R75; 95_test_vectors.md L2.15). -/
def Obligations.WorkedWordsDecode : Prop :=
  decode 0x1FFFFF78 = .setTempo 120 ∧
    decode 0x51024300 = .stageTiming 1 2 4 3 0 ∧
    decode 0x5907FFFF = .stageTiming 1 7 15 15 15 ∧
    decode 0x67FFFFFF = .stagePattern 7 63 63 127 ∧
    decode 0x71000000 = .commit 1 ∧
    decode 0x81000007 = .read 1 7 ∧
    decode 0xA0000000 = .stepTick ∧
    decode 0xB0000000 = .reservedB

/-- The words of every assembler line: those of the tables of R73 and R74 where each operand fits its field, none where one is
too wide for it; and every line's words decode to the commands of its expansion (R73, R74). -/
def Obligations.AssembledLinesDecode : Prop :=
  assemble .nop = some [0x00000000] ∧
    (∀ bpm, assemble (.setTempo bpm) = if bpm < 256 then some [BitVec.ofNat 32 (0x10000000 + bpm)] else none) ∧
    (∀ amount, assemble (.setSwing amount) =
      if amount < 256 then some [BitVec.ofNat 32 (0x20000000 + amount)] else none) ∧
    assemble .start = some [0x30000000] ∧ assemble .stop = some [0x40000000] ∧
    (∀ ch kind clk gate delay, assemble (.stageTiming ch kind clk gate delay) =
      timingLine ch kind (lengthIndex clk) (lengthIndex gate) (delayIndex delay)) ∧
    (∀ ch len steps prob, assemble (.stagePattern ch len steps prob) = patternLine ch len steps prob) ∧
    (∀ ch, assemble (.commit ch) = if ch < 8 then some [BitVec.ofNat 32 (0x70000000 + ch * 2 ^ 24)] else none) ∧
    (∀ ch sel, assemble (.read ch sel) =
      if ch < 8 ∧ sel < 16 then some [BitVec.ofNat 32 (0x80000000 + ch * 2 ^ 24 + sel)] else none) ∧
    assemble .clearErr = some [0x90000000] ∧ assemble .stepTick = some [0xA0000000] ∧
    (∀ ch kind clk gate delay len steps prob, assemble (.stage ch kind clk gate delay len steps prob) =
      bothLines (timingLine ch kind (lengthIndex clk) (lengthIndex gate) (delayIndex delay))
        (patternLine ch len steps prob)) ∧
    (∀ ch kind clk gate delay len steps prob, assemble (.config ch kind clk gate delay len steps prob) =
      bothLines
        (bothLines (timingLine ch kind (lengthIndex clk) (lengthIndex gate) (delayIndex delay))
          (patternLine ch len steps prob))
        (some [BitVec.ofNat 32 (0x70000000 + ch * 2 ^ 24)])) ∧
    (∀ n, assemble (.ticks n) = some (List.replicate n 0xA0000000)) ∧
    assemble .readStatus = some [0x80000000] ∧ assemble .readTick = some [0x80000003] ∧
    ∀ (c : AsmCmd) (ws : List Word), assemble c = some ws → ws.map decode = c.expand

/-! ### The step -/

/-- A word on the command port is decoded and its command performed, in one step, on the state without it and with an
empty trace (R46, R53). -/
def Obligations.StepRunsTheDecodedCommand : Prop :=
  ∀ (s : State) (w : Word) (rest : List Input), s.inputs = .command w :: rest →
    step s = exec (decode w) { s with inputs := rest, out := [] }

/-- "a model's step function is total and has no exceptional outcome" (R133): every command and every step answers a next
state in every state. -/
def Obligations.EveryStepCompletes : Prop :=
  (∀ (i : Instr) (s : State), ∃ t, exec i s = .next t) ∧ ∀ s : State, ∃ t, step s = .next t

/-! ### Transport and tempo -/

/-- NOP leaves every register unchanged, and the all-zero word is NOP (R130). -/
def Obligations.NopChangesNothing : Prop :=
  (∀ s : State, exec .nop s = .next s) ∧ decode 0 = .nop

/-- SET_TEMPO clamps the tempo into `30..200`, writes `tempoActive` only while stopped, and nothing else (R85). -/
def Obligations.SetTempoClamps : Prop :=
  ∀ (s : State) (val : BitVec 8), ∃ t, exec (.setTempo val) s = .next t ∧
    t.tempoReq.toNat = min (max val.toNat 30) 200 ∧
    (s.running = true → t.tempoActive = s.tempoActive) ∧ (s.running = false → t.tempoActive = t.tempoReq) ∧
    { t with tempoReq := s.tempoReq, tempoActive := s.tempoActive } = s

/-- START sets `running`, clears `divCount`, loads `tempoActive`, and touches no channel; while running it changes
nothing (R86). -/
def Obligations.StartStartsTheTransport : Prop :=
  ∀ s : State,
    (s.running = true → exec .start s = .next s) ∧
    (s.running = false → ∃ t, exec .start s = .next t ∧ t.running = true ∧ t.divCount = 0 ∧
      t.tempoActive = s.tempoReq ∧
      { t with running := s.running, divCount := s.divCount, tempoActive := s.tempoActive } = s)

/-- STOP stops the transport, clears the tick counter, applies a ready swing amount and every ready record, leaves the staged
configurations, resets every timeline at tick 0, emits one event for a channel exactly if its levels changed, and touches
nothing else (R87, R39). Legal records only: the eligibility of R96
has no case outside them. -/
def Obligations.StopResetsEveryTimeline : Prop :=
  ∀ s : State, s.Inv → ∃ t, exec .stop s = .next t ∧
    t.running = false ∧ t.tickCounter = 0 ∧ t.divCount = 0 ∧ t.swingReady = false ∧
    t.swingLive = (if s.swingReady then s.swingStaged else s.swingLive) ∧
    (s.swingReady = true → SwingTableOf s.swingStaged t.swt) ∧ (s.swingReady = false → t.swt = s.swt) ∧
    (∀ c : Chan, t.stg[c] = { s.stg[c] with ready := false } ∧
      t.ch[c].conf = (if s.stg[c].ready then s.stg[c].conf else s.ch[c].conf) ∧
      FreshTimeline s.cfg 0 t.ch[c] ∧ EmitsOnChange s t c) ∧
    { t with running := s.running, tickCounter := s.tickCounter, divCount := s.divCount, swingReady := s.swingReady,
             swingLive := s.swingLive, swt := s.swt, ch := s.ch, stg := s.stg, out := s.out, entropy := s.entropy } = s

/-- STOP redraws nothing but the live eligibility of RandomTrigger channels with `len = 0`, one draw each, the channels in
ascending order: a channel is eligible exactly if its value modulo 100 is below `prob` (R156, R87, R96, R143). -/
def Obligations.StopDrawsForLiveRandomTriggersOnly : Prop :=
  ∀ s t : State, exec .stop s = .next t → ∀ l : List Chan,
    l = ascending (fun c => t.ch[c].conf.kind = .randomTrigger ∧ t.ch[c].conf.len = 0) →
    DrawsOnce s t l ∧
      ∀ (c : Chan) (v : Word), Takes s l c v → t.ch[c].openEligible = decide (v.toNat % 100 < t.ch[c].conf.prob.toNat)

/-- STEP_TICK under `TICK_SOURCE = DIVIDER` sets `CMD_ERR` and nothing else; under `HOST` it performs one tick step, which changes
nothing while the transport is stopped (R88). -/
def Obligations.StepTickNeedsHostAndTransport : Prop :=
  ∀ s : State,
    (s.cfg.tickSource = .divider → ∃ t, exec .stepTick s = .next t ∧ t.statusErr.getLsbD 0 = true ∧
      t.statusErr.getLsbD 1 = s.statusErr.getLsbD 1 ∧
      { t with statusErr := s.statusErr } = s) ∧
    (s.cfg.tickSource = .host → exec .stepTick s = .next (tickStep s) ∧ (s.running = false → tickStep s = s))

/-! ### The tick step and the event rules -/

/-- One tick away from a bar boundary: `TickCounter` moves on by one modulo `LIMIT`; a channel without an event at this tick
is untouched; a channel's trace grows by one event exactly if its levels changed; no configuration, no staged record, no swing
register and no other register changes (R81, R89, R39, R42). -/
def Obligations.TickTouchesOnlyDueChannels : Prop :=
  ∀ s : State, s.cfg.tickSource = .host → s.running = true → s.tickCounter.toNat % 768 ≠ 0 →
    ∃ t, exec .stepTick s = .next t ∧ t.tickCounter.toNat = (s.tickCounter.toNat + 1) % 49152 ∧
      (∀ c : Chan, s.ch[c].nextTime ≠ s.tickCounter ∨ s.ch[c].nextKind = .none → t.ch[c] = s.ch[c]) ∧
      (∀ c : Chan, t.ch[c].conf = s.ch[c].conf ∧ EmitsOnChange s t c) ∧
      { t with tickCounter := s.tickCounter, ch := s.ch, out := s.out, entropy := s.entropy } = s

/-- A GateOpen raises the gate exactly if the channel was found eligible, clears `pwmLevel`, emits an output event exactly if a
level changed and schedules the GateClose an open time later (R97, R94, R39). -/
def Obligations.GateOpenEvent : Prop :=
  ∀ (s : State) (c : Chan), DueAt s c .gateOpen →
    ∃ t, exec .stepTick s = .next t ∧ t.ch[c].gateLevel = s.ch[c].openEligible ∧ t.ch[c].pwmLevel = 0 ∧
      t.ch[c].nextKind = .gateClose ∧
      t.ch[c].nextTime.toNat = (s.tickCounter.toNat + openTime s.cfg s.ch[c].conf) % 49152 ∧
      EmitsOnChange s t c ∧
      { t.ch[c] with gateLevel := s.ch[c].gateLevel, pwmLevel := s.ch[c].pwmLevel, nextKind := s.ch[c].nextKind,
                     nextTime := s.ch[c].nextTime } = s.ch[c]

/-- A GateClose of a legal gate-kind channel closes the gate, emits an output event exactly if a level changed, schedules the
GateOpen a close time later (swung where the clock length is swingable: late and then early, the phase inverted each time) and
decides its eligibility. Where no other channel is due, a live RandomTrigger channel is eligible exactly if the next value of the
entropy input modulo 100 is below `prob`, and takes that value; any other channel draws nothing (R98, R113, R96, R143). -/
def Obligations.GateCloseEvent : Prop :=
  ∀ (s : State) (c : Chan), s.Inv → DueAt s c .gateClose →
    ∃ t base : _, exec .stepTick s = .next t ∧
      base = (s.tickCounter.toNat + closeTime s.cfg s.ch[c].conf) % 49152 ∧
      t.ch[c].gateLevel = false ∧ t.ch[c].pwmLevel = 0 ∧ t.ch[c].nextKind = .gateOpen ∧
      (6 ≤ s.ch[c].conf.clk.val → t.ch[c].nextTime.toNat = base ∧ t.ch[c].swingPhase = s.ch[c].swingPhase) ∧
      (∀ h : s.ch[c].conf.clk.val < 6, t.ch[c].swingPhase = !s.ch[c].swingPhase ∧
        (s.ch[c].swingPhase = false →
          t.ch[c].nextTime.toNat = (base + s.swt[s.ch[c].conf.clk.val].toNat) % 49152) ∧
        (s.ch[c].swingPhase = true →
          t.ch[c].nextTime.toNat = (base + 49152 - s.swt[s.ch[c].conf.clk.val].toNat) % 49152)) ∧
      EligibleFrom s.ch[c].conf s.ch[c].seqIdx.toNat t.ch[c].openEligible t.ch[c].seqIdx ∧
      ((∀ d : Chan, d ≠ c → s.ch[d].nextTime ≠ s.tickCounter ∧
          (s.tickCounter.toNat % 768 = 0 → s.stg[d].ready = false)) →
        (s.ch[c].conf.kind = .randomTrigger → s.ch[c].conf.len = 0 → ∀ v rest, s.entropy.stream = v :: rest →
          t.ch[c].openEligible = decide (v.toNat % 100 < s.ch[c].conf.prob.toNat) ∧ t.entropy.stream = rest ∧
          t.entropy.count = s.entropy.count + 1) ∧
        (s.ch[c].conf.kind ≠ .randomTrigger ∨ s.ch[c].conf.len ≠ 0 → t.entropy = s.entropy)) ∧
      EmitsOnChange s t c ∧ t.ch[c].conf = s.ch[c].conf ∧ t.ch[c].elapsed = s.ch[c].elapsed

/-- A PwmTick of a CV-kind channel keeps the gate closed, emits an output event exactly if a level changed, schedules the next
PwmTick 6 ticks later, and moves `elapsed` on by 6, back to 0 where that reaches the clock length; a Voltage channel with a
sequence moves to its next sample there (R99, R105). -/
def Obligations.PwmTickEvent : Prop :=
  ∀ (s : State) (c : Chan), s.Inv → DueAt s c .pwmTick →
    ∃ t, exec .stepTick s = .next t ∧ t.ch[c].gateLevel = false ∧ t.ch[c].nextKind = .pwmTick ∧
      t.ch[c].nextTime.toNat = (s.tickCounter.toNat + 6) % 49152 ∧
      (s.ch[c].elapsed.toNat + 6 < s.cfg.div[s.ch[c].conf.clk] →
        t.ch[c].elapsed.toNat = s.ch[c].elapsed.toNat + 6 ∧ t.ch[c].seqIdx = s.ch[c].seqIdx) ∧
      (s.cfg.div[s.ch[c].conf.clk] ≤ s.ch[c].elapsed.toNat + 6 →
        t.ch[c].elapsed = 0 ∧
        (s.ch[c].conf.kind = .voltage → s.ch[c].conf.len ≠ 0 →
          t.ch[c].seqIdx.toNat = (s.ch[c].seqIdx.toNat + 1) % s.ch[c].conf.len.toNat) ∧
        (s.ch[c].conf.kind ≠ .voltage ∨ s.ch[c].conf.len = 0 → t.ch[c].seqIdx = s.ch[c].seqIdx)) ∧
      EmitsOnChange s t c ∧ t.ch[c].conf = s.ch[c].conf ∧ t.ch[c].swingPhase = s.ch[c].swingPhase ∧
      t.ch[c].openEligible = s.ch[c].openEligible

/-- The level of a ramp: `(255 * e) div L` before the waveform length, 255 from it on, and 255 minus that for RampDown
(R106, R107). -/
def Obligations.RampLevels : Prop :=
  ∀ (s : State) (c : Chan), DueAt s c .pwmTick → ∃ t, exec .stepTick s = .next t ∧
    ∀ e l level : Nat, e = s.ch[c].elapsed.toNat → l = s.cfg.div[s.ch[c].conf.gate] →
      level = (if l ≤ e then 255 else 255 * e / l) →
        (s.ch[c].conf.kind = .rampUp → t.ch[c].pwmLevel.toNat = level) ∧
        (s.ch[c].conf.kind = .rampDown → t.ch[c].pwmLevel.toNat = 255 - level)

/-- The level of a sine is the exact rounded value of the real cosine, a half rounded up, for both start levels
(R106, R108). -/
def Obligations.SineLevelsAreExact : Prop :=
  ∀ (s : State) (c : Chan), s.cfg.Wf → DueAt s c .pwmTick → s.ch[c].conf.kind = .sine →
    ∃ t, exec .stepTick s = .next t ∧
      ∀ x : ℝ, x = Real.cos (2 * Real.pi * s.ch[c].elapsed.toNat / s.cfg.div[s.ch[c].conf.gate]) →
        (s.cfg.sineStart = .high → (t.ch[c].pwmLevel.toNat : ℤ) = ⌊255 * (1 + x) / 2 + 1 / 2⌋) ∧
        (s.cfg.sineStart = .low → (t.ch[c].pwmLevel.toNat : ℤ) = ⌊255 * (1 - x) / 2 + 1 / 2⌋)

/-- The level of a Voltage channel: the byte of the pattern word its index names, least significant first; with no
sequence a fresh draw in `1..255` (R109, R143). -/
def Obligations.VoltageLevels : Prop :=
  ∀ (s : State) (c : Chan), s.Inv → DueAt s c .pwmTick → s.ch[c].conf.kind = .voltage →
    ∃ t, exec .stepTick s = .next t ∧
      (s.ch[c].conf.len ≠ 0 →
        t.ch[c].pwmLevel.toNat = (patternWord s.ch[c].conf).toNat / 2 ^ (8 * s.ch[c].seqIdx.toNat) % 256) ∧
      (s.ch[c].conf.len = 0 →
        1 ≤ t.ch[c].pwmLevel.toNat ∧
        ((∀ d : Chan, d ≠ c → s.ch[d].nextTime ≠ s.tickCounter ∧
            (s.tickCounter.toNat % 768 = 0 → s.stg[d].ready = false)) → ∀ v rest, s.entropy.stream = v :: rest →
          t.ch[c].pwmLevel.toNat = 1 + v.toNat % 255 ∧ t.entropy.stream = rest))

/-- "at most one pending event per channel": a channel whose event lies `d` ticks ahead (`1..LIMIT` counted round the
wrap) is untouched by the ticks before it, and due at that tick, as long as no commit is pending (R90, R35). -/
def Obligations.PendingEventWaitsForItsTick : Prop :=
  ∀ (s : State) (c : Chan) (n : Nat), s.cfg.tickSource = .host → s.running = true → s.tickCounter.toNat < 49152 →
    s.ch[c].nextTime.toNat < 49152 → (∀ d : Chan, s.stg[d].ready = false) →
    n ≤ (s.ch[c].nextTime.toNat + 49152 - s.tickCounter.toNat) % 49152 →
      ∃ t, Host.Core.run Sys2Proof.core n { s with inputs := ticks n } = .next t ∧
        t.tickCounter.toNat = (s.tickCounter.toNat + n) % 49152 ∧ t.ch[c] = s.ch[c] ∧
        (n = (s.ch[c].nextTime.toNat + 49152 - s.tickCounter.toNat) % 49152 → t.ch[c].nextTime = t.tickCounter)

/-- A GateClose that swings a GateOpen back to or before the current tick by the early offset schedules it almost a whole wrap
ahead: the missed event (R153, R90). -/
def Obligations.EarlySwingCanMissItsTick : Prop :=
  ∀ (s : State) (c : Chan), s.Inv → DueAt s c .gateClose → s.ch[c].swingPhase = true →
    ∀ h : s.ch[c].conf.clk.val < 6, closeTime s.cfg s.ch[c].conf ≤ s.swt[s.ch[c].conf.clk.val].toNat →
      ∃ t, exec .stepTick s = .next t ∧
        (t.ch[c].nextTime.toNat + 49152 - t.tickCounter.toNat) % 49152 + 1 =
          49152 - (s.swt[s.ch[c].conf.clk.val].toNat - closeTime s.cfg s.ch[c].conf)

/-- From reset with any legal parameters, `START` and `LIMIT` ticks bring every register but `running` back to its reset value:
the tick counter returns to 0 and every channel's schedule is identical to its state at tick 0 (the reset configuration's case of
R84). -/
def Obligations.FullCycleFromReset : Prop :=
  ∀ (cfg : Config) (e : Entropy), cfg.Wf → cfg.tickSource = .host →
    ∃ t : State, Host.Core.run Sys2Proof.core (49152 + 1)
        (State.resetWith cfg e (.command (encode .start) :: ticks 49152)) = .next t ∧
      t.running = true ∧ { t with running := false, out := [] } = State.resetWith cfg e []

/-! ### Generators -/

/-- The Euclidean pattern has exactly `k` ones, all of them in the low `n` bits, the bit `n - 1` among them, and
`EUCLID(n, n)` is all ones (R101 (a) to (d)). -/
def Obligations.EuclideanPatternCounts : Prop :=
  ∀ k n : Nat, 1 ≤ k → k ≤ n → n ≤ 32 →
    ((List.range 32).filter fun i => (euclid k n).getLsbD i).length = k ∧
      (∀ i, n ≤ i → (euclid k n).getLsbD i = false) ∧ (euclid k n).getLsbD (n - 1) = true ∧
      (euclid n n).toNat = 2 ^ n - 1

/-- The Euclidean pattern is the set of the positions `n - ceil(i*n/k) - 1` for `i` in `0..k-1` (R101). -/
def Obligations.EuclideanPositions : Prop :=
  ∀ k n i : Nat, 1 ≤ k → k ≤ n → n ≤ 32 →
    ((euclid k n).getLsbD i = true ↔ ∃ j < k, i = n - (j * n + k - 1) / k - 1)

/-- Either staging command draws the pattern of the record it leaves: bit `j` of a random-trigger pattern is set exactly if `j` is
below `len` and the `j`-th draw modulo 100 is below `prob`, one draw a step; a Voltage pattern is one draw; and with `len = 0`
nothing is drawn and the pattern is 0 (R102, R103, R104, R143). STAGE_PATTERN keeps the kind and clamps `len` and `prob`;
STAGE_TIMING clamps the kind to the channel's ceiling and keeps `len` and `prob`; a Voltage record's `len` is at most 4. -/
def Obligations.RandomPatternsFollowTheDraws : Prop :=
  ∀ (s : State) (ch : Chan) (i : Instr), s.stg[ch].ready = false →
    ((∃ kind clk gate delay, i = .stageTiming ch kind clk gate delay) ∨
      ∃ len steps prob, i = .stagePattern ch len steps prob) →
    ∃ t r old : _, exec i s = .next t ∧ r = t.stg[ch].conf ∧ old = s.stg[ch].conf ∧
      (∀ kind clk gate delay, i = .stageTiming ch kind clk gate delay →
        kindNumber r.kind = min (max kind.toNat 1) (kindNumber s.cfg.cap[ch]) ∧ r.prob = old.prob ∧
        (r.kind = .randomTrigger → r.len = old.len) ∧ (r.kind = .voltage → r.len.toNat = min old.len.toNat 4)) ∧
      (∀ len steps prob, i = .stagePattern ch len steps prob →
        r.kind = old.kind ∧ r.prob.toNat = min prob.toNat 100 ∧
        (r.kind = .randomTrigger → r.len.toNat = min len.toNat 32) ∧
        (r.kind = .voltage → r.len.toNat = min len.toNat 4)) ∧
      (r.kind = .randomTrigger →
        (∀ (j : Nat) (v : Word), j < 32 → j < r.len.toNat → s.entropy.stream[j]? = some v →
          (patternWord r).getLsbD j = decide (v.toNat % 100 < r.prob.toNat)) ∧
        (∀ j, r.len.toNat ≤ j → (patternWord r).getLsbD j = false) ∧
        t.entropy.stream = s.entropy.stream.drop r.len.toNat ∧
        t.entropy.count = s.entropy.count + r.len.toNat) ∧
      (r.kind = .voltage → r.len ≠ 0 → ∀ v rest, s.entropy.stream = v :: rest →
        patternWord r = v ∧ t.entropy.stream = rest ∧ t.entropy.count = s.entropy.count + 1) ∧
      (r.kind = .randomTrigger ∨ r.kind = .voltage → r.len = 0 → patternWord r = 0 ∧ t.entropy = s.entropy)

/-! ### Swing -/

/-- SET_SWING clamps the amount; while running it is staged, and while stopped it is live at once with its table, each entry
`0` for amount 0 and else `max(1, s >> (5 - i))` (R115, R111). -/
def Obligations.SetSwingStagesOrApplies : Prop :=
  ∀ (s : State) (val : BitVec 8),
    (s.running = true → ∃ t, exec (.setSwing val) s = .next t ∧ t.swingReady = true ∧
      t.swingStaged.toNat = min val.toNat s.cfg.swingMax.toNat ∧
      { t with swingReady := s.swingReady, swingStaged := s.swingStaged } = s) ∧
    (s.running = false → ∃ t, exec (.setSwing val) s = .next t ∧ t.swingReady = false ∧
      t.swingLive.toNat = min val.toNat s.cfg.swingMax.toNat ∧
      SwingTableOf t.swingLive t.swt ∧
      { t with swingReady := s.swingReady, swingLive := s.swingLive, swt := s.swt } = s)

/-- At a bar-boundary tick a ready swing amount becomes live with its table and the flag is cleared; away from one, or
with none ready, the swing registers stay (R116, R125). -/
def Obligations.SwingCommitsAtTheBar : Prop :=
  ∀ s : State, s.cfg.tickSource = .host → s.running = true → ∃ t, exec .stepTick s = .next t ∧
    t.swingStaged = s.swingStaged ∧
    (s.tickCounter.toNat % 768 = 0 → s.swingReady = true →
      t.swingLive = s.swingStaged ∧ SwingTableOf s.swingStaged t.swt ∧ t.swingReady = false) ∧
    (s.tickCounter.toNat % 768 ≠ 0 ∨ s.swingReady = false →
      t.swingLive = s.swingLive ∧ t.swt = s.swt ∧ t.swingReady = s.swingReady)

/-! ### Staging and commit -/

/-- STAGE_TIMING clamps its operands, makes the record consistent with its kind, generates a Euclidean pattern or clears that of
a Clock, ramp or sine record, and touches nothing else (R119, R117, R121, R104). -/
def Obligations.StageTimingNormalizes : Prop :=
  ∀ (s : State) (ch : Chan) (kind : BitVec 3) (clk gate delay : BitVec 4), s.stg[ch].ready = false →
    ∃ t r old : _, exec (.stageTiming ch kind clk gate delay) s = .next t ∧
      t.stg[ch] = { conf := r, ready := false } ∧ old = s.stg[ch].conf ∧
      kindNumber r.kind = min (max kind.toNat 1) (kindNumber s.cfg.cap[ch]) ∧
      r.clk.val = min clk.toNat 12 ∧ r.delay.val = min delay.toNat 13 ∧
      r.gate.val = (if GateKind r.kind then min (min gate.toNat 12) (min clk.toNat 12) else min gate.toNat 12) ∧
      r.len.toNat = (if r.kind = .euclidean then max old.len.toNat 1
        else if r.kind = .voltage then min old.len.toNat 4 else old.len.toNat) ∧
      r.steps.toNat = (if r.kind = .euclidean then min old.steps.toNat r.len.toNat else old.steps.toNat) ∧
      r.prob = old.prob ∧
      (r.kind = .euclidean → patternWord r = euclid r.steps.toNat r.len.toNat) ∧
      (r.kind = .clock ∨ ¬ GateKind r.kind ∧ r.kind ≠ .voltage → patternWord r = 0) ∧
      (r.kind ≠ .randomTrigger ∧ r.kind ≠ .voltage ∨ r.len = 0 → t.entropy = s.entropy) ∧
      (∀ d : Chan, d ≠ ch → t.stg[d] = s.stg[d]) ∧ { t with stg := s.stg, entropy := s.entropy } = s

/-- STAGE_PATTERN clamps its operands, makes the record consistent with its kind, generates a Euclidean pattern, and touches
nothing else (R120, R121, R104). -/
def Obligations.StagePatternNormalizes : Prop :=
  ∀ (s : State) (ch : Chan) (len steps : BitVec 6) (prob : BitVec 7), s.stg[ch].ready = false →
    ∃ t r old : _, exec (.stagePattern ch len steps prob) s = .next t ∧
      t.stg[ch] = { conf := r, ready := false } ∧ old = s.stg[ch].conf ∧
      r.kind = old.kind ∧ r.clk = old.clk ∧ r.delay = old.delay ∧
      r.gate.val = (if GateKind r.kind then min old.gate.val old.clk.val else old.gate.val) ∧
      r.len.toNat = (if r.kind = .euclidean then max (min len.toNat 32) 1
        else if r.kind = .voltage then min len.toNat 4 else min len.toNat 32) ∧
      r.steps.toNat = (if r.kind = .euclidean then min (min (max steps.toNat 1) 32) r.len.toNat
        else min (max steps.toNat 1) 32) ∧
      r.prob.toNat = min prob.toNat 100 ∧
      (r.kind = .euclidean → patternWord r = euclid r.steps.toNat r.len.toNat) ∧
      (r.kind = .clock ∨ ¬ GateKind r.kind ∧ r.kind ≠ .voltage → patternWord r = 0) ∧
      (r.kind ≠ .randomTrigger ∧ r.kind ≠ .voltage ∨ r.len = 0 → t.entropy = s.entropy) ∧
      (∀ d : Chan, d ≠ ch → t.stg[d] = s.stg[d]) ∧ { t with stg := s.stg, entropy := s.entropy } = s

/-- A staging command for a channel whose ready flag is set writes no staged record, draws nothing and sets `BUSY_ERR`
(R118). -/
def Obligations.StagingWhileReadyIsRefused : Prop :=
  ∀ (s : State) (ch : Chan) (i : Instr), s.stg[ch].ready = true →
    ((∃ kind clk gate delay, i = .stageTiming ch kind clk gate delay) ∨
      ∃ len steps prob, i = .stagePattern ch len steps prob) →
    ∃ t, exec i s = .next t ∧ t.statusErr.getLsbD 1 = true ∧ t.statusErr.getLsbD 0 = s.statusErr.getLsbD 0 ∧
      { t with statusErr := s.statusErr } = s

/-- COMMIT while running sets the channel's ready flag and nothing else; where the flag is set it changes nothing (R122). -/
def Obligations.CommitWhileRunningSetsReady : Prop :=
  ∀ (s : State) (ch : Chan),
    (s.stg[ch].ready = true → exec (.commit ch) s = .next s) ∧
    (s.running = true → ∃ t, exec (.commit ch) s = .next t ∧ t.stg[ch] = { s.stg[ch] with ready := true } ∧
      (∀ d : Chan, d ≠ ch → t.stg[d] = s.stg[d]) ∧ { t with stg := s.stg } = s)

/-- COMMIT while stopped applies the staged record at once: the live configuration is the staged one, the timeline starts at
tick 0, the ready flag stays clear, one output event is emitted exactly if the channel's levels changed, no other channel and no
other register changes. A live RandomTrigger record is eligible exactly if the next value of the entropy input modulo 100 is below
`prob`, and takes that value; any other record draws nothing (R123, R124, R100, R96, R39, R143). -/
def Obligations.CommitWhileStoppedAppliesAtOnce : Prop :=
  ∀ (s : State) (ch : Chan), s.Inv → s.running = false →
    ∃ t, exec (.commit ch) s = .next t ∧ t.ch[ch].conf = s.stg[ch].conf ∧ FreshTimeline s.cfg 0 t.ch[ch] ∧
      (s.stg[ch].conf.kind = .randomTrigger → s.stg[ch].conf.len = 0 → ∀ v rest, s.entropy.stream = v :: rest →
        t.ch[ch].openEligible = decide (v.toNat % 100 < s.stg[ch].conf.prob.toNat) ∧ t.entropy.stream = rest ∧
        t.entropy.count = s.entropy.count + 1) ∧
      (s.stg[ch].conf.kind ≠ .randomTrigger ∨ s.stg[ch].conf.len ≠ 0 → t.entropy = s.entropy) ∧
      t.out = s.out ++ change ch (levels s ch) (levels t ch) ∧
      (∀ d : Chan, d ≠ ch → t.ch[d] = s.ch[d]) ∧
      { t with ch := s.ch, out := s.out, entropy := s.entropy } = s

/-- The bar-boundary tick applies every ready record: the live configuration is the staged one, the flag is cleared, the staged
configuration stays, the timeline starts at this tick, and a first event due at this very tick is handled in it: a GateOpen, or a
PwmTick that puts out the level at elapsed 0 and moves `elapsed` on. The channel's trace holds, each only if the levels change, the
event of its old configuration, the gate-close of the timeline reset and the event of its new configuration. A channel whose record
is not ready is left as the tick leaves it that finds no record ready. No register but the tick counter, the swing registers, the
records, the trace and the entropy input changes (R125, R126, R92, R100, R105 to R109, R39). -/
def Obligations.BarTickAppliesReadyRecords : Prop :=
  ∀ s : State, s.Inv → s.cfg.tickSource = .host → s.running = true → s.tickCounter.toNat % 768 = 0 →
    ∃ t u : State, exec .stepTick s = .next t ∧ exec .stepTick (noneReady s) = .next u ∧
      t.tickCounter.toNat = (s.tickCounter.toNat + 1) % 49152 ∧
      { t with tickCounter := s.tickCounter, swingLive := s.swingLive, swt := s.swt, swingReady := s.swingReady, ch := s.ch,
               stg := s.stg, out := s.out, entropy := s.entropy } = s ∧
      ∀ c : Chan, t.stg[c] = { s.stg[c] with ready := false } ∧
        (s.stg[c].ready = false → t.ch[c].conf = s.ch[c].conf ∧ t.ch[c] = u.ch[c] ∧ eventsAt t c = eventsAt u c ∧
          (s.ch[c].nextTime ≠ s.tickCounter → t.ch[c] = s.ch[c])) ∧
        (s.stg[c].ready = true → t.ch[c].conf = s.stg[c].conf ∧
          eventsAt t c = eventsAt u c ++ change c (levels u c) (false, 0) ++ change c (false, 0) (levels t c) ∧
          (s.stg[c].conf.delay ≠ 0 → FreshTimeline s.cfg s.tickCounter.toNat t.ch[c]) ∧
          (s.stg[c].conf.delay = 0 → GateKind s.stg[c].conf.kind →
            t.ch[c].nextKind = .gateClose ∧
            t.ch[c].nextTime.toNat = (s.tickCounter.toNat + openTime s.cfg s.stg[c].conf) % 49152 ∧
            t.ch[c].gateLevel = t.ch[c].openEligible ∧ t.ch[c].pwmLevel = 0 ∧ t.ch[c].swingPhase = false ∧
            t.ch[c].elapsed = 0 ∧
            EligibleFrom s.stg[c].conf
              (if s.stg[c].conf.kind = .euclidean then s.stg[c].conf.len.toNat - 1 else 0)
              t.ch[c].openEligible t.ch[c].seqIdx) ∧
          (s.stg[c].conf.delay = 0 → ¬ GateKind s.stg[c].conf.kind →
            t.ch[c].nextKind = .pwmTick ∧ t.ch[c].nextTime.toNat = (s.tickCounter.toNat + 6) % 49152 ∧
            t.ch[c].gateLevel = false ∧ t.ch[c].swingPhase = false ∧ t.ch[c].openEligible = false ∧
            t.ch[c].elapsed.toNat = (if s.cfg.div[s.stg[c].conf.clk] ≤ 6 then 0 else 6) ∧
            t.ch[c].seqIdx.toNat = (if s.stg[c].conf.kind = .voltage ∧ s.stg[c].conf.len ≠ 0 ∧
              s.cfg.div[s.stg[c].conf.clk] ≤ 6 then 1 % s.stg[c].conf.len.toNat else 0) ∧
            (s.stg[c].conf.kind = .rampUp → t.ch[c].pwmLevel.toNat = 0) ∧
            (s.stg[c].conf.kind = .rampDown → t.ch[c].pwmLevel.toNat = 255) ∧
            (s.stg[c].conf.kind = .sine → t.ch[c].pwmLevel.toNat = if s.cfg.sineStart = .high then 255 else 0) ∧
            (s.stg[c].conf.kind = .voltage → s.stg[c].conf.len ≠ 0 →
              t.ch[c].pwmLevel.toNat = (patternWord s.stg[c].conf).toNat % 256) ∧
            (s.stg[c].conf.kind = .voltage → s.stg[c].conf.len = 0 → 1 ≤ t.ch[c].pwmLevel.toNat)))

/-- Until the bar boundary a tick does not read a staged record: two states that differ in the staged records only go to states
that differ in the staged records only, with the same outputs (R126, R127). -/
def Obligations.StagedRecordsAreInvisibleBeforeTheBar : Prop :=
  ∀ (s : State) (stg : Vector Staged 8), s.tickCounter.toNat % 768 ≠ 0 →
    tickStep { s with stg := stg } = { tickStep s with stg := stg }

/-! ### Host access -/

/-- READ of a global selector takes each named field from the state, every other bit 0, and writes `rdata` only
(R128, R129). -/
def Obligations.ReadGlobalSelectors : Prop :=
  ∀ (s : State) (c : Chan) (sel : BitVec 4), sel.toNat ≤ 3 ∨ sel.toNat = 12 ∨ sel.toNat = 13 →
    ∃ v : Word, exec (.read c sel) s = .next { s with rdata := v } ∧
      (sel = 0 → v.getLsbD 0 = s.running ∧ v.getLsbD 1 = s.swingReady ∧ v.getLsbD 2 = s.statusErr.getLsbD 0 ∧
        v.getLsbD 3 = s.statusErr.getLsbD 1 ∧ (∀ d : Chan, v.getLsbD (8 + d.val) = s.stg[d].ready) ∧
        v.extractLsb' 4 4 = 0 ∧ v.extractLsb' 16 16 = 0) ∧
      (sel = 1 → v = 0#16 ++ s.tempoActive ++ s.tempoReq) ∧
      (sel = 2 → v = 0#16 ++ s.swingStaged ++ s.swingLive) ∧
      (sel = 3 → v = 0#16 ++ s.tickCounter) ∧
      (sel = 12 → v = s.swt[3] ++ s.swt[2] ++ s.swt[1] ++ s.swt[0]) ∧
      (sel = 13 → v = 0#16 ++ s.swt[5] ++ s.swt[4])

/-- READ of a channel selector takes each named field of the live or staged record, every other bit 0, and writes `rdata`
only. A kind reads as its code: Clock 1, Euclidean 2, RandomTrigger 3, RampUp 4, RampDown 5, Sine 6, Voltage 7; a pending event as
its: None 0, GateOpen 1, GateClose 2, PwmTick 3 (R128, R129, R31, R29, R33). -/
def Obligations.ReadChannelSelectors : Prop :=
  ∀ (s : State) (c : Chan) (sel : BitVec 4), 4 ≤ sel.toNat → sel.toNat ≤ 11 →
    ∃ v : Word, exec (.read c sel) s = .next { s with rdata := v } ∧
      (∀ r : Record, sel = 4 ∧ r = s.ch[c].conf ∨ sel = 9 ∧ r = s.stg[c].conf →
        (v.extractLsb' 0 3).toNat = kindNumber r.kind ∧ (v.extractLsb' 4 4).toNat = r.clk.val ∧
          (v.extractLsb' 8 4).toNat = r.gate.val ∧ (v.extractLsb' 12 4).toNat = r.delay.val ∧
          v.getLsbD 3 = false ∧ v.extractLsb' 16 15 = 0) ∧
      (sel = 4 → v.getLsbD 31 = false) ∧ (sel = 9 → v.getLsbD 31 = s.stg[c].ready) ∧
      (∀ r : Record, sel = 5 ∧ r = s.ch[c].conf ∨ sel = 10 ∧ r = s.stg[c].conf →
        v = 0#9 ++ r.prob ++ 0#2 ++ r.len ++ 0#2 ++ r.steps) ∧
      (sel = 6 → v = 0#2 ++ s.ch[c].elapsed ++ s.ch[c].seqIdx ++ BitVec.ofBool s.ch[c].openEligible ++
        BitVec.ofBool s.ch[c].swingPhase ++ BitVec.ofBool s.ch[c].gateLevel ++ s.ch[c].pwmLevel) ∧
      (∀ r : Record, sel = 7 ∧ r = s.ch[c].conf ∨ sel = 11 ∧ r = s.stg[c].conf → v = r.seqHi ++ r.seqLo) ∧
      (sel = 8 → v = 0#14 ++ BitVec.ofNat 2 (eventNumber s.ch[c].nextKind) ++ s.ch[c].nextTime)

/-- READ of the reserved selectors 14 and 15 clears `rdata` and sets `CMD_ERR`, and nothing else (R128). -/
def Obligations.ReadReservedSelectorIsRefused : Prop :=
  ∀ (s : State) (c : Chan) (sel : BitVec 4), 14 ≤ sel.toNat →
    ∃ t, exec (.read c sel) s = .next t ∧ t.rdata = 0 ∧ t.statusErr.getLsbD 0 = true ∧
      t.statusErr.getLsbD 1 = s.statusErr.getLsbD 1 ∧
      { t with rdata := s.rdata, statusErr := s.statusErr } = s

/-- CLEAR_ERR clears both error bits, no ready flag, and nothing else (R131). -/
def Obligations.ClearErrClearsBothBits : Prop :=
  ∀ s : State, ∃ t, exec .clearErr s = .next t ∧ t.statusErr.getLsbD 0 = false ∧ t.statusErr.getLsbD 1 = false ∧
    { t with statusErr := s.statusErr } = s

/-- A command with a reserved opcode sets `CMD_ERR` and changes nothing else (R132, R71). -/
def Obligations.ReservedOpcodesSetCmdErrOnly : Prop :=
  ∀ (s : State) (i : Instr), 0xB ≤ (opcodeOf i).toNat →
    ∃ t, exec i s = .next t ∧ t.statusErr.getLsbD 0 = true ∧
      t.statusErr.getLsbD 1 = s.statusErr.getLsbD 1 ∧ { t with statusErr := s.statusErr } = s

/-! ### The clock divider -/

/-- A clock cycle of the divider: where its counter is 0 it loads the requested tempo and that tempo's period and performs one tick
step; else it counts down; under `HOST`, or while stopped, it holds (R77, R76). -/
def Obligations.DividerCycles : Prop :=
  ∀ (s : State) (rest : List Input), s.inputs = .clock :: rest →
    ∃ t, step s = .next t ∧
      (s.running = false ∨ s.cfg.tickSource = .host → t = { s with inputs := rest, out := [] }) ∧
      (s.running = true → s.cfg.tickSource = .divider → s.divCount ≠ 0 →
        t = { s with inputs := rest, out := [], divCount := s.divCount - 1 }) ∧
      (s.running = true → s.cfg.tickSource = .divider → s.divCount = 0 →
        t = tickStep { s with inputs := rest, out := [], tempoActive := s.tempoReq,
                              divCount := tickPeriod s.cfg s.tempoReq.toNat - 1 } ∧
        t.tempoActive = s.tempoReq ∧ t.divCount = tickPeriod s.cfg s.tempoReq.toNat - 1 ∧
        t.tickCounter.toNat = (s.tickCounter.toNat + 1) % 49152)

/-- A tick of the divider is the tick step that STEP_TICK performs under `HOST`, from the state with the tempo and the period
loaded (R77, R78). -/
def Obligations.DividerTicksAreStepTicks : Prop :=
  ∀ (s : State) (rest : List Input), s.inputs = .clock :: rest → s.running = true → s.cfg.tickSource = .divider →
    s.divCount = 0 →
    ∃ t, step s = .next t ∧
      exec .stepTick
          { s with cfg := { s.cfg with tickSource := .host }, inputs := rest, out := [], tempoActive := s.tempoReq,
                   divCount := tickPeriod s.cfg s.tempoReq.toNat - 1 } =
        .next { t with cfg := { s.cfg with tickSource := .host } }

/-- "consecutive ticks are exactly `DIVISOR(tempoActive)` cycles apart": with no command in between, the divider counts its
period down without touching anything else and ticks at its end (R77, R79). -/
def Obligations.TicksAreOneDivisorApart : Prop :=
  ∀ s : State, s.Inv → s.cfg.tickSource = .divider → s.running = true → s.divCount = 0 → s.inputs = [] →
    ∃ t u v : _, step s = .next t ∧ t.tickCounter.toNat = (s.tickCounter.toNat + 1) % 49152 ∧
      Host.Core.run Sys2Proof.core (tickPeriod s.cfg t.tempoActive.toNat - 1) { t with out := [] } = .next u ∧
      u = { t with out := [], divCount := 0 } ∧
      step u = .next v ∧ v.tickCounter.toNat = (s.tickCounter.toNat + 2) % 49152

/-! ### Reset -/

/-- The registers after reset, at the values of the table of R43. -/
def Obligations.ResetValues : Prop :=
  ∀ (cfg : Config) (e : Entropy) (inputs : List Input) (s : State), s = State.resetWith cfg e inputs →
    s.tickCounter = 0 ∧ s.running = false ∧ s.tempoReq.toNat = 120 ∧ s.tempoActive.toNat = 120 ∧ s.divCount = 0 ∧
    s.swingLive = 0 ∧ s.swingStaged = 0 ∧ s.swingReady = false ∧ (∀ i : Fin 6, s.swt[i] = 0) ∧
    s.statusErr = 0 ∧ s.rdata = 0 ∧ s.out = [] ∧
    ∀ c : Chan,
      (∀ r : Record, r = s.ch[c].conf ∨ r = s.stg[c].conf →
        kindNumber r.kind = 1 ∧ r.clk.val = 6 ∧ r.gate.val = 5 ∧ r.delay.val = 0 ∧ r.steps.toNat = 4 ∧
          r.len.toNat = 16 ∧ r.prob.toNat = 50 ∧ r.seqLo = 0 ∧ r.seqHi = 0) ∧
      s.stg[c].ready = false ∧ s.ch[c].seqIdx = 0 ∧ s.ch[c].gateLevel = false ∧ s.ch[c].pwmLevel = 0 ∧
      s.ch[c].nextTime = 0 ∧ s.ch[c].nextKind = .gateOpen ∧ s.ch[c].swingPhase = false ∧
      s.ch[c].openEligible = true ∧ s.ch[c].elapsed = 0 ∧ s.gateO c = false ∧ s.pwmO c = 0

/-- The reset input puts every register at its reset value in one step, from any state, with no output event (R147). That the
parameters, the entropy stream and the coming inputs outlive it is the model's choice (log 11). -/
def Obligations.ResetInputRestoresEveryRegister : Prop :=
  ∀ (s : State) (rest : List Input), s.inputs = .reset :: rest →
    step s = .next (State.resetWith s.cfg s.entropy rest) ∧
    ∀ c : Chan, (timelineReset 0 c (State.resetWith s.cfg s.entropy rest)).ch[c] =
      (State.resetWith s.cfg s.entropy rest).ch[c]

/-! ### Invariants -/

/-- Every step keeps the invariants: the legal values of every record and the relations between the registers
(R22 to R26, R30 to R32, R35, R36, R38, R111). -/
def Obligations.StepKeepsTheInvariants : Prop := ∀ s t : State, s.Inv → step s = .next t → t.Inv

/-- The reset state meets the invariants, under every legal parameter set. The model's choices it rests on: `State.reset` holds the
`F_CLK` and `TICK_SOURCE` of log 1, and a legal parameter set has no duration above 16384 ticks (log 9). -/
def Obligations.ResetMeetsTheInvariants : Prop :=
  State.reset.Inv ∧ ∀ (cfg : Config) (e : Entropy) (inputs : List Input), cfg.Wf → (State.resetWith cfg e inputs).Inv

/-- In a state that meets the invariants the divider's counter fits its `DIVW` bits, the least number that holds the longest
period less one, and the gate's open and closed times are at least 2 and 1 tick and add up to the clock (R25, R94). -/
def Obligations.InvariantStatesHaveLegalDurations : Prop :=
  ∀ s : State, s.Inv → s.divCount < 2 ^ divWidth s.cfg ∧
    (∀ w, tickPeriod s.cfg 30 - 1 < 2 ^ w → divWidth s.cfg ≤ w) ∧
    ∀ c : Chan, GateKind s.ch[c].conf.kind →
      openTime s.cfg s.ch[c].conf + closeTime s.cfg s.ch[c].conf = s.cfg.div[s.ch[c].conf.clk] ∧
        2 ≤ openTime s.cfg s.ch[c].conf ∧ 1 ≤ closeTime s.cfg s.ch[c].conf

/-! ### Rules of the whole machine -/

/-- Only the tick step and STOP write `TickCounter`, and no command but START and STOP writes `running` (R22, R23). -/
def Obligations.OnlyTicksAndStopWriteTheTickCounter : Prop :=
  ∀ (i : Instr) (s t : State), exec i s = .next t →
    (i ≠ .stop → i ≠ .stepTick → t.tickCounter = s.tickCounter) ∧ (i ≠ .stop → i ≠ .start → t.running = s.running)

/-- `rdata` "holds the result of the last READ command. No other command writes it", and no clock cycle does (R28). -/
def Obligations.OnlyReadWritesRdata : Prop :=
  (∀ (i : Instr) (s t : State), (∀ c sel, i ≠ .read c sel) → exec i s = .next t → t.rdata = s.rdata) ∧
    ∀ s t : State, s.inputs.head? ≠ some .reset → (∀ w, s.inputs.head? ≠ some (.command w)) → step s = .next t →
      t.rdata = s.rdata

/-- The error bits are sticky: only CLEAR_ERR clears one. They are set exactly by the four conditions of R134: a reserved
opcode, a reserved READ selector and a STEP_TICK under `DIVIDER` set `CMD_ERR`, a staging command for a ready record sets
`BUSY_ERR`; so no command sets both (R27, R134, R136). -/
def Obligations.ErrorBitsAreStickyAndExact : Prop :=
  ∀ (i : Instr) (s t : State), i ≠ .clearErr → exec i s = .next t →
    (t.statusErr.getLsbD 0 = true ↔ s.statusErr.getLsbD 0 = true ∨ 0xB ≤ (opcodeOf i).toNat ∨
      (∃ c sel, i = .read c sel ∧ 14 ≤ sel.toNat) ∨ (i = .stepTick ∧ s.cfg.tickSource = .divider)) ∧
    (t.statusErr.getLsbD 1 = true ↔ s.statusErr.getLsbD 1 = true ∨ ∃ c : Chan, s.stg[c].ready = true ∧
      ((∃ kind clk gate delay, i = .stageTiming c kind clk gate delay) ∨
        ∃ len steps prob, i = .stagePattern c len steps prob))

/-- While `stg[c].ready == 1` no command writes the configuration fields of `stg[c]`; while the transport keeps running no
command but STEP_TICK clears a ready flag, and no tick sets one (R38 (a), R56). -/
def Obligations.ReadyRecordsAreLocked : Prop :=
  ∀ (i : Instr) (s t : State) (c : Chan), exec i s = .next t →
    (s.stg[c].ready = true → t.stg[c].conf = s.stg[c].conf) ∧
    (i ≠ .stop → i ≠ .stepTick → s.stg[c].ready = true → t.stg[c].ready = true) ∧
    (i = .stepTick → t.stg[c].ready = true → s.stg[c].ready = true)

/-- While running, no command but STOP and STEP_TICK touches a live channel, the live swing or the output trace: the host
"only writes" staged storage (R42). -/
def Obligations.RunningChannelsBelongToTheTick : Prop :=
  ∀ (i : Instr) (s t : State), s.running = true → i ≠ .stop → i ≠ .stepTick → exec i s = .next t →
    t.ch = s.ch ∧ t.out = s.out ∧ t.swingLive = s.swingLive ∧ t.swt = s.swt

/-- No command and no step writes the implementation parameters, which an implementation fixes (R11, R78). That they stand in the
state is the model's choice (log 1), and so are the clauses on the coming inputs: no command writes them, and a step removes the
first of them (log 3). -/
def Obligations.ParametersAreConstant : Prop :=
  (∀ (i : Instr) (s t : State), exec i s = .next t → t.cfg = s.cfg ∧ t.inputs = s.inputs) ∧
    ∀ s t : State, step s = .next t → t.cfg = s.cfg ∧ t.inputs = s.inputs.tail

/-- The trace holds every output change and nothing else. The output ports are the channel's levels. A channel without an event in the
step's trace has its old levels; its first event differs from them, each later one from the event before it, and the last shows its
new levels. A channel has at most three events, and more than one only where a ready record of it is committed at a bar boundary
(R39, R92, R142). -/
def Obligations.TraceShowsEveryOutputChange : Prop :=
  ∀ s t : State, s.inputs.head? ≠ some .reset → step s = .next t → ∀ c : Chan,
    t.gateO c = t.ch[c].gateLevel ∧ t.pwmO c = t.ch[c].pwmLevel ∧
    (t.outValid c = true ↔ ∃ ev ∈ t.out, ev.chan = c) ∧
    (eventsAt t c = [] → levels t c = levels s c) ∧
    (levels s c :: (eventsAt t c).map fun ev => (ev.gate, ev.pwm)).IsChain (· ≠ ·) ∧
    (∀ ev, (eventsAt t c).getLast? = some ev → ev.gate = t.gateO c ∧ ev.pwm = t.pwmO c) ∧
    (eventsAt t c).length ≤ 3 ∧
    (2 ≤ (eventsAt t c).length →
      s.running = true ∧ s.tickCounter.toNat % 768 = 0 ∧ s.stg[c].ready = true)

/-- Outputs do not depend on wall-clock quantities: a command under another clock frequency leaves the same state but for the
frequency (R83). -/
def Obligations.CommandsIgnoreTheClockFrequency : Prop :=
  ∀ (i : Instr) (s : State) (hz : Nat), ∃ t, exec i s = .next t ∧ exec i (withClock hz s) = .next (withClock hz t)

/-- The tick-time operators stay below the wrap and undo each other; the examples of 95_test_vectors.md L1.6 (R14). -/
def Obligations.TickTimeWraps : Prop :=
  (∀ (t : BitVec 16) (d : Nat), (tadd t d).toNat = (t.toNat + d) % 49152 ∧
    (tsub t d).toNat = (t.toNat + 49152 - d % 49152) % 49152 ∧ (t.toNat < 49152 → tsub (tadd t d) d = t)) ∧
    tadd 49151 1 = 0 ∧ tadd 49000 300 = 148 ∧ tsub 2 5 = 49149 ∧ tsub 100 49152 = 100 ∧ tsub 0 0 = 0

/-! ### The order of the channels -/

/-- Channels are handled in ascending index order. Away from a commit, the events of a tick stand in ascending channel order, at most
one a channel, and the channels whose event draws take the entropy input's values in ascending order, one each. At a bar boundary the
events and the draws of the commits follow those of the dispatch pass (the tick that finds no record ready), again in ascending
channel order. The events of STOP stand in ascending channel order (R89, R125, R87, R96, R109, R143). -/
def Obligations.ChannelsAreHandledInAscendingOrder : Prop :=
  (∀ s : State, s.Inv → s.cfg.tickSource = .host → s.running = true → s.out = [] →
    (s.tickCounter.toNat % 768 ≠ 0 ∨ ∀ c : Chan, s.stg[c].ready = false) →
    ∃ t l : _, exec .stepTick s = .next t ∧ l = ascending (DispatchDraws s) ∧ AscendingStrict t.out ∧ DrawsOnce s t l ∧
      ∀ (c : Chan) (v : Word), Takes s l c v →
        (t.ch[c].conf.kind = .randomTrigger →
          t.ch[c].openEligible = decide (v.toNat % 100 < t.ch[c].conf.prob.toNat)) ∧
        (t.ch[c].conf.kind = .voltage → t.ch[c].pwmLevel.toNat = 1 + v.toNat % 255)) ∧
  (∀ s : State, s.Inv → s.cfg.tickSource = .host → s.running = true → s.out = [] → s.tickCounter.toNat % 768 = 0 →
    ∃ t u l commits : _, exec .stepTick s = .next t ∧ exec .stepTick (noneReady s) = .next u ∧
      l = ascending (CommitDraws s) ∧ t.out = u.out ++ commits ∧ AscendingStrict u.out ∧ Ascending commits ∧
      (∀ ev ∈ commits, s.stg[ev.chan].ready = true) ∧ DrawsOnce u t l ∧
      ∀ (c : Chan) (v : Word), Takes u l c v →
        (t.ch[c].conf.kind = .randomTrigger →
          t.ch[c].openEligible = decide (v.toNat % 100 < t.ch[c].conf.prob.toNat)) ∧
        (t.ch[c].conf.kind = .voltage → t.ch[c].pwmLevel.toNat = 1 + v.toNat % 255)) ∧
  ∀ s t : State, s.out = [] → exec .stop s = .next t → AscendingStrict t.out
end

