-- ==== Sys2Proof/Laws/State.lean ====
section
/-! SUPPORT. One lemma per field and named update of the state, true by unfolding, and the lemmas of the channel loop. -/

namespace Sys2Proof.Machine

/-! ### putChannel -/

@[simp] theorem putChannel_cfg (c : Chan) (x : Channel × Entropy) (s : State) : (putChannel c x s).cfg = s.cfg := rfl
@[simp] theorem putChannel_tickCounter (c : Chan) (x : Channel × Entropy) (s : State) : (putChannel c x s).tickCounter = s.tickCounter := rfl
@[simp] theorem putChannel_running (c : Chan) (x : Channel × Entropy) (s : State) : (putChannel c x s).running = s.running := rfl
@[simp] theorem putChannel_tempoReq (c : Chan) (x : Channel × Entropy) (s : State) : (putChannel c x s).tempoReq = s.tempoReq := rfl
@[simp] theorem putChannel_tempoActive (c : Chan) (x : Channel × Entropy) (s : State) : (putChannel c x s).tempoActive = s.tempoActive := rfl
@[simp] theorem putChannel_divCount (c : Chan) (x : Channel × Entropy) (s : State) : (putChannel c x s).divCount = s.divCount := rfl
@[simp] theorem putChannel_swingLive (c : Chan) (x : Channel × Entropy) (s : State) : (putChannel c x s).swingLive = s.swingLive := rfl
@[simp] theorem putChannel_swingStaged (c : Chan) (x : Channel × Entropy) (s : State) : (putChannel c x s).swingStaged = s.swingStaged := rfl
@[simp] theorem putChannel_swingReady (c : Chan) (x : Channel × Entropy) (s : State) : (putChannel c x s).swingReady = s.swingReady := rfl
@[simp] theorem putChannel_swt (c : Chan) (x : Channel × Entropy) (s : State) : (putChannel c x s).swt = s.swt := rfl
@[simp] theorem putChannel_statusErr (c : Chan) (x : Channel × Entropy) (s : State) : (putChannel c x s).statusErr = s.statusErr := rfl
@[simp] theorem putChannel_rdata (c : Chan) (x : Channel × Entropy) (s : State) : (putChannel c x s).rdata = s.rdata := rfl
@[simp] theorem putChannel_ch (c : Chan) (x : Channel × Entropy) (s : State) : (putChannel c x s).ch = s.ch.set c x.1 := rfl
@[simp] theorem putChannel_stg (c : Chan) (x : Channel × Entropy) (s : State) : (putChannel c x s).stg = s.stg := rfl
@[simp] theorem putChannel_out (c : Chan) (x : Channel × Entropy) (s : State) : (putChannel c x s).out = s.out ++ emission c s.ch[c] x.1 := rfl
@[simp] theorem putChannel_entropy (c : Chan) (x : Channel × Entropy) (s : State) : (putChannel c x s).entropy = x.2 := rfl
@[simp] theorem putChannel_inputs (c : Chan) (x : Channel × Entropy) (s : State) : (putChannel c x s).inputs = s.inputs := rfl

/-! ### putStaged -/

@[simp] theorem putStaged_cfg (c : Chan) (x : Record × Entropy) (s : State) : (putStaged c x s).cfg = s.cfg := rfl
@[simp] theorem putStaged_tickCounter (c : Chan) (x : Record × Entropy) (s : State) : (putStaged c x s).tickCounter = s.tickCounter := rfl
@[simp] theorem putStaged_running (c : Chan) (x : Record × Entropy) (s : State) : (putStaged c x s).running = s.running := rfl
@[simp] theorem putStaged_tempoReq (c : Chan) (x : Record × Entropy) (s : State) : (putStaged c x s).tempoReq = s.tempoReq := rfl
@[simp] theorem putStaged_tempoActive (c : Chan) (x : Record × Entropy) (s : State) : (putStaged c x s).tempoActive = s.tempoActive := rfl
@[simp] theorem putStaged_divCount (c : Chan) (x : Record × Entropy) (s : State) : (putStaged c x s).divCount = s.divCount := rfl
@[simp] theorem putStaged_swingLive (c : Chan) (x : Record × Entropy) (s : State) : (putStaged c x s).swingLive = s.swingLive := rfl
@[simp] theorem putStaged_swingStaged (c : Chan) (x : Record × Entropy) (s : State) : (putStaged c x s).swingStaged = s.swingStaged := rfl
@[simp] theorem putStaged_swingReady (c : Chan) (x : Record × Entropy) (s : State) : (putStaged c x s).swingReady = s.swingReady := rfl
@[simp] theorem putStaged_swt (c : Chan) (x : Record × Entropy) (s : State) : (putStaged c x s).swt = s.swt := rfl
@[simp] theorem putStaged_statusErr (c : Chan) (x : Record × Entropy) (s : State) : (putStaged c x s).statusErr = s.statusErr := rfl
@[simp] theorem putStaged_rdata (c : Chan) (x : Record × Entropy) (s : State) : (putStaged c x s).rdata = s.rdata := rfl
@[simp] theorem putStaged_ch (c : Chan) (x : Record × Entropy) (s : State) : (putStaged c x s).ch = s.ch := rfl
@[simp] theorem putStaged_stg (c : Chan) (x : Record × Entropy) (s : State) : (putStaged c x s).stg = s.stg.set c { s.stg[c] with conf := x.1 } := rfl
@[simp] theorem putStaged_out (c : Chan) (x : Record × Entropy) (s : State) : (putStaged c x s).out = s.out := rfl
@[simp] theorem putStaged_entropy (c : Chan) (x : Record × Entropy) (s : State) : (putStaged c x s).entropy = x.2 := rfl
@[simp] theorem putStaged_inputs (c : Chan) (x : Record × Entropy) (s : State) : (putStaged c x s).inputs = s.inputs := rfl

/-! ### setReady -/

@[simp] theorem setReady_cfg (c : Chan) (b : Bool) (s : State) : (setReady c b s).cfg = s.cfg := rfl
@[simp] theorem setReady_tickCounter (c : Chan) (b : Bool) (s : State) : (setReady c b s).tickCounter = s.tickCounter := rfl
@[simp] theorem setReady_running (c : Chan) (b : Bool) (s : State) : (setReady c b s).running = s.running := rfl
@[simp] theorem setReady_tempoReq (c : Chan) (b : Bool) (s : State) : (setReady c b s).tempoReq = s.tempoReq := rfl
@[simp] theorem setReady_tempoActive (c : Chan) (b : Bool) (s : State) : (setReady c b s).tempoActive = s.tempoActive := rfl
@[simp] theorem setReady_divCount (c : Chan) (b : Bool) (s : State) : (setReady c b s).divCount = s.divCount := rfl
@[simp] theorem setReady_swingLive (c : Chan) (b : Bool) (s : State) : (setReady c b s).swingLive = s.swingLive := rfl
@[simp] theorem setReady_swingStaged (c : Chan) (b : Bool) (s : State) : (setReady c b s).swingStaged = s.swingStaged := rfl
@[simp] theorem setReady_swingReady (c : Chan) (b : Bool) (s : State) : (setReady c b s).swingReady = s.swingReady := rfl
@[simp] theorem setReady_swt (c : Chan) (b : Bool) (s : State) : (setReady c b s).swt = s.swt := rfl
@[simp] theorem setReady_statusErr (c : Chan) (b : Bool) (s : State) : (setReady c b s).statusErr = s.statusErr := rfl
@[simp] theorem setReady_rdata (c : Chan) (b : Bool) (s : State) : (setReady c b s).rdata = s.rdata := rfl
@[simp] theorem setReady_ch (c : Chan) (b : Bool) (s : State) : (setReady c b s).ch = s.ch := rfl
@[simp] theorem setReady_stg (c : Chan) (b : Bool) (s : State) : (setReady c b s).stg = s.stg.set c { s.stg[c] with ready := b } := rfl
@[simp] theorem setReady_out (c : Chan) (b : Bool) (s : State) : (setReady c b s).out = s.out := rfl
@[simp] theorem setReady_entropy (c : Chan) (b : Bool) (s : State) : (setReady c b s).entropy = s.entropy := rfl
@[simp] theorem setReady_inputs (c : Chan) (b : Bool) (s : State) : (setReady c b s).inputs = s.inputs := rfl

/-! ### copyStaged -/

@[simp] theorem copyStaged_cfg (c : Chan) (s : State) : (copyStaged c s).cfg = s.cfg := rfl
@[simp] theorem copyStaged_tickCounter (c : Chan) (s : State) : (copyStaged c s).tickCounter = s.tickCounter := rfl
@[simp] theorem copyStaged_running (c : Chan) (s : State) : (copyStaged c s).running = s.running := rfl
@[simp] theorem copyStaged_tempoReq (c : Chan) (s : State) : (copyStaged c s).tempoReq = s.tempoReq := rfl
@[simp] theorem copyStaged_tempoActive (c : Chan) (s : State) : (copyStaged c s).tempoActive = s.tempoActive := rfl
@[simp] theorem copyStaged_divCount (c : Chan) (s : State) : (copyStaged c s).divCount = s.divCount := rfl
@[simp] theorem copyStaged_swingLive (c : Chan) (s : State) : (copyStaged c s).swingLive = s.swingLive := rfl
@[simp] theorem copyStaged_swingStaged (c : Chan) (s : State) : (copyStaged c s).swingStaged = s.swingStaged := rfl
@[simp] theorem copyStaged_swingReady (c : Chan) (s : State) : (copyStaged c s).swingReady = s.swingReady := rfl
@[simp] theorem copyStaged_swt (c : Chan) (s : State) : (copyStaged c s).swt = s.swt := rfl
@[simp] theorem copyStaged_statusErr (c : Chan) (s : State) : (copyStaged c s).statusErr = s.statusErr := rfl
@[simp] theorem copyStaged_rdata (c : Chan) (s : State) : (copyStaged c s).rdata = s.rdata := rfl
@[simp] theorem copyStaged_ch (c : Chan) (s : State) : (copyStaged c s).ch = s.ch.set c { s.ch[c] with conf := s.stg[c].conf } := rfl
@[simp] theorem copyStaged_stg (c : Chan) (s : State) : (copyStaged c s).stg = s.stg := rfl
@[simp] theorem copyStaged_out (c : Chan) (s : State) : (copyStaged c s).out = s.out := rfl
@[simp] theorem copyStaged_entropy (c : Chan) (s : State) : (copyStaged c s).entropy = s.entropy := rfl
@[simp] theorem copyStaged_inputs (c : Chan) (s : State) : (copyStaged c s).inputs = s.inputs := rfl

/-! ### setErr -/

@[simp] theorem setErr_cfg (b : Nat) (s : State) : (setErr b s).cfg = s.cfg := rfl
@[simp] theorem setErr_tickCounter (b : Nat) (s : State) : (setErr b s).tickCounter = s.tickCounter := rfl
@[simp] theorem setErr_running (b : Nat) (s : State) : (setErr b s).running = s.running := rfl
@[simp] theorem setErr_tempoReq (b : Nat) (s : State) : (setErr b s).tempoReq = s.tempoReq := rfl
@[simp] theorem setErr_tempoActive (b : Nat) (s : State) : (setErr b s).tempoActive = s.tempoActive := rfl
@[simp] theorem setErr_divCount (b : Nat) (s : State) : (setErr b s).divCount = s.divCount := rfl
@[simp] theorem setErr_swingLive (b : Nat) (s : State) : (setErr b s).swingLive = s.swingLive := rfl
@[simp] theorem setErr_swingStaged (b : Nat) (s : State) : (setErr b s).swingStaged = s.swingStaged := rfl
@[simp] theorem setErr_swingReady (b : Nat) (s : State) : (setErr b s).swingReady = s.swingReady := rfl
@[simp] theorem setErr_swt (b : Nat) (s : State) : (setErr b s).swt = s.swt := rfl
@[simp] theorem setErr_statusErr (b : Nat) (s : State) : (setErr b s).statusErr = s.statusErr ||| (1#2 <<< b) := rfl
@[simp] theorem setErr_rdata (b : Nat) (s : State) : (setErr b s).rdata = s.rdata := rfl
@[simp] theorem setErr_ch (b : Nat) (s : State) : (setErr b s).ch = s.ch := rfl
@[simp] theorem setErr_stg (b : Nat) (s : State) : (setErr b s).stg = s.stg := rfl
@[simp] theorem setErr_out (b : Nat) (s : State) : (setErr b s).out = s.out := rfl
@[simp] theorem setErr_entropy (b : Nat) (s : State) : (setErr b s).entropy = s.entropy := rfl
@[simp] theorem setErr_inputs (b : Nat) (s : State) : (setErr b s).inputs = s.inputs := rfl

/-! ### setSwingLive -/

@[simp] theorem setSwingLive_cfg (a : BitVec 8) (s : State) : (setSwingLive a s).cfg = s.cfg := rfl
@[simp] theorem setSwingLive_tickCounter (a : BitVec 8) (s : State) : (setSwingLive a s).tickCounter = s.tickCounter := rfl
@[simp] theorem setSwingLive_running (a : BitVec 8) (s : State) : (setSwingLive a s).running = s.running := rfl
@[simp] theorem setSwingLive_tempoReq (a : BitVec 8) (s : State) : (setSwingLive a s).tempoReq = s.tempoReq := rfl
@[simp] theorem setSwingLive_tempoActive (a : BitVec 8) (s : State) : (setSwingLive a s).tempoActive = s.tempoActive := rfl
@[simp] theorem setSwingLive_divCount (a : BitVec 8) (s : State) : (setSwingLive a s).divCount = s.divCount := rfl
@[simp] theorem setSwingLive_swingLive (a : BitVec 8) (s : State) : (setSwingLive a s).swingLive = a := rfl
@[simp] theorem setSwingLive_swingStaged (a : BitVec 8) (s : State) : (setSwingLive a s).swingStaged = s.swingStaged := rfl
@[simp] theorem setSwingLive_swingReady (a : BitVec 8) (s : State) : (setSwingLive a s).swingReady = s.swingReady := rfl
@[simp] theorem setSwingLive_swt (a : BitVec 8) (s : State) : (setSwingLive a s).swt = swingTable a := rfl
@[simp] theorem setSwingLive_statusErr (a : BitVec 8) (s : State) : (setSwingLive a s).statusErr = s.statusErr := rfl
@[simp] theorem setSwingLive_rdata (a : BitVec 8) (s : State) : (setSwingLive a s).rdata = s.rdata := rfl
@[simp] theorem setSwingLive_ch (a : BitVec 8) (s : State) : (setSwingLive a s).ch = s.ch := rfl
@[simp] theorem setSwingLive_stg (a : BitVec 8) (s : State) : (setSwingLive a s).stg = s.stg := rfl
@[simp] theorem setSwingLive_out (a : BitVec 8) (s : State) : (setSwingLive a s).out = s.out := rfl
@[simp] theorem setSwingLive_entropy (a : BitVec 8) (s : State) : (setSwingLive a s).entropy = s.entropy := rfl
@[simp] theorem setSwingLive_inputs (a : BitVec 8) (s : State) : (setSwingLive a s).inputs = s.inputs := rfl

/-! ### swingCommit -/

@[simp] theorem swingCommit_cfg (s : State) : (swingCommit s).cfg = s.cfg := rfl
@[simp] theorem swingCommit_tickCounter (s : State) : (swingCommit s).tickCounter = s.tickCounter := rfl
@[simp] theorem swingCommit_running (s : State) : (swingCommit s).running = s.running := rfl
@[simp] theorem swingCommit_tempoReq (s : State) : (swingCommit s).tempoReq = s.tempoReq := rfl
@[simp] theorem swingCommit_tempoActive (s : State) : (swingCommit s).tempoActive = s.tempoActive := rfl
@[simp] theorem swingCommit_divCount (s : State) : (swingCommit s).divCount = s.divCount := rfl
@[simp] theorem swingCommit_swingLive (s : State) : (swingCommit s).swingLive = s.swingStaged := rfl
@[simp] theorem swingCommit_swingStaged (s : State) : (swingCommit s).swingStaged = s.swingStaged := rfl
@[simp] theorem swingCommit_swingReady (s : State) : (swingCommit s).swingReady = false := rfl
@[simp] theorem swingCommit_swt (s : State) : (swingCommit s).swt = swingTable s.swingStaged := rfl
@[simp] theorem swingCommit_statusErr (s : State) : (swingCommit s).statusErr = s.statusErr := rfl
@[simp] theorem swingCommit_rdata (s : State) : (swingCommit s).rdata = s.rdata := rfl
@[simp] theorem swingCommit_ch (s : State) : (swingCommit s).ch = s.ch := rfl
@[simp] theorem swingCommit_stg (s : State) : (swingCommit s).stg = s.stg := rfl
@[simp] theorem swingCommit_out (s : State) : (swingCommit s).out = s.out := rfl
@[simp] theorem swingCommit_entropy (s : State) : (swingCommit s).entropy = s.entropy := rfl
@[simp] theorem swingCommit_inputs (s : State) : (swingCommit s).inputs = s.inputs := rfl

/-! ### The channel loop -/

/-- A property that every turn keeps is kept by the loop. -/
theorem forChannels_keeps {f : Chan → State → State} (P : State → Prop) (h : ∀ c s, P s → P (f c s)) {s : State}
    (hs : P s) : P (forChannels f s) := by
  simp only [forChannels, chans, List.foldl]
  exact h _ _ (h _ _ (h _ _ (h _ _ (h _ _ (h _ _ (h _ _ (h _ _ hs)))))))

/-- A view of the state that every turn leaves alone is left alone by the loop. -/
theorem forChannels_frame {α : Type} {f : Chan → State → State} (g : State → α) (h : ∀ c s, g (f c s) = g s)
    (s : State) : g (forChannels f s) = g s :=
  forChannels_keeps (fun t => g t = g s) (fun c t ht => (h c t).trans ht) rfl

/-- The loop over a list of channels leaves a channel's view alone if every turn for another channel does and the channel is
not in the list. -/
theorem foldl_view_other {α : Type} {f : Chan → State → State} (view : State → Chan → α)
    (other : ∀ c d s, c ≠ d → view (f d s) c = view s c) (c : Chan) (l : List Chan) (hc : c ∉ l) (s : State) :
    view (l.foldl (fun t d => f d t) s) c = view s c := by
  induction l generalizing s with
  | nil => rfl
  | cons d l ih =>
    simp only [List.mem_cons, not_or] at hc
    exact (ih hc.2 _).trans (other c d s hc.1)

/-- Channel `c` is changed by its own turn only: before it, the loop has left the channel's view and every global view as
they were; after it, the channel's view stays what the turn made it. -/
theorem forChannels_at {α β : Type} {f : Chan → State → State} (g : State → β) (view : State → Chan → α)
    (global : ∀ c s, g (f c s) = g s) (other : ∀ c d s, c ≠ d → view (f d s) c = view s c) (c : Chan) (s : State) :
    ∃ t, g t = g s ∧ view t c = view s c ∧ view (forChannels f s) c = view (f c t) c := by
  have split : ∃ a b, chans = a ++ c :: b ∧ c ∉ a ∧ c ∉ b := by
    obtain ⟨a, b, hab⟩ := List.append_of_mem (show c ∈ chans by revert c; decide)
    have nodup : (a ++ c :: b).Nodup := hab ▸ (by decide : chans.Nodup)
    rw [List.nodup_append] at nodup
    exact ⟨a, b, hab, fun h => nodup.2.2 c h c (by simp) rfl, (List.nodup_cons.mp nodup.2.1).1⟩
  obtain ⟨a, b, hab, ha, hb⟩ := split
  have glob : ∀ (l : List Chan) (u : State), g (l.foldl (fun t d => f d t) u) = g u := by
    intro l
    induction l with
    | nil => intro u; rfl
    | cons d l ih => intro u; exact (ih _).trans (global d u)
  refine ⟨a.foldl (fun t d => f d t) s, glob a s, foldl_view_other view other c a ha s, ?_⟩
  simp only [forChannels, hab, List.foldl_append, List.foldl_cons]
  exact foldl_view_other view other c b hb _

end Sys2Proof.Machine
end

