-- ==== Sys2Proof/Laws/Operands.lean ====
section
/-! SUPPORT. What the operand forms compute: tick-time arithmetic, clamps, kind codes, the pattern word, the draws. -/

namespace Sys2Proof.Machine

/-! ### The constants as numerals (R8) -/

@[simp] theorem limit_eq : limit = 49152 := rfl
@[simp] theorem bar_eq : bar = 768 := rfl
@[simp] theorem ppqn_eq : ppqn = 192 := rfl
@[simp] theorem minBpm_eq : minBpm = 30 := rfl
@[simp] theorem maxBpm_eq : maxBpm = 200 := rfl
@[simp] theorem pwmStep_eq : pwmStep = 6 := rfl
@[simp] theorem nSwing_eq : nSwing = 6 := rfl
@[simp] theorem maxSteps_eq : maxSteps = 32 := rfl

/-! ### Tick-time arithmetic (R14) -/

theorem tadd_toNat (t : BitVec 16) (d : Nat) : (tadd t d).toNat = (t.toNat + d) % limit := by
  have := Nat.mod_lt (t.toNat + d) (by decide : 0 < limit)
  simp only [tadd, BitVec.toNat_ofNat, limit_eq] at *
  omega

theorem tsub_toNat (t : BitVec 16) (d : Nat) : (tsub t d).toNat = (t.toNat + limit - d % limit) % limit := by
  have := Nat.mod_lt (t.toNat + limit - d % limit) (by decide : 0 < limit)
  simp only [tsub, BitVec.toNat_ofNat, limit_eq] at *
  omega

theorem tadd_lt (t : BitVec 16) (d : Nat) : (tadd t d).toNat < limit := by
  rw [tadd_toNat]; exact Nat.mod_lt _ (by decide)

theorem tsub_lt (t : BitVec 16) (d : Nat) : (tsub t d).toNat < limit := by
  rw [tsub_toNat]; exact Nat.mod_lt _ (by decide)

/-- Adding a duration shorter than a wrap never gives the same time back (R90). -/
theorem tadd_ne (t : BitVec 16) {d : Nat} (h0 : 0 < d) (hd : d < limit) : tadd t d ≠ t := by
  intro h
  have := congrArg BitVec.toNat h
  rw [tadd_toNat] at this
  simp only [limit_eq] at *
  omega

/-! ### Clamps (R135) -/

theorem clampTempo_toNat (v : BitVec 8) : (clampTempo v).toNat = min (max v.toNat 30) 200 := by
  simp only [clampTempo, clampNat, BitVec.toNat_ofNat, minBpm_eq, maxBpm_eq]
  omega

theorem clampTempo_legal (v : BitVec 8) : minBpm ≤ (clampTempo v).toNat ∧ (clampTempo v).toNat ≤ maxBpm := by
  rw [clampTempo_toNat, minBpm_eq, maxBpm_eq]; omega

theorem clampSwing_toNat (cfg : Config) (v : BitVec 8) :
    (clampSwing cfg v).toNat = min v.toNat cfg.swingMax.toNat := by
  have := v.isLt
  simp only [clampSwing, BitVec.toNat_ofNat]
  omega

theorem clampLen_toNat (v : BitVec 6) : (clampLen v).toNat = min v.toNat 32 := by
  simp only [clampLen, BitVec.toNat_ofNat, maxSteps_eq]
  omega

theorem clampSteps_toNat (v : BitVec 6) : (clampSteps v).toNat = min (max v.toNat 1) 32 := by
  simp only [clampSteps, clampNat, BitVec.toNat_ofNat, maxSteps_eq]
  omega

theorem clampProb_toNat (v : BitVec 7) : (clampProb v).toNat = min v.toNat 100 := by
  simp only [clampProb, BitVec.toNat_ofNat]
  omega

theorem kindCode_range (k : Kind) : 1 ≤ kindCode k ∧ kindCode k ≤ 7 := by
  cases k <;> decide

theorem kindCode_kindOfCode {n : Nat} (h1 : 1 ≤ n) (h7 : n ≤ 7) : kindCode (kindOfCode n) = n := by
  interval_cases n <;> rfl

theorem kindCode_injective {a b : Kind} (h : kindCode a = kindCode b) : a = b := by
  revert a b; intro a b; cases a <;> cases b <;> simp [kindCode]

/-- `CLAMP_KIND` in kind codes (R117). -/
theorem kindCode_clampKind (cap : Kind) (k : BitVec 3) :
    kindCode (clampKind cap k) = clampNat k.toNat 1 (kindCode cap) := by
  have := kindCode_range cap
  apply kindCode_kindOfCode <;> simp only [clampNat] <;> omega

theorem clampKind_le (cap : Kind) (k : BitVec 3) : kindCode (clampKind cap k) ≤ kindCode cap := by
  rw [kindCode_clampKind]; simp only [clampNat]; omega

theorem shorterOf_val (a b : Fin 13) : (shorterOf a b).val = min a.val b.val := by
  simp only [shorterOf, Fin.lt_def]; split <;> omega

theorem shorterOf_le_right (a b : Fin 13) : shorterOf a b ≤ b := by
  rw [Fin.le_def, shorterOf_val]; omega

/-! ### The pattern word (R31) -/

@[simp] theorem pattern_withPattern (r : Record) (p : Word) : pattern (withPattern r p) = p := by
  simp only [pattern, withPattern]
  ext i hi
  simp only [BitVec.getElem_append, BitVec.getElem_extractLsb']
  split
  · rw [Nat.zero_add, BitVec.getLsbD_eq_getElem hi]
  · rw [show 16 + (i - 16) = i by omega, BitVec.getLsbD_eq_getElem hi]

@[simp] theorem withPattern_kind (r : Record) (p : Word) : (withPattern r p).kind = r.kind := rfl
@[simp] theorem withPattern_clk (r : Record) (p : Word) : (withPattern r p).clk = r.clk := rfl
@[simp] theorem withPattern_gate (r : Record) (p : Word) : (withPattern r p).gate = r.gate := rfl
@[simp] theorem withPattern_delay (r : Record) (p : Word) : (withPattern r p).delay = r.delay := rfl
@[simp] theorem withPattern_steps (r : Record) (p : Word) : (withPattern r p).steps = r.steps := rfl
@[simp] theorem withPattern_len (r : Record) (p : Word) : (withPattern r p).len = r.len := rfl
@[simp] theorem withPattern_prob (r : Record) (p : Word) : (withPattern r p).prob = r.prob := rfl

/-- Two records with the same fields and the same pattern word are equal. -/
theorem record_ext {a b : Record} (hk : a.kind = b.kind) (hc : a.clk = b.clk) (hg : a.gate = b.gate)
    (hd : a.delay = b.delay) (hs : a.steps = b.steps) (hl : a.len = b.len) (hp : a.prob = b.prob)
    (hP : pattern a = pattern b) : a = b := by
  have hi := congrArg (BitVec.extractLsb' 16 16) hP
  have lo := congrArg (BitVec.extractLsb' 0 16) hP
  simp only [pattern, BitVec.extractLsb'_append_eq_left, BitVec.extractLsb'_append_eq_right] at hi lo
  cases a; cases b; simp_all

/-! ### The draws (R143) -/

theorem drawPercent_lt (e : Entropy) : (drawPercent e).1 < 100 := Nat.mod_lt _ (by decide)

theorem drawLevel_toNat (e : Entropy) : (drawLevel e).1.toNat = 1 + (drawBits32 e).1.toNat % 255 := by
  have := Nat.mod_lt (drawBits32 e).1.toNat (by decide : 0 < 255)
  simp only [drawLevel, BitVec.toNat_ofNat]
  omega

@[simp] theorem drawBits32_cons (v : Word) (rest : List Word) (n : Nat) :
    drawBits32 ⟨v :: rest, n⟩ = (v, ⟨rest, n + 1⟩) := rfl

theorem drawBits32_count (e : Entropy) : (drawBits32 e).2.count = e.count + 1 := by
  unfold drawBits32; split <;> rfl

@[simp] theorem drawPercent_entropy (e : Entropy) : (drawPercent e).2 = (drawBits32 e).2 := rfl
@[simp] theorem drawLevel_entropy (e : Entropy) : (drawLevel e).2 = (drawBits32 e).2 := rfl

/-! ### The duration tables (R9, R10, R94) -/

/-- Every duration of a legal table is at least three ticks. -/
theorem div_ge {cfg : Config} (h : cfg.Wf) (i : Fin 13) : 3 ≤ cfg.div[i] := by
  obtain ⟨-, h0, hs, -, -⟩ := h
  have step : ∀ n (hn : n < 13), 3 ≤ cfg.div[n] := by
    intro n
    induction n with
    | zero => intro _; exact h0
    | succ n ih =>
      intro hn
      have := ih (by omega)
      have := hs ⟨n, by omega⟩
      simp only at this
      omega
  exact step i.val i.isLt

/-- A longer note value is at least twice as long (R94). -/
theorem div_double {cfg : Config} (h : cfg.Wf) {i j : Fin 13} (hij : i < j) : 2 * cfg.div[i] ≤ cfg.div[j] := by
  have hs := h.2.2.1
  have step : ∀ d n (hn : n + 1 + d < 13), 2 * cfg.div[n] ≤ cfg.div[n + 1 + d] := by
    intro d
    induction d with
    | zero => intro n hn; exact hs ⟨n, by omega⟩
    | succ d ih =>
      intro n hn
      have h1 := ih n (by omega)
      have h2 := hs ⟨n + 1 + d, by omega⟩
      have h3 := div_ge h ⟨n + 1 + d, by omega⟩
      simp only [Fin.getElem_fin] at h2 h3
      have : n + 1 + (d + 1) = n + 1 + d + 1 := by omega
      simp only [this]
      omega
  have := step (j.val - i.val - 1) i.val (by have := Fin.lt_def.mp hij; omega)
  have e : i.val + 1 + (j.val - i.val - 1) = j.val := by have := Fin.lt_def.mp hij; omega
  simpa [e] using this

theorem div_mono {cfg : Config} (h : cfg.Wf) {i j : Fin 13} (hij : i ≤ j) : cfg.div[i] ≤ cfg.div[j] := by
  rcases eq_or_lt_of_le hij with rfl | h'
  · exact le_rfl
  · have := div_double h h'; omega

theorem div_le {cfg : Config} (h : cfg.Wf) (i : Fin 13) : cfg.div[i] ≤ 16384 :=
  (div_mono h (Fin.le_last i)).trans h.2.2.2.2

/-- The gate's open and closed times add up to the clock (R94). -/
theorem openDur_add_closeDur {cfg : Config} (h : cfg.Wf) {r : Record} (hg : r.gate ≤ r.clk) :
    openDur cfg r + closeDur cfg r = clockTicks cfg r := by
  have h3 := div_ge h r.clk
  have hm := div_mono h hg
  simp only [openDur, closeDur, gateTicks, clockTicks]
  split <;> omega

theorem openDur_ge {cfg : Config} (h : cfg.Wf) (r : Record) : 2 ≤ openDur cfg r := by
  have h3 := div_ge h r.clk
  have hg := div_ge h r.gate
  simp only [openDur, gateTicks, clockTicks]
  split <;> omega

theorem closeDur_ge {cfg : Config} (h : cfg.Wf) (r : Record) : 1 ≤ closeDur cfg r := by
  have h3 := div_ge h r.gate
  simp only [closeDur, gateTicks, clockTicks]
  split
  · rename_i hlt; have := div_double h hlt; omega
  · exact le_rfl

/-! ### The divider's period (R76) -/

/-- A faster tempo has no longer period. -/
theorem divisor_anti (cfg : Config) {a b : Nat} (ha : 0 < a) (hab : a ≤ b) : divisor cfg b ≤ divisor cfg a := by
  unfold divisor
  exact Nat.div_le_div_left (Nat.mul_le_mul_right _ hab) (Nat.mul_pos ha (by decide))

/-- "so that `DIVISOR(200) >= 1`" (R76), hence every legal period is at least one cycle. -/
theorem divisor_pos {cfg : Config} (h : cfg.Wf) {bpm : Nat} (h0 : 0 < bpm) (hb : bpm ≤ maxBpm) :
    1 ≤ divisor cfg bpm := by
  unfold divisor
  rw [Nat.one_le_div_iff (Nat.mul_pos h0 (by decide))]
  have : 640 ≤ cfg.fClk := h.1
  calc bpm * ppqn ≤ 200 * 192 := Nat.mul_le_mul hb le_rfl
    _ ≤ cfg.fClk * 60 := by omega

end Sys2Proof.Machine
end

