-- ==== Sys2Proof/Laws/Staging.lean ====
section
/-! SUPPORT. What staging makes of a record: `NORMALIZE` (R121), the generators (R101 to R104), and that the result is
legal. -/

namespace Sys2Proof.Machine

/-! ### NORMALIZE (R121) -/

@[simp] theorem normalize_kind (r : Record) : (normalize r).kind = r.kind := by
  unfold normalize; split <;> simp_all

@[simp] theorem normalize_clk (r : Record) : (normalize r).clk = r.clk := by
  unfold normalize; split <;> simp_all

@[simp] theorem normalize_delay (r : Record) : (normalize r).delay = r.delay := by
  unfold normalize; split <;> simp_all

@[simp] theorem normalize_prob (r : Record) : (normalize r).prob = r.prob := by
  unfold normalize; split <;> simp_all

/-- `gate` never longer than the clock for a gate kind; untouched for a CV kind (R121). -/
theorem normalize_gate (r : Record) :
    (normalize r).gate = if isGateKind r.kind then shorterOf r.gate r.clk else r.gate := by
  cases h : r.kind <;> simp [normalize, isGateKind, h]

/-- `len`: at least 1 for Euclidean, at most 4 for Voltage (R121). -/
theorem normalize_len_toNat (r : Record) :
    (normalize r).len.toNat =
      if r.kind = .euclidean then max r.len.toNat 1 else if r.kind = .voltage then min r.len.toNat 4
      else r.len.toNat := by
  have := r.len.isLt
  cases h : r.kind <;> (simp [normalize, h]; try omega)

/-- `steps`: at most `len` for Euclidean (R121). -/
theorem normalize_steps_toNat (r : Record) :
    (normalize r).steps.toNat =
      if r.kind = .euclidean then min r.steps.toNat (max r.len.toNat 1) else r.steps.toNat := by
  have := r.len.isLt
  have := r.steps.isLt
  cases h : r.kind <;> (simp [normalize, h]; try omega)

/-- "After `NORMALIZE`, the record meets every legal-value condition" (R121), from the clamps of the staging commands. -/
theorem normalize_legal {cap : Kind} {r : Record} (hk : kindCode r.kind ≤ kindCode cap)
    (hs : 1 ≤ r.steps.toNat ∧ r.steps.toNat ≤ 32) (hl : r.len.toNat ≤ 32) (hp : r.prob.toNat ≤ 100) :
    (normalize r).Legal cap := by
  refine ⟨by simpa using hk, ?_, ?_, ?_, by simpa using hp, ?_, ?_⟩
  · intro h
    rw [normalize_kind] at h
    rw [normalize_gate, if_pos h, normalize_clk]
    exact shorterOf_le_right _ _
  · rw [normalize_steps_toNat]; split <;> omega
  · rw [normalize_len_toNat]; split <;> [skip; split] <;> omega
  · intro h
    rw [normalize_kind] at h
    rw [normalize_len_toNat, normalize_steps_toNat, if_pos h, if_pos h]
    omega
  · intro h
    rw [normalize_kind] at h
    have : r.kind ≠ .euclidean := by simp [h]
    rw [normalize_len_toNat, if_neg this, if_pos h]
    omega

/-! ### The random-trigger generator (R102) -/

/-- `RTRIG` writes bits `j .. j + m - 1` only. -/
theorem rtrigFrom_getLsbD_outside (p m j : Nat) (acc : Word) (e : Entropy) {i : Nat}
    (hi : i < j ∨ j + m ≤ i) : (rtrigFrom p m j acc e).1.getLsbD i = acc.getLsbD i := by
  induction m generalizing j acc e with
  | zero => rfl
  | succ m ih =>
    rw [rtrigFrom, ih _ _ _ (by omega)]
    split
    · simp [BitVec.getLsbD_or, BitVec.getLsbD_shiftLeft]
      intro _ hj
      have : i - j ≠ 0 ∨ i = j := by omega
      rcases this with h | h
      · cases hsub : i - j with
        | zero => omega
        | succ n => simp
      · omega
    · rfl

/-- Bits `len .. 31` of a random-trigger pattern are 0 (R102). -/
theorem rtrig_getLsbD_above (p len : Nat) (e : Entropy) {i : Nat} (hi : len ≤ i) :
    (rtrig p len e).1.getLsbD i = false := by
  rw [rtrig, rtrigFrom_getLsbD_outside _ _ _ _ _ (Or.inr (by omega))]
  simp

/-- One draw per step (R102). -/
theorem rtrigFrom_count (p m j : Nat) (acc : Word) (e : Entropy) :
    (rtrigFrom p m j acc e).2.count = e.count + m := by
  induction m generalizing j acc e with
  | zero => rfl
  | succ m ih => rw [rtrigFrom, ih, drawPercent_entropy, drawBits32_count]; omega

/-! ### GENERATE (R104) -/

@[simp] theorem generate_record (r : Record) (e : Entropy) :
    (generate r e).1 = withPattern r (generatePattern r e).1 := rfl

@[simp] theorem generate_entropy (r : Record) (e : Entropy) : (generate r e).2 = (generatePattern r e).2 := rfl

/-- The generator leaves the other fields, so the record stays legal. -/
theorem withPattern_legal {cap : Kind} {r : Record} {p : Word} (h : r.Legal cap) : (withPattern r p).Legal cap := h

/-- The generated pattern is the one a record of its kind holds (R31, R104). -/
theorem generate_patternLegal (r : Record) (e : Entropy) : (generate r e).1.PatternLegal := by
  refine ⟨?_, ?_, ?_, ?_⟩
  · intro h
    simp only [generate_record, withPattern_kind] at h
    simp [generatePattern, h]
  · intro h j hj
    simp only [generate_record, withPattern_kind, withPattern_len] at h hj
    rw [generate_record, pattern_withPattern]
    simp only [generatePattern, h]
    split
    · simp
    · exact rtrig_getLsbD_above _ _ _ hj
  · intro h hl
    simp only [generate_record, withPattern_kind, withPattern_len] at h hl
    simp [generatePattern, h, hl]
  · intro h1 h2 h3
    simp only [generate_record, withPattern_kind] at h1 h2 h3
    rw [generate_record, pattern_withPattern]
    cases hk : r.kind <;> simp_all [generatePattern]

/-- Both staging commands end with a legal record (R121, R104). -/
theorem staged_legal {cap : Kind} {r : Record} (hk : kindCode r.kind ≤ kindCode cap)
    (hs : 1 ≤ r.steps.toNat ∧ r.steps.toNat ≤ 32) (hl : r.len.toNat ≤ 32) (hp : r.prob.toNat ≤ 100)
    (e : Entropy) :
    (generate (normalize r) e).1.Legal cap ∧ (generate (normalize r) e).1.PatternLegal :=
  ⟨withPattern_legal (normalize_legal hk hs hl hp), generate_patternLegal _ _⟩

/-! ### The staging operation in the state -/

theorem stageRecord_ready (c d : Chan) (r : Record) (s : State) :
    (stageRecord c r s).stg[d].ready = s.stg[d].ready := by
  simp only [stageRecord, putStaged_stg, Fin.getElem_fin, Vector.getElem_set]
  split
  · rename_i h; simp [h]
  · rfl

theorem stageRecord_conf_same (c : Chan) (r : Record) (s : State) :
    (stageRecord c r s).stg[c].conf = (generate (normalize r) s.entropy).1 := by
  simp [stageRecord]

theorem stageRecord_stg_other {c d : Chan} (h : d ≠ c) (r : Record) (s : State) :
    (stageRecord c r s).stg[d] = s.stg[d] := by
  have : (c : Nat) ≠ d := fun e => h (Fin.ext e.symm)
  simp [stageRecord, this]

end Sys2Proof.Machine
end

