-- ==== Sys2Proof/Laws/Channel.lean ====
section
/-! SUPPORT. What one event rule or timeline reset makes of one channel: its configuration is left alone, and a legal record
stays legal (R30 to R36, R96 to R100). -/

namespace Sys2Proof.Machine

/-! ### ELIGIBILITY (R96) -/

/-- The index stays below the pattern length. -/
theorem eligibility_idx {x : Channel} {e : Entropy} (hl : x.conf.len.toNat ≤ 32)
    (h : 0 < x.conf.len.toNat → x.seqIdx.toNat < x.conf.len.toNat) (h0 : 0 < x.conf.len.toNat) :
    (eligibility x e).2.1.toNat < x.conf.len.toNat := by
  have hx := h h0
  have := x.seqIdx.isLt
  cases hk : x.conf.kind <;> simp only [eligibility, hk] <;> try exact hx
  · split
    · simp only [BitVec.toNat_ofNat]; omega
    · rename_i hne
      have : x.seqIdx.toNat ≠ 0 := fun h => hne (BitVec.eq_of_toNat_eq (by simpa using h))
      rw [BitVec.toNat_sub]; simp; omega
  · split
    · exact hx
    · have := Nat.mod_lt (x.seqIdx.toNat + 1) h0
      simp only [BitVec.toNat_ofNat]; omega

/-- A Clock channel is always eligible (R96). -/
theorem eligibility_clock {x : Channel} {e : Entropy} (h : x.conf.kind = .clock) : (eligibility x e).1 = true := by
  simp [eligibility, h]

/-- Only a live RandomTrigger channel draws for its eligibility (R96, R156). -/
theorem eligibility_entropy (x : Channel) (e : Entropy) :
    (eligibility x e).2.2 =
      if x.conf.kind = .randomTrigger ∧ x.conf.len = 0 then (drawBits32 e).2 else e := by
  cases hk : x.conf.kind <;> simp [eligibility, hk]
  split <;> simp_all

/-! ### The configuration is left alone -/

@[simp] theorem withEligibility_conf (x : Channel) (e : Entropy) : (withEligibility x e).1.conf = x.conf := rfl

@[simp] theorem advanceElapsed_conf (cfg : Config) (x : Channel) : (advanceElapsed cfg x).conf = x.conf := by
  unfold advanceElapsed; split <;> rfl

@[simp] theorem handleChannel_conf (cfg : Config) (swt : Vector (BitVec 8) 6) (now : BitVec 16) (x : Channel)
    (e : Entropy) : (handleChannel cfg swt now x e).1.conf = x.conf := by
  cases h : x.nextKind <;> simp [handleChannel, h, gateOpen, gateClose, pwmTick]

@[simp] theorem timelineChannel_conf (cfg : Config) (now : BitVec 16) (x : Channel) (e : Entropy) :
    (timelineChannel cfg now x e).1.conf = x.conf := by
  unfold timelineChannel; dsimp only; split <;> rfl

/-! ### Times stay below the wrap (R35) -/

theorem applySwing_lt (phase : Bool) (base : BitVec 16) (off : Nat) : (applySwing phase base off).1.toNat < limit := by
  cases phase <;> [exact tadd_lt _ _; exact tsub_lt _ _]

theorem nextOpen_lt (cfg : Config) (swt : Vector (BitVec 8) 6) (now : BitVec 16) (x : Channel) :
    (nextOpen cfg swt now x).1.toNat < limit := by
  unfold nextOpen
  split
  · exact applySwing_lt _ _ _
  · exact tadd_lt _ _

/-- An event rule schedules a time below the wrap (R35). -/
theorem handleChannel_nextTime_lt (cfg : Config) (swt : Vector (BitVec 8) 6) (now : BitVec 16) (x : Channel)
    (e : Entropy) (h : x.nextTime.toNat < limit) : (handleChannel cfg swt now x e).1.nextTime.toNat < limit := by
  cases hk : x.nextKind <;> simp only [handleChannel, hk]
  · exact h
  · exact tadd_lt _ _
  · exact nextOpen_lt _ _ _ _
  · exact tadd_lt _ _

/-- A timeline reset schedules the first event a start delay after now (R100). -/
theorem timelineChannel_nextTime (cfg : Config) (now : BitVec 16) (x : Channel) (e : Entropy) :
    (timelineChannel cfg now x e).1.nextTime = tadd now (delayTicks cfg x.conf.delay) := by
  unfold timelineChannel; dsimp only; split <;> rfl

/-! ### Legal records stay legal -/

theorem gateOpen_legal {cfg : Config} {cap : Kind} {now : BitVec 16} {x : Channel} {e : Entropy}
    (h : x.Legal cfg cap) (hg : isGateKind x.conf.kind = true) : (gateOpen cfg now x e).1.Legal cfg cap := by
  obtain ⟨hc, hp, -, hi, hgate, -⟩ := h
  obtain ⟨-, -, he, -, hclk⟩ := hgate hg
  exact ⟨hc, hp, tadd_lt _ _, hi, fun _ => ⟨Or.inr rfl, rfl, he, nofun, hclk⟩,
    fun hn => absurd hg (by simp [gateOpen] at hn; simp [hn])⟩

theorem gateClose_legal {cfg : Config} {cap : Kind} {swt : Vector (BitVec 8) 6} {now : BitVec 16} {x : Channel}
    {e : Entropy} (h : x.Legal cfg cap) (hg : isGateKind x.conf.kind = true) :
    (gateClose cfg swt now x e).1.Legal cfg cap := by
  obtain ⟨hc, hp, -, hi, hgate, -⟩ := h
  obtain ⟨-, -, he, -, -⟩ := hgate hg
  refine ⟨hc, hp, nextOpen_lt _ _ _ _, ?_, fun _ => ⟨Or.inl rfl, rfl, he, fun _ => rfl, ?_⟩,
    fun hn => absurd hg (by simp [gateClose] at hn; simp [hn])⟩
  · exact fun h0 => eligibility_idx (x := { x with
      gateLevel := false, pwmLevel := 0, swingPhase := (nextOpen cfg swt now x).2,
      nextTime := (nextOpen cfg swt now x).1, nextKind := .gateOpen }) hc.2.2.2.1 hi h0
  · exact fun hk => eligibility_clock hk

theorem advanceElapsed_legal {cfg : Config} {x : Channel} (hw : cfg.Wf)
    (_ : x.elapsed.toNat < clockTicks cfg x.conf) (h6 : x.elapsed.toNat % pwmStep = 0) :
    (advanceElapsed cfg x).elapsed.toNat < clockTicks cfg x.conf ∧
      (advanceElapsed cfg x).elapsed.toNat % pwmStep = 0 := by
  have hge := div_ge hw x.conf.clk
  have hle := div_le hw x.conf.clk
  simp only [clockTicks, pwmStep_eq] at *
  unfold advanceElapsed
  split
  · exact ⟨show 0 < cfg.div[x.conf.clk] by omega, rfl⟩
  · rename_i hlt
    simp only [clockTicks, pwmStep_eq] at hlt
    have hmod : (x.elapsed.toNat + 6) % 2 ^ 14 = x.elapsed.toNat + 6 := Nat.mod_eq_of_lt (by omega)
    simp only [BitVec.toNat_ofNat, pwmStep_eq, hmod]
    omega

theorem advanceElapsed_idx {cfg : Config} {x : Channel} (hl : x.conf.len.toNat ≤ 32)
    (hi : 0 < x.conf.len.toNat → x.seqIdx.toNat < x.conf.len.toNat) :
    0 < x.conf.len.toNat → (advanceElapsed cfg x).seqIdx.toNat < x.conf.len.toNat := by
  intro h0
  unfold advanceElapsed
  split
  · simp only [restartIdx]
    split
    · have := Nat.mod_lt (x.seqIdx.toNat + 1) h0
      simp only [BitVec.toNat_ofNat]; omega
    · exact hi h0
  · exact hi h0

theorem advanceElapsed_rest (cfg : Config) (x : Channel) :
    (advanceElapsed cfg x).openEligible = x.openEligible ∧ (advanceElapsed cfg x).swingPhase = x.swingPhase := by
  unfold advanceElapsed; split <;> exact ⟨rfl, rfl⟩

theorem pwmTick_legal {cfg : Config} {cap : Kind} {now : BitVec 16} {x : Channel} {e : Entropy} (hw : cfg.Wf)
    (h : x.Legal cfg cap) (hg : isGateKind x.conf.kind = false) : (pwmTick cfg now x e).1.Legal cfg cap := by
  obtain ⟨hc, hp, -, hi, -, hcv⟩ := h
  obtain ⟨-, -, ho, hs, he, h6⟩ := hcv hg
  have hr := advanceElapsed_rest cfg x
  have ha := advanceElapsed_legal hw he h6
  refine ⟨by simpa [pwmTick] using hc, by simpa [pwmTick] using hp, tadd_lt _ _, ?_,
    fun hn => absurd hg (by simp [pwmTick] at hn; simp [hn]),
    fun _ => ⟨rfl, rfl, hr.1.trans ho, hr.2.trans hs, ?_, ha.2⟩⟩
  · simpa [pwmTick] using advanceElapsed_idx (cfg := cfg) hc.2.2.2.1 hi
  · simpa [pwmTick, clockTicks] using ha.1

/-- An event rule keeps a legal record legal: in a legal record the pending event fits the kind (R36, R91). -/
theorem handleChannel_legal {cfg : Config} {cap : Kind} {swt : Vector (BitVec 8) 6} {now : BitVec 16} {x : Channel}
    {e : Entropy} (hw : cfg.Wf) (h : x.Legal cfg cap) : (handleChannel cfg swt now x e).1.Legal cfg cap := by
  cases hg : isGateKind x.conf.kind
  · have hn := (h.2.2.2.2.2 hg).1
    simpa [handleChannel, hn] using pwmTick_legal hw h hg
  · rcases (h.2.2.2.2.1 hg).1 with hn | hn
    · simpa [handleChannel, hn] using gateOpen_legal h hg
    · simpa [handleChannel, hn] using gateClose_legal h hg

/-- A timeline reset makes a record legal whenever its configuration is (R100). -/
theorem timelineChannel_legal {cfg : Config} {cap : Kind} {now : BitVec 16} {x : Channel} {e : Entropy} (hw : cfg.Wf)
    (hc : x.conf.Legal cap) (hp : x.conf.PatternLegal) : (timelineChannel cfg now x e).1.Legal cfg cap := by
  have hge := div_ge hw x.conf.clk
  have hl := hc.2.2.2.1
  have hidx : 0 < x.conf.len.toNat →
      (if x.conf.kind = .euclidean then BitVec.ofNat 5 (x.conf.len.toNat - 1) else 0#5).toNat < x.conf.len.toNat := by
    intro h0
    split <;> simp only [BitVec.toNat_ofNat] <;> omega
  refine ⟨by simpa using hc, by simpa using hp, by rw [timelineChannel_nextTime]; exact tadd_lt _ _, ?_, ?_, ?_⟩
  · intro h0
    rw [timelineChannel_conf] at h0 ⊢
    unfold timelineChannel
    dsimp only
    split
    · exact eligibility_idx hl hidx h0
    · exact hidx h0
  · intro hg
    rw [timelineChannel_conf] at hg
    simp only [timelineChannel, if_pos hg]
    exact ⟨Or.inl rfl, rfl, rfl, fun _ => rfl, fun hk => eligibility_clock hk⟩
  · intro hg
    rw [timelineChannel_conf] at hg
    simp only [timelineChannel, hg, Bool.false_eq_true, if_false]
    exact ⟨rfl, rfl, rfl, rfl, show 0 < cfg.div[x.conf.clk] by omega, rfl⟩

end Sys2Proof.Machine
end

