-- ==== Sys2Proof/Laws/Encoding.lean ====
section
/-! SUPPORT. Fields of a word: what a field placed in a word reads back as, and that fields that do not overlap do not
disturb each other (R63 to R69, R129). -/

namespace Sys2Proof

/-- Reading bits of a word built by OR reads them from both parts. -/
theorem extract_or (a b : Word) (lo n : Nat) :
    (a ||| b).extractLsb' lo n = a.extractLsb' lo n ||| b.extractLsb' lo n := by
  ext i hi; simp

/-- Bit `i` of a placed field. -/
theorem placeField_getLsbD {n : Nat} (v : BitVec n) (lo i : Nat) :
    (placeField v lo).getLsbD i = (decide (i < 32) && decide (lo ≤ i) && v.getLsbD (i - lo)) := by
  simp only [placeField, BitVec.getLsbD_shiftLeft, BitVec.getLsbD_setWidth]
  by_cases h1 : i < 32 <;> by_cases h2 : lo ≤ i <;>
    simp [h1, h2, Nat.not_lt.mpr, Nat.lt_of_not_le]
  omega

/-- A field read where it was placed. -/
theorem extract_placeField_same {n : Nat} (v : BitVec n) (lo : Nat) (h : lo + n ≤ 32) :
    (placeField v lo).extractLsb' lo n = v := by
  ext i hi
  rw [BitVec.getElem_extractLsb', placeField_getLsbD, ← BitVec.getLsbD_eq_getElem hi]
  simp only [Nat.add_sub_cancel_left, show lo + i < 32 by omega, Nat.le_add_right, decide_true, Bool.true_and]

/-- A field read where another one stands reads as 0. -/
theorem extract_placeField_other {n : Nat} (v : BitVec n) (lo start len : Nat)
    (h : start + len ≤ lo ∨ lo + n ≤ start) : (placeField v lo).extractLsb' start len = 0 := by
  ext i hi
  rw [BitVec.getElem_extractLsb', placeField_getLsbD]
  rcases h with h | h
  · simp [show ¬ lo ≤ start + i by omega]
  · simp [BitVec.getLsbD_of_ge v (start + i - lo) (by omega)]

/-- The opcode field of a word whose opcode was placed and whose other fields lie below it. -/
theorem extract_placeOp (op : BitVec 4) : (placeOp op).extractLsb' 28 4 = op :=
  extract_placeField_same op 28 (by omega)

/-- The opcode of a word whose fields below it were placed there. -/
theorem opField_or_placeField {n : Nat} (w : Word) (op : BitVec 4) (v : BitVec n) (lo : Nat) (hw : opField w = op)
    (h : lo + n ≤ 28) : opField (w ||| placeField v lo) = op := by
  rw [opField, extract_or, extract_placeField_other v lo 28 4 (Or.inr h)]
  simpa [opField] using hw

/-- A placed field leaves a mask clear that has no bit in it. -/
theorem and_mask_or_placeField {n : Nat} (w m : Word) (v : BitVec n) (lo : Nat) (hw : w &&& m = 0)
    (h : ∀ j < n, m.getLsbD (lo + j) = false) : (w ||| placeField v lo) &&& m = 0 := by
  ext i hi
  have hwi := congrArg (fun x : Word => x.getLsbD i) hw
  simp only [BitVec.getLsbD_and] at hwi
  rw [← BitVec.getLsbD_eq_getElem, BitVec.getLsbD_and, BitVec.getLsbD_or, placeField_getLsbD]
  by_cases hb : lo ≤ i ∧ i < lo + n
  · have := h (i - lo) (by omega)
    rw [show lo + (i - lo) = i by omega] at this
    simp [this]
  · have : (decide (lo ≤ i) && v.getLsbD (i - lo)) = false := by
      by_cases h1 : lo ≤ i
      · rw [BitVec.getLsbD_of_ge v _ (by omega), Bool.and_false]
      · simp [h1]
    rw [Bool.and_assoc, this, Bool.and_false, Bool.or_false, hwi]
    simp

end Sys2Proof
end

