-- ==== Sys2Proof/Laws/Ops.lean ====
section
/-! SUPPORT. What the shared operations do to the state: the registers they leave alone, the one channel each turn of a loop
changes, and that legal records stay legal. -/

namespace Sys2Proof.Machine

/-! ### One channel at a time -/

@[simp] theorem putChannel_ch_same (c : Chan) (x : Channel × Entropy) (s : State) : (putChannel c x s).ch[c] = x.1 := by
  simp [putChannel]

theorem putChannel_ch_other {c d : Chan} (h : d ≠ c) (x : Channel × Entropy) (s : State) :
    (putChannel c x s).ch[d] = s.ch[d] := by
  have : (c : Nat) ≠ d := fun e => h (Fin.ext e.symm)
  simp [putChannel, this]

@[simp] theorem copyStaged_ch_same (c : Chan) (s : State) :
    (copyStaged c s).ch[c] = { s.ch[c] with conf := s.stg[c].conf } := by
  simp [copyStaged]

theorem copyStaged_ch_other {c d : Chan} (h : d ≠ c) (s : State) : (copyStaged c s).ch[d] = s.ch[d] := by
  have : (c : Nat) ≠ d := fun e => h (Fin.ext e.symm)
  simp [copyStaged, this]

@[simp] theorem setReady_stg_same (c : Chan) (b : Bool) (s : State) :
    (setReady c b s).stg[c] = { s.stg[c] with ready := b } := by
  simp [setReady]

theorem setReady_stg_other {c d : Chan} (h : d ≠ c) (b : Bool) (s : State) : (setReady c b s).stg[d] = s.stg[d] := by
  have : (c : Nat) ≠ d := fun e => h (Fin.ext e.symm)
  simp [setReady, this]

/-! ### The event rules and the timeline reset: registers left alone (R42) -/

@[simp] theorem handle_cfg (now : BitVec 16) (c : Chan) (s : State) : (handle now c s).cfg = s.cfg := rfl
@[simp] theorem handle_tickCounter (now : BitVec 16) (c : Chan) (s : State) : (handle now c s).tickCounter = s.tickCounter := rfl
@[simp] theorem handle_running (now : BitVec 16) (c : Chan) (s : State) : (handle now c s).running = s.running := rfl
@[simp] theorem handle_tempoReq (now : BitVec 16) (c : Chan) (s : State) : (handle now c s).tempoReq = s.tempoReq := rfl
@[simp] theorem handle_tempoActive (now : BitVec 16) (c : Chan) (s : State) : (handle now c s).tempoActive = s.tempoActive := rfl
@[simp] theorem handle_divCount (now : BitVec 16) (c : Chan) (s : State) : (handle now c s).divCount = s.divCount := rfl
@[simp] theorem handle_swingStaged (now : BitVec 16) (c : Chan) (s : State) : (handle now c s).swingStaged = s.swingStaged := rfl
@[simp] theorem handle_statusErr (now : BitVec 16) (c : Chan) (s : State) : (handle now c s).statusErr = s.statusErr := rfl
@[simp] theorem handle_rdata (now : BitVec 16) (c : Chan) (s : State) : (handle now c s).rdata = s.rdata := rfl
@[simp] theorem handle_inputs (now : BitVec 16) (c : Chan) (s : State) : (handle now c s).inputs = s.inputs := rfl
@[simp] theorem handle_swingLive (now : BitVec 16) (c : Chan) (s : State) : (handle now c s).swingLive = s.swingLive := rfl
@[simp] theorem handle_swingReady (now : BitVec 16) (c : Chan) (s : State) : (handle now c s).swingReady = s.swingReady := rfl
@[simp] theorem handle_swt (now : BitVec 16) (c : Chan) (s : State) : (handle now c s).swt = s.swt := rfl
@[simp] theorem handle_stg (now : BitVec 16) (c : Chan) (s : State) : (handle now c s).stg = s.stg := rfl

@[simp] theorem timelineReset_cfg (now : BitVec 16) (c : Chan) (s : State) : (timelineReset now c s).cfg = s.cfg := rfl
@[simp] theorem timelineReset_tickCounter (now : BitVec 16) (c : Chan) (s : State) : (timelineReset now c s).tickCounter = s.tickCounter := rfl
@[simp] theorem timelineReset_running (now : BitVec 16) (c : Chan) (s : State) : (timelineReset now c s).running = s.running := rfl
@[simp] theorem timelineReset_tempoReq (now : BitVec 16) (c : Chan) (s : State) : (timelineReset now c s).tempoReq = s.tempoReq := rfl
@[simp] theorem timelineReset_tempoActive (now : BitVec 16) (c : Chan) (s : State) : (timelineReset now c s).tempoActive = s.tempoActive := rfl
@[simp] theorem timelineReset_divCount (now : BitVec 16) (c : Chan) (s : State) : (timelineReset now c s).divCount = s.divCount := rfl
@[simp] theorem timelineReset_swingStaged (now : BitVec 16) (c : Chan) (s : State) : (timelineReset now c s).swingStaged = s.swingStaged := rfl
@[simp] theorem timelineReset_statusErr (now : BitVec 16) (c : Chan) (s : State) : (timelineReset now c s).statusErr = s.statusErr := rfl
@[simp] theorem timelineReset_rdata (now : BitVec 16) (c : Chan) (s : State) : (timelineReset now c s).rdata = s.rdata := rfl
@[simp] theorem timelineReset_inputs (now : BitVec 16) (c : Chan) (s : State) : (timelineReset now c s).inputs = s.inputs := rfl
@[simp] theorem timelineReset_swingLive (now : BitVec 16) (c : Chan) (s : State) : (timelineReset now c s).swingLive = s.swingLive := rfl
@[simp] theorem timelineReset_swingReady (now : BitVec 16) (c : Chan) (s : State) : (timelineReset now c s).swingReady = s.swingReady := rfl
@[simp] theorem timelineReset_swt (now : BitVec 16) (c : Chan) (s : State) : (timelineReset now c s).swt = s.swt := rfl
@[simp] theorem timelineReset_stg (now : BitVec 16) (c : Chan) (s : State) : (timelineReset now c s).stg = s.stg := rfl

@[simp] theorem applyCfg_cfg (now : BitVec 16) (c : Chan) (s : State) : (applyCfg now c s).cfg = s.cfg := rfl
@[simp] theorem applyCfg_tickCounter (now : BitVec 16) (c : Chan) (s : State) : (applyCfg now c s).tickCounter = s.tickCounter := rfl
@[simp] theorem applyCfg_running (now : BitVec 16) (c : Chan) (s : State) : (applyCfg now c s).running = s.running := rfl
@[simp] theorem applyCfg_tempoReq (now : BitVec 16) (c : Chan) (s : State) : (applyCfg now c s).tempoReq = s.tempoReq := rfl
@[simp] theorem applyCfg_tempoActive (now : BitVec 16) (c : Chan) (s : State) : (applyCfg now c s).tempoActive = s.tempoActive := rfl
@[simp] theorem applyCfg_divCount (now : BitVec 16) (c : Chan) (s : State) : (applyCfg now c s).divCount = s.divCount := rfl
@[simp] theorem applyCfg_swingStaged (now : BitVec 16) (c : Chan) (s : State) : (applyCfg now c s).swingStaged = s.swingStaged := rfl
@[simp] theorem applyCfg_statusErr (now : BitVec 16) (c : Chan) (s : State) : (applyCfg now c s).statusErr = s.statusErr := rfl
@[simp] theorem applyCfg_rdata (now : BitVec 16) (c : Chan) (s : State) : (applyCfg now c s).rdata = s.rdata := rfl
@[simp] theorem applyCfg_inputs (now : BitVec 16) (c : Chan) (s : State) : (applyCfg now c s).inputs = s.inputs := rfl
@[simp] theorem applyCfg_swingLive (now : BitVec 16) (c : Chan) (s : State) : (applyCfg now c s).swingLive = s.swingLive := rfl
@[simp] theorem applyCfg_swingReady (now : BitVec 16) (c : Chan) (s : State) : (applyCfg now c s).swingReady = s.swingReady := rfl
@[simp] theorem applyCfg_swt (now : BitVec 16) (c : Chan) (s : State) : (applyCfg now c s).swt = s.swt := rfl
@[simp] theorem applyCfg_stg (now : BitVec 16) (c : Chan) (s : State) : (applyCfg now c s).stg = s.stg := rfl

@[simp] theorem dispatch_cfg (now : BitVec 16) (c : Chan) (s : State) : (dispatch now c s).cfg = s.cfg := by
  unfold dispatch; split <;> rfl
@[simp] theorem dispatch_tickCounter (now : BitVec 16) (c : Chan) (s : State) : (dispatch now c s).tickCounter = s.tickCounter := by
  unfold dispatch; split <;> rfl
@[simp] theorem dispatch_running (now : BitVec 16) (c : Chan) (s : State) : (dispatch now c s).running = s.running := by
  unfold dispatch; split <;> rfl
@[simp] theorem dispatch_tempoReq (now : BitVec 16) (c : Chan) (s : State) : (dispatch now c s).tempoReq = s.tempoReq := by
  unfold dispatch; split <;> rfl
@[simp] theorem dispatch_tempoActive (now : BitVec 16) (c : Chan) (s : State) : (dispatch now c s).tempoActive = s.tempoActive := by
  unfold dispatch; split <;> rfl
@[simp] theorem dispatch_divCount (now : BitVec 16) (c : Chan) (s : State) : (dispatch now c s).divCount = s.divCount := by
  unfold dispatch; split <;> rfl
@[simp] theorem dispatch_swingStaged (now : BitVec 16) (c : Chan) (s : State) : (dispatch now c s).swingStaged = s.swingStaged := by
  unfold dispatch; split <;> rfl
@[simp] theorem dispatch_statusErr (now : BitVec 16) (c : Chan) (s : State) : (dispatch now c s).statusErr = s.statusErr := by
  unfold dispatch; split <;> rfl
@[simp] theorem dispatch_rdata (now : BitVec 16) (c : Chan) (s : State) : (dispatch now c s).rdata = s.rdata := by
  unfold dispatch; split <;> rfl
@[simp] theorem dispatch_inputs (now : BitVec 16) (c : Chan) (s : State) : (dispatch now c s).inputs = s.inputs := by
  unfold dispatch; split <;> rfl
@[simp] theorem dispatch_swingLive (now : BitVec 16) (c : Chan) (s : State) : (dispatch now c s).swingLive = s.swingLive := by
  unfold dispatch; split <;> rfl
@[simp] theorem dispatch_swingReady (now : BitVec 16) (c : Chan) (s : State) : (dispatch now c s).swingReady = s.swingReady := by
  unfold dispatch; split <;> rfl
@[simp] theorem dispatch_swt (now : BitVec 16) (c : Chan) (s : State) : (dispatch now c s).swt = s.swt := by
  unfold dispatch; split <;> rfl
@[simp] theorem dispatch_stg (now : BitVec 16) (c : Chan) (s : State) : (dispatch now c s).stg = s.stg := by
  unfold dispatch; split <;> rfl

@[simp] theorem dispatchAll_cfg (now : BitVec 16) (s : State) : (dispatchAll now s).cfg = s.cfg :=
  forChannels_frame (fun t => t.cfg) (dispatch_cfg now) s
@[simp] theorem dispatchAll_tickCounter (now : BitVec 16) (s : State) : (dispatchAll now s).tickCounter = s.tickCounter :=
  forChannels_frame (fun t => t.tickCounter) (dispatch_tickCounter now) s
@[simp] theorem dispatchAll_running (now : BitVec 16) (s : State) : (dispatchAll now s).running = s.running :=
  forChannels_frame (fun t => t.running) (dispatch_running now) s
@[simp] theorem dispatchAll_tempoReq (now : BitVec 16) (s : State) : (dispatchAll now s).tempoReq = s.tempoReq :=
  forChannels_frame (fun t => t.tempoReq) (dispatch_tempoReq now) s
@[simp] theorem dispatchAll_tempoActive (now : BitVec 16) (s : State) : (dispatchAll now s).tempoActive = s.tempoActive :=
  forChannels_frame (fun t => t.tempoActive) (dispatch_tempoActive now) s
@[simp] theorem dispatchAll_divCount (now : BitVec 16) (s : State) : (dispatchAll now s).divCount = s.divCount :=
  forChannels_frame (fun t => t.divCount) (dispatch_divCount now) s
@[simp] theorem dispatchAll_swingStaged (now : BitVec 16) (s : State) : (dispatchAll now s).swingStaged = s.swingStaged :=
  forChannels_frame (fun t => t.swingStaged) (dispatch_swingStaged now) s
@[simp] theorem dispatchAll_statusErr (now : BitVec 16) (s : State) : (dispatchAll now s).statusErr = s.statusErr :=
  forChannels_frame (fun t => t.statusErr) (dispatch_statusErr now) s
@[simp] theorem dispatchAll_rdata (now : BitVec 16) (s : State) : (dispatchAll now s).rdata = s.rdata :=
  forChannels_frame (fun t => t.rdata) (dispatch_rdata now) s
@[simp] theorem dispatchAll_inputs (now : BitVec 16) (s : State) : (dispatchAll now s).inputs = s.inputs :=
  forChannels_frame (fun t => t.inputs) (dispatch_inputs now) s
@[simp] theorem dispatchAll_swingLive (now : BitVec 16) (s : State) : (dispatchAll now s).swingLive = s.swingLive :=
  forChannels_frame (fun t => t.swingLive) (dispatch_swingLive now) s
@[simp] theorem dispatchAll_swingReady (now : BitVec 16) (s : State) : (dispatchAll now s).swingReady = s.swingReady :=
  forChannels_frame (fun t => t.swingReady) (dispatch_swingReady now) s
@[simp] theorem dispatchAll_swt (now : BitVec 16) (s : State) : (dispatchAll now s).swt = s.swt :=
  forChannels_frame (fun t => t.swt) (dispatch_swt now) s
@[simp] theorem dispatchAll_stg (now : BitVec 16) (s : State) : (dispatchAll now s).stg = s.stg :=
  forChannels_frame (fun t => t.stg) (dispatch_stg now) s

/-! ### Commits: registers left alone (R42) -/

@[simp] theorem commitSwingIfReady_cfg (s : State) : (commitSwingIfReady s).cfg = s.cfg := by
  unfold commitSwingIfReady; split <;> rfl
@[simp] theorem commitSwingIfReady_tickCounter (s : State) : (commitSwingIfReady s).tickCounter = s.tickCounter := by
  unfold commitSwingIfReady; split <;> rfl
@[simp] theorem commitSwingIfReady_running (s : State) : (commitSwingIfReady s).running = s.running := by
  unfold commitSwingIfReady; split <;> rfl
@[simp] theorem commitSwingIfReady_tempoReq (s : State) : (commitSwingIfReady s).tempoReq = s.tempoReq := by
  unfold commitSwingIfReady; split <;> rfl
@[simp] theorem commitSwingIfReady_tempoActive (s : State) : (commitSwingIfReady s).tempoActive = s.tempoActive := by
  unfold commitSwingIfReady; split <;> rfl
@[simp] theorem commitSwingIfReady_divCount (s : State) : (commitSwingIfReady s).divCount = s.divCount := by
  unfold commitSwingIfReady; split <;> rfl
@[simp] theorem commitSwingIfReady_swingStaged (s : State) : (commitSwingIfReady s).swingStaged = s.swingStaged := by
  unfold commitSwingIfReady; split <;> rfl
@[simp] theorem commitSwingIfReady_statusErr (s : State) : (commitSwingIfReady s).statusErr = s.statusErr := by
  unfold commitSwingIfReady; split <;> rfl
@[simp] theorem commitSwingIfReady_rdata (s : State) : (commitSwingIfReady s).rdata = s.rdata := by
  unfold commitSwingIfReady; split <;> rfl
@[simp] theorem commitSwingIfReady_inputs (s : State) : (commitSwingIfReady s).inputs = s.inputs := by
  unfold commitSwingIfReady; split <;> rfl
@[simp] theorem commitSwingIfReady_ch (s : State) : (commitSwingIfReady s).ch = s.ch := by
  unfold commitSwingIfReady; split <;> rfl
@[simp] theorem commitSwingIfReady_stg (s : State) : (commitSwingIfReady s).stg = s.stg := by
  unfold commitSwingIfReady; split <;> rfl
@[simp] theorem commitSwingIfReady_out (s : State) : (commitSwingIfReady s).out = s.out := by
  unfold commitSwingIfReady; split <;> rfl
@[simp] theorem commitSwingIfReady_entropy (s : State) : (commitSwingIfReady s).entropy = s.entropy := by
  unfold commitSwingIfReady; split <;> rfl

@[simp] theorem barCommitChannel_cfg (now : BitVec 16) (c : Chan) (s : State) : (barCommitChannel now c s).cfg = s.cfg := by
  unfold barCommitChannel; dsimp only; split <;> [split <;> rfl; rfl]
@[simp] theorem barCommitChannel_tickCounter (now : BitVec 16) (c : Chan) (s : State) : (barCommitChannel now c s).tickCounter = s.tickCounter := by
  unfold barCommitChannel; dsimp only; split <;> [split <;> rfl; rfl]
@[simp] theorem barCommitChannel_running (now : BitVec 16) (c : Chan) (s : State) : (barCommitChannel now c s).running = s.running := by
  unfold barCommitChannel; dsimp only; split <;> [split <;> rfl; rfl]
@[simp] theorem barCommitChannel_tempoReq (now : BitVec 16) (c : Chan) (s : State) : (barCommitChannel now c s).tempoReq = s.tempoReq := by
  unfold barCommitChannel; dsimp only; split <;> [split <;> rfl; rfl]
@[simp] theorem barCommitChannel_tempoActive (now : BitVec 16) (c : Chan) (s : State) : (barCommitChannel now c s).tempoActive = s.tempoActive := by
  unfold barCommitChannel; dsimp only; split <;> [split <;> rfl; rfl]
@[simp] theorem barCommitChannel_divCount (now : BitVec 16) (c : Chan) (s : State) : (barCommitChannel now c s).divCount = s.divCount := by
  unfold barCommitChannel; dsimp only; split <;> [split <;> rfl; rfl]
@[simp] theorem barCommitChannel_swingStaged (now : BitVec 16) (c : Chan) (s : State) : (barCommitChannel now c s).swingStaged = s.swingStaged := by
  unfold barCommitChannel; dsimp only; split <;> [split <;> rfl; rfl]
@[simp] theorem barCommitChannel_statusErr (now : BitVec 16) (c : Chan) (s : State) : (barCommitChannel now c s).statusErr = s.statusErr := by
  unfold barCommitChannel; dsimp only; split <;> [split <;> rfl; rfl]
@[simp] theorem barCommitChannel_rdata (now : BitVec 16) (c : Chan) (s : State) : (barCommitChannel now c s).rdata = s.rdata := by
  unfold barCommitChannel; dsimp only; split <;> [split <;> rfl; rfl]
@[simp] theorem barCommitChannel_inputs (now : BitVec 16) (c : Chan) (s : State) : (barCommitChannel now c s).inputs = s.inputs := by
  unfold barCommitChannel; dsimp only; split <;> [split <;> rfl; rfl]
@[simp] theorem barCommitChannel_swingLive (now : BitVec 16) (c : Chan) (s : State) : (barCommitChannel now c s).swingLive = s.swingLive := by
  unfold barCommitChannel; dsimp only; split <;> [split <;> rfl; rfl]
@[simp] theorem barCommitChannel_swingReady (now : BitVec 16) (c : Chan) (s : State) : (barCommitChannel now c s).swingReady = s.swingReady := by
  unfold barCommitChannel; dsimp only; split <;> [split <;> rfl; rfl]
@[simp] theorem barCommitChannel_swt (now : BitVec 16) (c : Chan) (s : State) : (barCommitChannel now c s).swt = s.swt := by
  unfold barCommitChannel; dsimp only; split <;> [split <;> rfl; rfl]

@[simp] theorem barCommit_cfg (now : BitVec 16) (s : State) : (barCommit now s).cfg = s.cfg :=
  (forChannels_frame (fun t => t.cfg) (barCommitChannel_cfg now) _).trans (commitSwingIfReady_cfg s)
@[simp] theorem barCommit_tickCounter (now : BitVec 16) (s : State) : (barCommit now s).tickCounter = s.tickCounter :=
  (forChannels_frame (fun t => t.tickCounter) (barCommitChannel_tickCounter now) _).trans (commitSwingIfReady_tickCounter s)
@[simp] theorem barCommit_running (now : BitVec 16) (s : State) : (barCommit now s).running = s.running :=
  (forChannels_frame (fun t => t.running) (barCommitChannel_running now) _).trans (commitSwingIfReady_running s)
@[simp] theorem barCommit_tempoReq (now : BitVec 16) (s : State) : (barCommit now s).tempoReq = s.tempoReq :=
  (forChannels_frame (fun t => t.tempoReq) (barCommitChannel_tempoReq now) _).trans (commitSwingIfReady_tempoReq s)
@[simp] theorem barCommit_tempoActive (now : BitVec 16) (s : State) : (barCommit now s).tempoActive = s.tempoActive :=
  (forChannels_frame (fun t => t.tempoActive) (barCommitChannel_tempoActive now) _).trans (commitSwingIfReady_tempoActive s)
@[simp] theorem barCommit_divCount (now : BitVec 16) (s : State) : (barCommit now s).divCount = s.divCount :=
  (forChannels_frame (fun t => t.divCount) (barCommitChannel_divCount now) _).trans (commitSwingIfReady_divCount s)
@[simp] theorem barCommit_swingStaged (now : BitVec 16) (s : State) : (barCommit now s).swingStaged = s.swingStaged :=
  (forChannels_frame (fun t => t.swingStaged) (barCommitChannel_swingStaged now) _).trans (commitSwingIfReady_swingStaged s)
@[simp] theorem barCommit_statusErr (now : BitVec 16) (s : State) : (barCommit now s).statusErr = s.statusErr :=
  (forChannels_frame (fun t => t.statusErr) (barCommitChannel_statusErr now) _).trans (commitSwingIfReady_statusErr s)
@[simp] theorem barCommit_rdata (now : BitVec 16) (s : State) : (barCommit now s).rdata = s.rdata :=
  (forChannels_frame (fun t => t.rdata) (barCommitChannel_rdata now) _).trans (commitSwingIfReady_rdata s)
@[simp] theorem barCommit_inputs (now : BitVec 16) (s : State) : (barCommit now s).inputs = s.inputs :=
  (forChannels_frame (fun t => t.inputs) (barCommitChannel_inputs now) _).trans (commitSwingIfReady_inputs s)
theorem barCommit_swingLive (now : BitVec 16) (s : State) : (barCommit now s).swingLive = (commitSwingIfReady s).swingLive :=
  forChannels_frame (fun t => t.swingLive) (barCommitChannel_swingLive now) _
theorem barCommit_swingReady (now : BitVec 16) (s : State) : (barCommit now s).swingReady = (commitSwingIfReady s).swingReady :=
  forChannels_frame (fun t => t.swingReady) (barCommitChannel_swingReady now) _
theorem barCommit_swt (now : BitVec 16) (s : State) : (barCommit now s).swt = (commitSwingIfReady s).swt :=
  forChannels_frame (fun t => t.swt) (barCommitChannel_swt now) _

@[simp] theorem barGate_cfg (now : BitVec 16) (s : State) : (barGate now s).cfg = s.cfg := by
  unfold barGate; split <;> simp
@[simp] theorem barGate_tickCounter (now : BitVec 16) (s : State) : (barGate now s).tickCounter = s.tickCounter := by
  unfold barGate; split <;> simp
@[simp] theorem barGate_running (now : BitVec 16) (s : State) : (barGate now s).running = s.running := by
  unfold barGate; split <;> simp
@[simp] theorem barGate_tempoReq (now : BitVec 16) (s : State) : (barGate now s).tempoReq = s.tempoReq := by
  unfold barGate; split <;> simp
@[simp] theorem barGate_tempoActive (now : BitVec 16) (s : State) : (barGate now s).tempoActive = s.tempoActive := by
  unfold barGate; split <;> simp
@[simp] theorem barGate_divCount (now : BitVec 16) (s : State) : (barGate now s).divCount = s.divCount := by
  unfold barGate; split <;> simp
@[simp] theorem barGate_swingStaged (now : BitVec 16) (s : State) : (barGate now s).swingStaged = s.swingStaged := by
  unfold barGate; split <;> simp
@[simp] theorem barGate_statusErr (now : BitVec 16) (s : State) : (barGate now s).statusErr = s.statusErr := by
  unfold barGate; split <;> simp
@[simp] theorem barGate_rdata (now : BitVec 16) (s : State) : (barGate now s).rdata = s.rdata := by
  unfold barGate; split <;> simp
@[simp] theorem barGate_inputs (now : BitVec 16) (s : State) : (barGate now s).inputs = s.inputs := by
  unfold barGate; split <;> simp

@[simp] theorem stopCommitChannel_cfg (c : Chan) (s : State) : (stopCommitChannel c s).cfg = s.cfg := by
  unfold stopCommitChannel; split <;> rfl
@[simp] theorem stopCommitChannel_tickCounter (c : Chan) (s : State) : (stopCommitChannel c s).tickCounter = s.tickCounter := by
  unfold stopCommitChannel; split <;> rfl
@[simp] theorem stopCommitChannel_running (c : Chan) (s : State) : (stopCommitChannel c s).running = s.running := by
  unfold stopCommitChannel; split <;> rfl
@[simp] theorem stopCommitChannel_tempoReq (c : Chan) (s : State) : (stopCommitChannel c s).tempoReq = s.tempoReq := by
  unfold stopCommitChannel; split <;> rfl
@[simp] theorem stopCommitChannel_tempoActive (c : Chan) (s : State) : (stopCommitChannel c s).tempoActive = s.tempoActive := by
  unfold stopCommitChannel; split <;> rfl
@[simp] theorem stopCommitChannel_divCount (c : Chan) (s : State) : (stopCommitChannel c s).divCount = s.divCount := by
  unfold stopCommitChannel; split <;> rfl
@[simp] theorem stopCommitChannel_swingStaged (c : Chan) (s : State) : (stopCommitChannel c s).swingStaged = s.swingStaged := by
  unfold stopCommitChannel; split <;> rfl
@[simp] theorem stopCommitChannel_statusErr (c : Chan) (s : State) : (stopCommitChannel c s).statusErr = s.statusErr := by
  unfold stopCommitChannel; split <;> rfl
@[simp] theorem stopCommitChannel_rdata (c : Chan) (s : State) : (stopCommitChannel c s).rdata = s.rdata := by
  unfold stopCommitChannel; split <;> rfl
@[simp] theorem stopCommitChannel_inputs (c : Chan) (s : State) : (stopCommitChannel c s).inputs = s.inputs := by
  unfold stopCommitChannel; split <;> rfl
@[simp] theorem stopCommitChannel_swingLive (c : Chan) (s : State) : (stopCommitChannel c s).swingLive = s.swingLive := by
  unfold stopCommitChannel; split <;> rfl
@[simp] theorem stopCommitChannel_swingReady (c : Chan) (s : State) : (stopCommitChannel c s).swingReady = s.swingReady := by
  unfold stopCommitChannel; split <;> rfl
@[simp] theorem stopCommitChannel_swt (c : Chan) (s : State) : (stopCommitChannel c s).swt = s.swt := by
  unfold stopCommitChannel; split <;> rfl
@[simp] theorem stopCommitChannel_out (c : Chan) (s : State) : (stopCommitChannel c s).out = s.out := by
  unfold stopCommitChannel; split <;> rfl
@[simp] theorem stopCommitChannel_entropy (c : Chan) (s : State) : (stopCommitChannel c s).entropy = s.entropy := by
  unfold stopCommitChannel; split <;> rfl

/-! ### The tick step: registers left alone (R42) -/

@[simp] theorem tickStep_cfg (s : State) : (tickStep s).cfg = s.cfg := by
  unfold tickStep; split <;> simp
@[simp] theorem tickStep_running (s : State) : (tickStep s).running = s.running := by
  unfold tickStep; split <;> simp
@[simp] theorem tickStep_tempoReq (s : State) : (tickStep s).tempoReq = s.tempoReq := by
  unfold tickStep; split <;> simp
@[simp] theorem tickStep_tempoActive (s : State) : (tickStep s).tempoActive = s.tempoActive := by
  unfold tickStep; split <;> simp
@[simp] theorem tickStep_divCount (s : State) : (tickStep s).divCount = s.divCount := by
  unfold tickStep; split <;> simp
@[simp] theorem tickStep_swingStaged (s : State) : (tickStep s).swingStaged = s.swingStaged := by
  unfold tickStep; split <;> simp
@[simp] theorem tickStep_statusErr (s : State) : (tickStep s).statusErr = s.statusErr := by
  unfold tickStep; split <;> simp
@[simp] theorem tickStep_rdata (s : State) : (tickStep s).rdata = s.rdata := by
  unfold tickStep; split <;> simp
@[simp] theorem tickStep_inputs (s : State) : (tickStep s).inputs = s.inputs := by
  unfold tickStep; split <;> simp

/-- "adds one modulo `LIMIT`" while running; a no-op while stopped (R22, R81). -/
theorem tickStep_tickCounter (s : State) :
    (tickStep s).tickCounter = if s.running then tadd s.tickCounter 1 else s.tickCounter := by
  unfold tickStep; split <;> simp_all

theorem tickStep_stopped {s : State} (h : s.running = false) : tickStep s = s := by
  simp [tickStep, h]

/-! ### The loops, channel by channel -/

theorem handle_ch_other {now : BitVec 16} {c d : Chan} (h : d ≠ c) (s : State) : (handle now c s).ch[d] = s.ch[d] :=
  putChannel_ch_other h _ _

@[simp] theorem handle_ch_same (now : BitVec 16) (c : Chan) (s : State) :
    (handle now c s).ch[c] = (handleChannel s.cfg s.swt now s.ch[c] s.entropy).1 := putChannel_ch_same _ _ _

theorem timelineReset_ch_other {now : BitVec 16} {c d : Chan} (h : d ≠ c) (s : State) :
    (timelineReset now c s).ch[d] = s.ch[d] := putChannel_ch_other h _ _

@[simp] theorem timelineReset_ch_same (now : BitVec 16) (c : Chan) (s : State) :
    (timelineReset now c s).ch[c] = (timelineChannel s.cfg now s.ch[c] s.entropy).1 := putChannel_ch_same _ _ _

theorem applyCfg_ch_other {now : BitVec 16} {c d : Chan} (h : d ≠ c) (s : State) :
    (applyCfg now c s).ch[d] = s.ch[d] :=
  (timelineReset_ch_other h _).trans (copyStaged_ch_other h _)

@[simp] theorem applyCfg_ch_same (now : BitVec 16) (c : Chan) (s : State) :
    (applyCfg now c s).ch[c] =
      (timelineChannel s.cfg now { s.ch[c] with conf := s.stg[c].conf } s.entropy).1 := by
  rw [applyCfg, timelineReset_ch_same, copyStaged_ch_same]; rfl

theorem dispatch_ch_other {now : BitVec 16} {c d : Chan} (h : d ≠ c) (s : State) :
    (dispatch now c s).ch[d] = s.ch[d] := by
  unfold dispatch; split
  · exact handle_ch_other h s
  · rfl

/-- "A channel is dispatched only when `TickCounter` equals its `nextTime`" (R90): what the dispatch pass makes of one
channel. -/
theorem dispatchAll_at (now : BitVec 16) (c : Chan) (s : State) :
    ∃ e : Entropy, (dispatchAll now s).ch[c] =
      if due now s.ch[c] then (handleChannel s.cfg s.swt now s.ch[c] e).1 else s.ch[c] := by
  obtain ⟨t, hg, hv, h⟩ := forChannels_at (f := dispatch now) (fun t => (t.cfg, t.swt)) (fun t c => t.ch[c])
    (fun _ _ => by simp) (fun _ _ _ h => dispatch_ch_other h _) c s
  simp only [Prod.mk.injEq] at hg
  refine ⟨t.entropy, h.trans ?_⟩
  simp only [dispatch, hv]
  split
  · rw [handle_ch_same, hg.1, hg.2, hv]
  · exact hv

theorem barCommitChannel_ch_other {now : BitVec 16} {c d : Chan} (h : d ≠ c) (s : State) :
    (barCommitChannel now c s).ch[d] = s.ch[d] := by
  unfold barCommitChannel
  dsimp only
  split
  · split
    · exact (handle_ch_other h _).trans (applyCfg_ch_other h s)
    · exact applyCfg_ch_other h s
  · rfl

theorem barCommitChannel_stg (now : BitVec 16) (c : Chan) (s : State) :
    (barCommitChannel now c s).stg[c] = { s.stg[c] with ready := false } := by
  unfold barCommitChannel
  dsimp only
  split
  · split <;> simp
  · rename_i h
    cases hs : s.stg[c]
    simp_all

theorem barCommitChannel_stg_other {now : BitVec 16} {c d : Chan} (h : d ≠ c) (s : State) :
    (barCommitChannel now c s).stg[d] = s.stg[d] := by
  unfold barCommitChannel
  dsimp only
  split
  · split
    · exact setReady_stg_other h false (applyCfg now c s)
    · exact setReady_stg_other h false (applyCfg now c s)
  · rfl

/-- The bar gate's effect on one live record: untouched unless ready; else the staged configuration, its timeline reset
at `now`, and its first event handled where that falls at `now` (R125). -/
theorem barCommit_at (now : BitVec 16) (c : Chan) (s : State) :
    ∃ e e' : Entropy, (barCommit now s).ch[c] =
      if s.stg[c].ready then
        let x := (timelineChannel s.cfg now { s.ch[c] with conf := s.stg[c].conf } e).1
        if x.nextTime = now then (handleChannel s.cfg (commitSwingIfReady s).swt now x e').1 else x
      else s.ch[c] := by
  obtain ⟨t, hg, hv, h⟩ := forChannels_at (f := barCommitChannel now) (fun t => (t.cfg, t.swt))
    (fun t c => (t.ch[c], t.stg[c])) (fun _ _ => by simp)
    (fun _ _ _ h => Prod.ext (barCommitChannel_ch_other h _) (barCommitChannel_stg_other h _)) c (commitSwingIfReady s)
  simp only [Prod.mk.injEq, commitSwingIfReady_ch, commitSwingIfReady_stg, commitSwingIfReady_cfg] at hg hv
  have h1 := congrArg Prod.fst h
  simp only at h1
  refine ⟨t.entropy, (setReady c false (applyCfg now c t)).entropy, h1.trans ?_⟩
  have hx : (setReady c false (applyCfg now c t)).ch[c] =
      (timelineChannel s.cfg now { s.ch[c] with conf := s.stg[c].conf } t.entropy).1 := by
    rw [← hv.1, ← hv.2, ← hg.1]
    exact applyCfg_ch_same now c t
  unfold barCommitChannel
  dsimp only
  rw [hv.2, hx]
  split
  · split
    · rw [handle_ch_same, hx]
      simp only [setReady_cfg, applyCfg_cfg, setReady_swt, applyCfg_swt, hg.1, hg.2]
    · exact hx
  · exact hv.1

/-- The bar gate clears every ready flag and leaves the staged configurations (R125). -/
theorem barCommit_stg (now : BitVec 16) (c : Chan) (s : State) :
    (barCommit now s).stg[c] = { s.stg[c] with ready := false } := by
  obtain ⟨t, -, hv, h⟩ := forChannels_at (f := barCommitChannel now) (fun _ => ()) (fun t c => t.stg[c])
    (fun _ _ => rfl) (fun _ _ _ h => barCommitChannel_stg_other h _) c (commitSwingIfReady s)
  exact h.trans ((barCommitChannel_stg _ _ _).trans (by rw [hv, commitSwingIfReady_stg]))

theorem stopCommitChannel_ch (c : Chan) (s : State) :
    (stopCommitChannel c s).ch[c] = { s.ch[c] with conf := if s.stg[c].ready then s.stg[c].conf else s.ch[c].conf } := by
  unfold stopCommitChannel; split <;> simp_all

theorem stopCommitChannel_ch_other {c d : Chan} (h : d ≠ c) (s : State) :
    (stopCommitChannel c s).ch[d] = s.ch[d] := by
  unfold stopCommitChannel; split
  · exact copyStaged_ch_other h s
  · rfl

theorem stopCommitChannel_stg (c : Chan) (s : State) :
    (stopCommitChannel c s).stg[c] = { s.stg[c] with ready := false } := by
  unfold stopCommitChannel; split
  · simp
  · cases hs : s.stg[c]; simp_all

theorem stopCommitChannel_stg_other {c d : Chan} (h : d ≠ c) (s : State) :
    (stopCommitChannel c s).stg[d] = s.stg[d] := by
  unfold stopCommitChannel; split
  · exact setReady_stg_other h false (copyStaged c s)
  · rfl

/-- STOP's copies: each ready record becomes the live configuration, each flag is cleared (R87). -/
theorem stopCommits_at (c : Chan) (s : State) :
    (forChannels stopCommitChannel s).ch[c] =
        { s.ch[c] with conf := if s.stg[c].ready then s.stg[c].conf else s.ch[c].conf } ∧
      (forChannels stopCommitChannel s).stg[c] = { s.stg[c] with ready := false } := by
  obtain ⟨t, -, hv, h⟩ := forChannels_at (f := stopCommitChannel) (fun _ => ()) (fun t c => (t.ch[c], t.stg[c]))
    (fun _ _ => rfl) (fun _ _ _ h => Prod.ext (stopCommitChannel_ch_other h _) (stopCommitChannel_stg_other h _)) c s
  simp only [Prod.mk.injEq] at hv h
  rw [h.1, h.2, stopCommitChannel_ch, stopCommitChannel_stg, hv.1, hv.2]
  exact ⟨rfl, rfl⟩

/-- STOP's timeline resets, channel by channel (R87, R100). -/
theorem timelineResets_at (now : BitVec 16) (c : Chan) (s : State) :
    ∃ e : Entropy, (forChannels (timelineReset now) s).ch[c] = (timelineChannel s.cfg now s.ch[c] e).1 := by
  obtain ⟨t, hg, hv, h⟩ := forChannels_at (f := timelineReset now) (fun t => t.cfg) (fun t c => t.ch[c])
    (fun _ _ => rfl) (fun _ _ _ h => timelineReset_ch_other h _) c s
  exact ⟨t.entropy, h.trans (by rw [timelineReset_ch_same, hg, hv])⟩

/-! ### Legal records stay legal -/

/-- Every live record is legal. -/
abbrev LiveLegal (s : State) : Prop := ∀ c : Chan, s.ch[c].Legal s.cfg s.cfg.cap[c]

/-- Every staged record is legal. -/
abbrev StagedLegal (s : State) : Prop := ∀ c : Chan, s.stg[c].Legal s.cfg.cap[c]

theorem dispatchAll_legal {now : BitVec 16} {s : State} (hw : s.cfg.Wf) (h : LiveLegal s) :
    LiveLegal (dispatchAll now s) := by
  intro c
  obtain ⟨e, he⟩ := dispatchAll_at now c s
  rw [he, dispatchAll_cfg]
  split
  · exact handleChannel_legal hw (h c)
  · exact h c

/-- A committed channel is legal after the bar gate (R121, R125). -/
theorem barCommit_legal {now : BitVec 16} {s : State} (hw : s.cfg.Wf) (h : LiveLegal s) (hs : StagedLegal s) :
    LiveLegal (barCommit now s) ∧ StagedLegal (barCommit now s) := by
  refine ⟨fun c => ?_, fun c => ?_⟩
  · obtain ⟨e, e', he⟩ := barCommit_at now c s
    rw [he, barCommit_cfg]
    have ht : ∀ e, (timelineChannel s.cfg now { s.ch[c] with conf := s.stg[c].conf } e).1.Legal s.cfg s.cfg.cap[c] :=
      fun e => timelineChannel_legal hw (hs c).1 (hs c).2
    dsimp only
    split
    · split
      · exact handleChannel_legal hw (ht e)
      · exact ht e
    · exact h c
  · rw [barCommit_stg, barCommit_cfg]
    exact hs c

theorem barGate_legal {now : BitVec 16} {s : State} (hw : s.cfg.Wf) (h : LiveLegal s) (hs : StagedLegal s) :
    LiveLegal (barGate now s) ∧ StagedLegal (barGate now s) := by
  unfold barGate
  split
  · exact barCommit_legal hw h hs
  · exact ⟨h, hs⟩

/-- The bar gate clears ready flags and sets none (R56). -/
theorem barGate_ready {now : BitVec 16} {s : State} {c : Chan} (h : (barGate now s).stg[c].ready = true) :
    s.stg[c].ready = true := by
  unfold barGate at h
  split at h
  · rw [barCommit_stg] at h; cases h
  · exact h

/-- The bar gate leaves the staged configurations (R42). -/
theorem barGate_stg_conf (now : BitVec 16) (s : State) (c : Chan) :
    (barGate now s).stg[c].conf = s.stg[c].conf := by
  unfold barGate
  split
  · rw [barCommit_stg]
  · rfl

/-- What the swing commit leaves: either nothing changed, or the staged amount is live with its table (R116). -/
theorem commitSwingIfReady_cases (s : State) :
    (s.swingReady = false ∧ commitSwingIfReady s = s) ∨
      (s.swingReady = true ∧ commitSwingIfReady s = swingCommit s) := by
  unfold commitSwingIfReady
  cases s.swingReady <;> simp

theorem barGate_cases (now : BitVec 16) (s : State) :
    (barBoundary now = false ∧ barGate now s = s) ∨ (barBoundary now = true ∧ barGate now s = barCommit now s) := by
  unfold barGate
  cases barBoundary now <;> simp

/-- Step (3) writes `TickCounter` only. -/
theorem tickStep_of_running {s : State} (h : s.running = true) :
    tickStep s = { barGate s.tickCounter (dispatchAll s.tickCounter s) with tickCounter := tadd s.tickCounter 1 } := by
  simp [tickStep, h]

/-- The tick step keeps the invariants (R22 to R38). -/
theorem tickStep_inv {s : State} (h : s.Inv) : (tickStep s).Inv := by
  cases hr : s.running
  · rw [tickStep_stopped hr]; exact h
  · rw [tickStep_of_running hr]
    have hd : LiveLegal (dispatchAll s.tickCounter s) := dispatchAll_legal h.cfgWf h.liveLegal
    have hds : StagedLegal (dispatchAll s.tickCounter s) := fun c => by simpa using h.stagedLegal c
    have hb := barGate_legal (now := s.tickCounter) (s := dispatchAll s.tickCounter s) (by simpa using h.cfgWf) hd hds
    have sw : (barGate s.tickCounter (dispatchAll s.tickCounter s)).swingLive.toNat ≤ s.cfg.swingMax.toNat ∧
        (barGate s.tickCounter (dispatchAll s.tickCounter s)).swt =
          swingTable (barGate s.tickCounter (dispatchAll s.tickCounter s)).swingLive := by
      rcases barGate_cases s.tickCounter (dispatchAll s.tickCounter s) with ⟨-, e⟩ | ⟨-, e⟩ <;> rw [e]
      · simpa using ⟨h.swingLiveLegal, h.swtIsTable⟩
      · rw [barCommit_swingLive, barCommit_swt]
        rcases commitSwingIfReady_cases (dispatchAll s.tickCounter s) with ⟨-, e⟩ | ⟨-, e⟩ <;> rw [e]
        · simpa using ⟨h.swingLiveLegal, h.swtIsTable⟩
        · simpa using h.swingStagedLegal
    exact {
      cfgWf := by simpa using h.cfgWf
      tickBelowLimit := tadd_lt _ _
      stoppedAtZero := by simp [hr]
      tempoReqLegal := by simpa using h.tempoReqLegal
      tempoActiveLegal := by simpa using h.tempoActiveLegal
      divCountBelow := by simpa using h.divCountBelow
      swingLiveLegal := by simpa using sw.1
      swingStagedLegal := by simpa using h.swingStagedLegal
      swtIsTable := sw.2
      swingReadyRunning := by simp [hr]
      readyRunning := by simp [hr]
      liveLegal := hb.1
      stagedLegal := hb.2 }

end Sys2Proof.Machine
end

