-- ==== Sys2Proof/Laws/Steps.lean ====
section
/-! SUPPORT. What each shared operation of a step can do, said once: the registers it may write, the channel it
changes, the error bits it sets. -/

namespace Sys2Proof.Machine

theorem mem_chans (c : Chan) : c ∈ chans := by revert c; decide

/-! ### The registers an operation may write (R42) -/

/-- The dispatch pass writes live records, the trace and the entropy input only. -/
theorem dispatchAll_shape (now : BitVec 16) (s : State) :
    ∃ ch out e, dispatchAll now s = { s with ch := ch, out := out, entropy := e } := by
  refine forChannels_keeps (fun t => ∃ ch out e, t = { s with ch := ch, out := out, entropy := e }) ?_ ⟨_, _, _, rfl⟩
  rintro c _ ⟨ch, out, e, rfl⟩
  unfold dispatch
  split <;> exact ⟨_, _, _, rfl⟩

/-- The timeline resets write live records, the trace and the entropy input only. -/
theorem timelineResets_shape (now : BitVec 16) (s : State) :
    ∃ ch out e, forChannels (timelineReset now) s = { s with ch := ch, out := out, entropy := e } := by
  refine forChannels_keeps (fun t => ∃ ch out e, t = { s with ch := ch, out := out, entropy := e }) ?_ ⟨_, _, _, rfl⟩
  rintro c _ ⟨ch, out, e, rfl⟩
  exact ⟨_, _, _, rfl⟩

/-- STOP's copies write live and staged records only. -/
theorem stopCommits_shape (s : State) :
    ∃ ch stg, forChannels stopCommitChannel s = { s with ch := ch, stg := stg } := by
  refine forChannels_keeps (fun t => ∃ ch stg, t = { s with ch := ch, stg := stg }) ?_ ⟨_, _, rfl⟩
  rintro c _ ⟨ch, stg, rfl⟩
  unfold stopCommitChannel
  split <;> exact ⟨_, _, rfl⟩

/-- The swing commit writes the live swing, its table and the ready flag only (R116). -/
theorem commitSwingIfReady_shape (s : State) :
    ∃ a b c, commitSwingIfReady s = { s with swingLive := a, swt := b, swingReady := c } := by
  unfold commitSwingIfReady
  split <;> exact ⟨_, _, _, rfl⟩

/-- After the swing commit, the bar gate writes live and staged records, the trace and the entropy input only. -/
theorem barCommit_shape (now : BitVec 16) (s : State) :
    ∃ ch stg out e, barCommit now s =
      { commitSwingIfReady s with ch := ch, stg := stg, out := out, entropy := e } := by
  unfold barCommit
  generalize commitSwingIfReady s = u
  refine forChannels_keeps (fun t => ∃ ch stg out e, t = { u with ch := ch, stg := stg, out := out, entropy := e }) ?_
    ⟨_, _, _, _, rfl⟩
  rintro c _ ⟨ch, stg, out, e, rfl⟩
  unfold barCommitChannel
  dsimp only
  split <;> [split; skip] <;> exact ⟨_, _, _, _, rfl⟩

/-- The registers the tick step may write (R42, R81). -/
theorem tickStep_shape (s : State) :
    ∃ tc a b c ch stg out e, tickStep s =
      { s with
        tickCounter := tc, swingLive := a, swt := b, swingReady := c, ch := ch, stg := stg, out := out
        entropy := e } := by
  by_cases hr : s.running = true
  · rw [tickStep_of_running hr]
    obtain ⟨ch, out, e, h⟩ := dispatchAll_shape s.tickCounter s
    rw [h]
    rcases barGate_cases s.tickCounter { s with ch := ch, out := out, entropy := e } with ⟨-, h2⟩ | ⟨-, h2⟩ <;> rw [h2]
    · exact ⟨_, _, _, _, _, _, _, _, rfl⟩
    · obtain ⟨_, _, _, _, h3⟩ := barCommit_shape s.tickCounter { s with ch := ch, out := out, entropy := e }
      obtain ⟨_, _, _, h4⟩ := commitSwingIfReady_shape { s with ch := ch, out := out, entropy := e }
      rw [h3, h4]
      exact ⟨_, _, _, _, _, _, _, _, rfl⟩
  · rw [tickStep_stopped (by simpa using hr)]
    exact ⟨_, _, _, _, _, _, _, _, rfl⟩

/-- The registers STOP may write (R87). -/
theorem execStop_shape (s : State) :
    ∃ a b c ch stg out e, execStop s = .next
      { s with
        running := false, tickCounter := 0, divCount := 0, swingLive := a, swt := b, swingReady := c, ch := ch
        stg := stg, out := out, entropy := e } := by
  unfold execStop
  dsimp only
  obtain ⟨a, b, c, h⟩ := commitSwingIfReady_shape { s with running := false, tickCounter := 0, divCount := 0 }
  rw [h]
  obtain ⟨ch, stg, h⟩ := stopCommits_shape
    { s with running := false, tickCounter := 0, divCount := 0, swingLive := a, swt := b, swingReady := c }
  rw [h]
  obtain ⟨_, _, _, h⟩ := timelineResets_shape 0
    { s with
      running := false, tickCounter := 0, divCount := 0, swingLive := a, swt := b, swingReady := c, ch := ch
      stg := stg }
  rw [h]
  exact ⟨_, _, _, _, _, _, _, rfl⟩

/-! ### One channel in a tick (R89, R90) -/

theorem exec_stepTick_host {s : State} (h : s.cfg.tickSource = .host) : exec .stepTick s = .next (tickStep s) := by
  simp [exec, execStepTick, h]

theorem due_of {now : BitVec 16} {x : Channel} {k : EventKind} (hk : x.nextKind = k) (hn : k ≠ .none)
    (ht : x.nextTime = now) : due now x = true := by
  subst hk; simp [due, ht, hn]

theorem not_due_of_ne {now : BitVec 16} {x : Channel} (h : x.nextTime ≠ now) : due now x = false := by
  rw [due, beq_false_of_ne h, Bool.and_false]

theorem not_due_of_none {now : BitVec 16} {x : Channel} (h : x.nextKind = .none) : due now x = false := by
  rw [due, h]; rfl

theorem barGate_away {now : BitVec 16} (h : now.toNat % 768 ≠ 0) (s : State) : barGate now s = s := by
  have : barBoundary now = false := by simpa [barBoundary] using h
  simp [barGate, this]

theorem barGate_on {now : BitVec 16} (h : now.toNat % 768 = 0) (s : State) : barGate now s = barCommit now s := by
  have : barBoundary now = true := by simpa [barBoundary] using h
  simp [barGate, this]

theorem tickStep_ch {s : State} (hr : s.running = true) :
    (tickStep s).ch = (barGate s.tickCounter (dispatchAll s.tickCounter s)).ch := by
  rw [tickStep_of_running hr]

theorem tickStep_stg {s : State} (hr : s.running = true) :
    (tickStep s).stg = (barGate s.tickCounter (dispatchAll s.tickCounter s)).stg := by
  rw [tickStep_of_running hr]

theorem tickStep_out {s : State} (hr : s.running = true) :
    (tickStep s).out = (barGate s.tickCounter (dispatchAll s.tickCounter s)).out := by
  rw [tickStep_of_running hr]

theorem tickStep_entropy {s : State} (hr : s.running = true) :
    (tickStep s).entropy = (barGate s.tickCounter (dispatchAll s.tickCounter s)).entropy := by
  rw [tickStep_of_running hr]

/-- Away from a bar boundary the tick step is the dispatch pass and the increment (R81). -/
theorem tickStep_away {s : State} (hr : s.running = true) (hb : s.tickCounter.toNat % 768 ≠ 0) :
    tickStep s = { dispatchAll s.tickCounter s with tickCounter := tadd s.tickCounter 1 } := by
  rw [tickStep_of_running hr, barGate_away hb]

/-- Away from a bar boundary a tick handles a channel's event where it is due, and else leaves the channel (R90). -/
theorem tickStep_away_at {s : State} (hr : s.running = true) (hb : s.tickCounter.toNat % 768 ≠ 0) (c : Chan) :
    ∃ e : Entropy, (tickStep s).ch[c] =
      if due s.tickCounter s.ch[c] then (handleChannel s.cfg s.swt s.tickCounter s.ch[c] e).1 else s.ch[c] := by
  rw [tickStep_ch hr, barGate_away hb]
  exact dispatchAll_at _ _ _

theorem handleChannel_gateOpen {cfg : Config} {swt : Vector (BitVec 8) 6} {now : BitVec 16} {x : Channel} {e : Entropy}
    (h : x.nextKind = .gateOpen) : handleChannel cfg swt now x e = gateOpen cfg now x e := by
  simp only [handleChannel, h]

theorem handleChannel_gateClose {cfg : Config} {swt : Vector (BitVec 8) 6} {now : BitVec 16} {x : Channel} {e : Entropy}
    (h : x.nextKind = .gateClose) : handleChannel cfg swt now x e = gateClose cfg swt now x e := by
  simp only [handleChannel, h]

theorem handleChannel_pwmTick {cfg : Config} {swt : Vector (BitVec 8) 6} {now : BitVec 16} {x : Channel} {e : Entropy}
    (h : x.nextKind = .pwmTick) : handleChannel cfg swt now x e = pwmTick cfg now x e := by
  simp only [handleChannel, h]

/-! ### ELIGIBILITY by kind (R96) -/

/-- The bit test is the bit (R95). -/
theorem bitTest_eq (p : Word) (i : Nat) : bitTest p i = p.getLsbD i := by
  have h : (p >>> i) &&& 1 = (BitVec.ofBool (p.getLsbD i)).setWidth 32 := by
    ext j hj
    by_cases hj0 : j = 0
    · subst hj0; simp
    · simp [hj0]
  rw [bitTest, h]
  cases p.getLsbD i <;> decide

/-- A Euclidean channel tests its bit and steps its index down, from 0 to the last position (R96). -/
theorem eligibility_euclidean {x : Channel} {e : Entropy} (hk : x.conf.kind = .euclidean) (h1 : 1 ≤ x.conf.len.toNat)
    (h32 : x.conf.len.toNat ≤ 32) :
    (eligibility x e).1 = (pattern x.conf).getLsbD x.seqIdx.toNat ∧
      (eligibility x e).2.1.toNat =
        if x.seqIdx.toNat = 0 then x.conf.len.toNat - 1 else x.seqIdx.toNat - 1 := by
  have hlt := x.seqIdx.isLt
  simp only [eligibility, hk, bitTest_eq]
  refine ⟨trivial, ?_⟩
  by_cases hz : x.seqIdx = 0
  · have hz' : x.seqIdx.toNat = 0 := by simp [hz]
    rw [if_pos hz, if_pos hz', BitVec.toNat_ofNat]
    omega
  · have hz' : x.seqIdx.toNat ≠ 0 := fun h => hz (BitVec.eq_of_toNat_eq (by simpa using h))
    rw [if_neg hz, if_neg hz', BitVec.toNat_sub]
    simp
    omega

/-- A RandomTrigger channel with a pattern tests its bit and steps its index up, back to 0 at the end (R96). -/
theorem eligibility_random_pattern {x : Channel} {e : Entropy} (hk : x.conf.kind = .randomTrigger)
    (h1 : 1 ≤ x.conf.len.toNat) (h32 : x.conf.len.toNat ≤ 32) :
    (eligibility x e).1 = (pattern x.conf).getLsbD x.seqIdx.toNat ∧
      (eligibility x e).2.1.toNat = (x.seqIdx.toNat + 1) % x.conf.len.toNat := by
  have hz : x.conf.len ≠ 0 := fun h => by rw [h] at h1; simp at h1
  have := Nat.mod_lt (x.seqIdx.toNat + 1) (show 0 < x.conf.len.toNat from h1)
  simp only [eligibility, hk, hz, if_false, bitTest_eq]
  refine ⟨trivial, ?_⟩
  simp
  omega

/-- A live RandomTrigger channel draws a percentage against `prob` and keeps its index (R96). -/
theorem eligibility_random_live {x : Channel} {e : Entropy} (hk : x.conf.kind = .randomTrigger) (h0 : x.conf.len = 0) :
    eligibility x e = (decide ((drawPercent e).1 < x.conf.prob.toNat), x.seqIdx, (drawPercent e).2) := by
  simp only [eligibility, hk, h0, if_true]

/-! ### Durations and swing -/

theorem delayTicks_zero (cfg : Config) : delayTicks cfg 0 = 0 := by simp [delayTicks]

theorem delayTicks_bounds {cfg : Config} (hw : cfg.Wf) {j : Fin 14} (h : j ≠ 0) :
    3 ≤ delayTicks cfg j ∧ delayTicks cfg j ≤ 16384 := by
  have hj : j.val ≠ 0 := fun e => h (Fin.ext e)
  simp only [delayTicks, dif_neg hj]
  exact ⟨div_ge hw ⟨j.val - 1, by omega⟩, div_le hw ⟨j.val - 1, by omega⟩⟩

theorem swingOffset_swingable {swt : Vector (BitVec 8) 6} {clk : Fin 13} (h : clk.val < 6) :
    swingOffset swt clk = some swt[clk.val].toNat := by
  simp only [swingOffset, nSwing_eq]; rw [dif_pos h]

theorem swingOffset_other {swt : Vector (BitVec 8) 6} {clk : Fin 13} (h : 6 ≤ clk.val) : swingOffset swt clk = none := by
  simp only [swingOffset, nSwing_eq]; rw [dif_neg (by omega)]

/-! ### The error bits and READ (R27, R129) -/

theorem setErr_cmdErrBit (s : State) :
    cmdErr (setErr cmdErrBit s) = true ∧ busyErr (setErr cmdErrBit s) = busyErr s := by
  simp only [cmdErr, busyErr, setErr_statusErr, cmdErrBit, busyErrBit]
  generalize s.statusErr = v
  revert v; decide

theorem setErr_busyErrBit (s : State) :
    busyErr (setErr busyErrBit s) = true ∧ cmdErr (setErr busyErrBit s) = cmdErr s := by
  simp only [cmdErr, busyErr, setErr_statusErr, cmdErrBit, busyErrBit]
  generalize s.statusErr = v
  revert v; decide

/-- Only the reserved selectors have no value (R128). -/
theorem readValue_eq_none {s : State} {sel : BitVec 4} {c : Chan} : readValue s sel c = none ↔ 14 ≤ sel.toNat := by
  have sixteen : ∀ v : BitVec 4, v.toNat ∈ List.range 16 := by decide
  have h := sixteen sel
  unfold readValue
  generalize sel.toNat = n at h
  simp only [List.mem_range] at h
  interval_cases n <;> simp

/-- The ready bits of STATUS (R129). -/
theorem readyBits_getLsbD (s : State) (j : Nat) (hj : j < 8) : (readyBits s).getLsbD j = s.stg[j].ready := by
  simp only [readyBits, chans, List.foldl, stagedReady]
  interval_cases j <;> simp [flagBit]

/-! ### The output trace (R39) -/

/-- The levels of channel `c`. -/
def levelsOf (s : State) (c : Chan) : Bool × BitVec 8 := (s.ch[c].gateLevel, s.ch[c].pwmLevel)

/-- The events of one channel in the trace. -/
def eventsOf (s : State) (c : Chan) : List OutEvent := s.out.filter fun ev => ev.chan = c

/-- The levels of channel `c` in the order the trace shows them, from those of `s0` on. -/
def shown (s0 s : State) (c : Chan) : List (Bool × BitVec 8) :=
  levelsOf s0 c :: (eventsOf s c).map fun ev => (ev.gate, ev.pwm)

/-- The trace of `s` accounts for the levels of `s`, from those of `s0` on: each event of a channel shows levels other than
those before it, and the last levels shown are the channel's. -/
def TraceFrom (s0 s : State) : Prop := ∀ c : Chan,
  (shown s0 s c).IsChain (· ≠ ·) ∧ (shown s0 s c).getLast? = some (levelsOf s c)

theorem emission_filter_other {c d : Chan} (h : d ≠ c) (old new : Channel) :
    (emission c old new).filter (fun ev => decide (ev.chan = d)) = [] := by
  unfold emission
  split
  · rfl
  · simp [show ¬ c = d from fun e => h e.symm]

theorem emission_filter_same (c : Chan) (old new : Channel) :
    (emission c old new).filter (fun ev => decide (ev.chan = c)) = emission c old new := by
  unfold emission
  split <;> simp

@[simp] theorem putChannel_events_same (c : Chan) (x : Channel × Entropy) (s : State) :
    eventsOf (putChannel c x s) c = eventsOf s c ++ emission c s.ch[c] x.1 := by
  simp only [eventsOf, putChannel_out, List.filter_append, emission_filter_same]

theorem putChannel_events_other {c d : Chan} (h : d ≠ c) (x : Channel × Entropy) (s : State) :
    eventsOf (putChannel c x s) d = eventsOf s d := by
  simp only [eventsOf, putChannel_out, List.filter_append, emission_filter_other h, List.append_nil]

/-- Every write of a live record keeps the trace in step with the levels. -/
theorem putChannel_traceFrom {s0 s : State} {c : Chan} {x : Channel × Entropy} (h : TraceFrom s0 s) :
    TraceFrom s0 (putChannel c x s) := by
  intro d
  by_cases hd : d = c
  · subst hd
    obtain ⟨hch, hlast⟩ := h d
    have hl : levelsOf (putChannel d x s) d = (x.1.gateLevel, x.1.pwmLevel) := by
      rw [levelsOf, putChannel_ch_same]
    rw [shown, putChannel_events_same, List.map_append, ← List.cons_append, hl]
    change ((shown s0 s d) ++ _).IsChain _ ∧ ((shown s0 s d) ++ _).getLast? = _
    unfold emission
    split
    · rename_i he
      rw [levelsOf, he.1, he.2] at hlast
      simpa using ⟨hch, hlast⟩
    · rename_i he
      refine ⟨?_, by simp⟩
      rw [List.map_singleton, List.isChain_append]
      refine ⟨hch, List.isChain_singleton _, ?_⟩
      intro a ha b hb
      rw [hlast] at ha
      simp only [List.head?_cons, Option.mem_def, Option.some.injEq] at ha hb
      subst ha hb
      exact fun e => he (Prod.mk.injEq .. ▸ e)
  · rw [shown, putChannel_events_other hd, levelsOf, levelsOf, putChannel_ch_other hd]
    exact h d

theorem TraceFrom.of_levels {s0 s t : State} (h : TraceFrom s0 s) (ho : t.out = s.out)
    (hc : ∀ c : Chan, t.ch[c].gateLevel = s.ch[c].gateLevel ∧ t.ch[c].pwmLevel = s.ch[c].pwmLevel) :
    TraceFrom s0 t := by
  intro c
  rw [shown, eventsOf, ho, levelsOf, levelsOf, (hc c).1, (hc c).2]
  exact h c

theorem TraceFrom.of_ch {s0 s t : State} (h : TraceFrom s0 s) (ho : t.out = s.out) (hc : t.ch = s.ch) :
    TraceFrom s0 t :=
  h.of_levels ho fun c => by rw [hc]; exact ⟨rfl, rfl⟩

/-- A copy of the configuration changes no level. -/
theorem copyStaged_traceFrom {s0 s : State} {c : Chan} (h : TraceFrom s0 s) : TraceFrom s0 (copyStaged c s) := by
  refine h.of_levels rfl fun d => ?_
  by_cases hd : d = c
  · subst hd; rw [copyStaged_ch_same]; exact ⟨rfl, rfl⟩
  · rw [copyStaged_ch_other hd]; exact ⟨rfl, rfl⟩

theorem dispatch_events_other {now : BitVec 16} {c d : Chan} (h : d ≠ c) (s : State) :
    eventsOf (dispatch now c s) d = eventsOf s d := by
  unfold dispatch
  split
  · exact putChannel_events_other h _ _
  · rfl

/-- The dispatch pass on one channel, with its events: a due channel's rule is applied once and emits once, exactly if a
level changed (R39, R89). -/
theorem dispatchAll_events_at (now : BitVec 16) (c : Chan) (s : State) :
    ∃ e : Entropy,
      (dispatchAll now s).ch[c] =
        (if due now s.ch[c] then (handleChannel s.cfg s.swt now s.ch[c] e).1 else s.ch[c]) ∧
      eventsOf (dispatchAll now s) c = eventsOf s c ++ emission c s.ch[c] (dispatchAll now s).ch[c] := by
  obtain ⟨t, hg, hv, h⟩ := forChannels_at (f := dispatch now) (fun t => (t.cfg, t.swt))
    (fun t c => (t.ch[c], eventsOf t c)) (fun _ _ => by simp)
    (fun _ _ _ h => Prod.ext (dispatch_ch_other h _) (dispatch_events_other h _)) c s
  simp only [Prod.mk.injEq] at hg hv h
  have h1 : (dispatchAll now s).ch[c] = (dispatch now c t).ch[c] := h.1
  have h2 : eventsOf (dispatchAll now s) c = eventsOf (dispatch now c t) c := h.2
  refine ⟨t.entropy, ?_, ?_⟩
  · rw [h1, ← hg.1, ← hg.2, ← hv.1]
    unfold dispatch
    split
    · rw [handle_ch_same]
    · rfl
  · rw [h2, h1, ← hv.1, ← hv.2]
    unfold dispatch
    split
    · rw [handle_ch_same]
      exact putChannel_events_same _ _ _
    · simp [emission]

theorem barCommitChannel_events_other {now : BitVec 16} {c d : Chan} (h : d ≠ c) (s : State) :
    eventsOf (barCommitChannel now c s) d = eventsOf s d := by
  have ha : eventsOf (applyCfg now c s) d = eventsOf s d := (putChannel_events_other h _ _).trans rfl
  unfold barCommitChannel
  dsimp only
  split
  · split
    · exact (putChannel_events_other h _ _).trans ha
    · exact ha
  · rfl

/-- The bar gate leaves the trace of a channel that is not ready. -/
theorem barCommit_events_other {now : BitVec 16} {c : Chan} {s : State} (h : s.stg[c].ready = false) :
    eventsOf (barCommit now s) c = eventsOf s c := by
  obtain ⟨t, -, hv, hf⟩ := forChannels_at (f := barCommitChannel now) (fun _ => ())
    (fun t c => (t.stg[c], eventsOf t c)) (fun _ _ => rfl)
    (fun _ _ _ h => Prod.ext (barCommitChannel_stg_other h _) (barCommitChannel_events_other h _)) c (commitSwingIfReady s)
  simp only [Prod.mk.injEq, commitSwingIfReady_stg] at hv hf
  have h2 : eventsOf (barCommit now s) c = eventsOf (barCommitChannel now c t) c := hf.2
  have hn : barCommitChannel now c t = t := by
    unfold barCommitChannel
    rw [hv.1, h]
    rfl
  rw [h2, hn, hv.2]
  simp [eventsOf]

/-! ### The invariants, operation by operation -/

/-- The trace and the coming inputs are in no invariant. -/
theorem inv_of_input {s : State} (h : s.Inv) (l : List Input) : State.Inv { s with inputs := l, out := [] } :=
  { h with cfgWf := h.cfgWf }

/-- A staging command whose operands were clamped keeps the invariants (R121). -/
theorem stageRecord_inv {s : State} (h : s.Inv) (c : Chan) (r : Record)
    (hk : kindCode r.kind ≤ kindCode s.cfg.cap[c]) (hs : 1 ≤ r.steps.toNat ∧ r.steps.toNat ≤ 32)
    (hl : r.len.toNat ≤ 32) (hp : r.prob.toNat ≤ 100) : (stageRecord c r s).Inv := by
  have hst : ∀ d : Chan, (stageRecord c r s).stg[d].Legal s.cfg.cap[d] := by
    intro d
    by_cases hd : d = c
    · subst hd
      rw [Staged.Legal, stageRecord_conf_same]
      exact staged_legal hk hs hl hp _
    · rw [stageRecord_stg_other hd]; exact h.stagedLegal d
  exact { h with
    readyRunning := fun d hr => by rw [stageRecord_ready] at hr; exact h.readyRunning d hr
    stagedLegal := hst }

/-- Applying a legal staged record keeps the invariants (R124). -/
theorem applyCfg_inv {s : State} (h : s.Inv) (now : BitVec 16) (c : Chan) : (applyCfg now c s).Inv := by
  refine { h with liveLegal := fun d => ?_ }
  by_cases hd : d = c
  · subst hd; rw [applyCfg_ch_same]
    exact timelineChannel_legal h.cfgWf (h.stagedLegal d).1 (h.stagedLegal d).2
  · rw [applyCfg_ch_other hd]; exact h.liveLegal d

/-- A clock cycle of the divider keeps the invariants (R25, R77). -/
theorem dividerCycle_inv {s : State} (h : s.Inv) : (dividerCycle s).Inv := by
  unfold dividerCycle
  split
  · split
    · refine tickStep_inv { h with tempoActiveLegal := h.tempoReqLegal, divCountBelow := ?_ }
      have h1 : divisor s.cfg s.tempoReq.toNat ≤ divisor s.cfg minBpm :=
        divisor_anti _ (by decide) h.tempoReqLegal.1
      have h2 : 1 ≤ divisor s.cfg s.tempoReq.toNat :=
        divisor_pos h.cfgWf (by have := h.tempoReqLegal.1; rw [minBpm_eq] at this; omega) h.tempoReqLegal.2
      dsimp only
      omega
    · exact { h with divCountBelow := by have := h.divCountBelow; dsimp only; omega }
  · exact h

end Sys2Proof.Machine
end

