-- ==== Sys2Proof/Laws/Order.lean ====
section
/-! SUPPORT. The order of the channel loop (R87, R89, R125): the entropy input a channel's turn finds, and the order of the
events the turns append. -/

namespace Sys2Proof.Machine

/-! ### Draws -/

/-- The entropy input after `n` draws. -/
def skip (n : Nat) (e : Entropy) : Entropy := { stream := e.stream.drop n, count := e.count + n }

@[simp] theorem skip_zero (e : Entropy) : skip 0 e = e := rfl

theorem skip_skip (m n : Nat) (e : Entropy) : skip m (skip n e) = skip (n + m) e := by
  simp only [skip, List.drop_drop, Nat.add_assoc]

theorem drawBits32_entropy (e : Entropy) : (drawBits32 e).2 = skip 1 e := by
  unfold drawBits32 skip
  split <;> simp_all

/-- The value of a draw, where the stream has one. -/
theorem drawBits32_value {e : Entropy} {n : Nat} {v : Word} (h : e.stream[n]? = some v) :
    (drawBits32 (skip n e)).1 = v := by
  have hd : e.stream.drop n = v :: e.stream.drop (n + 1) := by
    obtain ⟨hn, rfl⟩ := List.getElem?_eq_some_iff.mp h
    exact List.drop_eq_getElem_cons hn
  unfold drawBits32 skip
  simp only [hd]

/-- The event rule of the pending event draws. -/
def drawsOnEvent (x : Channel) : Bool :=
  decide (x.conf.len = 0 ∧ (x.nextKind = .gateClose ∧ x.conf.kind = .randomTrigger ∨
    x.nextKind = .pwmTick ∧ x.conf.kind = .voltage))

/-- A timeline reset of the record draws. -/
def drawsOnReset (r : Record) : Bool := decide (r.kind = .randomTrigger ∧ r.len = 0)

/-- An event rule draws for a live RandomTrigger channel's GateClose and a free-running Voltage channel's PwmTick only
(R96, R109). -/
theorem handleChannel_entropy (cfg : Config) (swt : Vector (BitVec 8) 6) (now : BitVec 16) (x : Channel) (e : Entropy) :
    (handleChannel cfg swt now x e).2 =
      if drawsOnEvent x then skip 1 e else e := by
  unfold drawsOnEvent
  cases hk : x.nextKind
  · simp [handleChannel, hk]
  · simp [handleChannel, hk, gateOpen]
  · simp only [handleChannel, hk, gateClose, withEligibility, eligibility_entropy, drawBits32_entropy]
    by_cases h1 : x.conf.kind = .randomTrigger <;> by_cases h2 : x.conf.len = 0 <;> simp [h1, h2]
  · simp only [handleChannel, hk, pwmTick, cvLevel]
    cases h1 : x.conf.kind <;> simp [voltLevel]
    split <;> simp_all [drawBits32_entropy]

/-- A timeline reset draws for a live RandomTrigger channel only (R100, R156). -/
theorem timelineChannel_entropy (cfg : Config) (now : BitVec 16) (x : Channel) (e : Entropy) :
    (timelineChannel cfg now x e).2 = if drawsOnReset x.conf then skip 1 e else e := by
  unfold timelineChannel drawsOnReset
  dsimp only
  split
  · simp only [withEligibility, eligibility_entropy, drawBits32_entropy, decide_eq_true_eq]
  · rename_i h
    cases hk : x.conf.kind <;> simp_all [isGateKind]

/-- What a live RandomTrigger channel's GateClose decides from its draw (R96, R98). -/
theorem gateClose_live {cfg : Config} {swt : Vector (BitVec 8) 6} {now : BitVec 16} {x : Channel} {e : Entropy}
    (hk : x.conf.kind = .randomTrigger) (h0 : x.conf.len = 0) :
    (gateClose cfg swt now x e).1.openEligible = decide ((drawBits32 e).1.toNat % 100 < x.conf.prob.toNat) := by
  simp only [gateClose, withEligibility]
  exact congrArg Prod.fst (eligibility_random_live (by exact hk) (by exact h0))

/-- What a live RandomTrigger channel's timeline reset decides from its draw (R96, R100). -/
theorem timelineChannel_live {cfg : Config} {now : BitVec 16} {x : Channel} {e : Entropy}
    (hk : x.conf.kind = .randomTrigger) (h0 : x.conf.len = 0) :
    (timelineChannel cfg now x e).1.openEligible = decide ((drawBits32 e).1.toNat % 100 < x.conf.prob.toNat) := by
  have hg : isGateKind x.conf.kind = true := by rw [hk]; rfl
  simp only [timelineChannel, hg, if_true, withEligibility]
  exact congrArg Prod.fst (eligibility_random_live (by exact hk) (by exact h0))

/-- The level of a Voltage channel without a sequence is its draw's (R109, R143). -/
theorem pwmTick_live {cfg : Config} {now : BitVec 16} {x : Channel} {e : Entropy} (hk : x.conf.kind = .voltage)
    (h0 : x.conf.len = 0) : (pwmTick cfg now x e).1.pwmLevel.toNat = 1 + (drawBits32 e).1.toNat % 255 := by
  simp only [pwmTick, cvLevel, voltLevel, hk, h0, if_true, drawLevel_toNat]

/-! ### The random-trigger generator (R102) -/

/-- One draw per step. -/
theorem rtrigFrom_entropy (p m j : Nat) (acc : Word) (e : Entropy) : (rtrigFrom p m j acc e).2 = skip m e := by
  induction m generalizing j acc e with
  | zero => rfl
  | succ m ih => rw [rtrigFrom, ih, drawPercent_entropy, drawBits32_entropy, skip_skip, Nat.add_comm]

/-- Step `i` decides bit `j + i` by the `i`-th value of the stream. -/
theorem rtrigFrom_getLsbD_inside (p m j : Nat) (acc : Word) (e : Entropy) {i : Nat} {v : Word} (hi : i < m)
    (h32 : j + i < 32) (hacc : acc.getLsbD (j + i) = false) (hv : e.stream[i]? = some v) :
    (rtrigFrom p m j acc e).1.getLsbD (j + i) = decide (v.toNat % 100 < p) := by
  induction m generalizing j acc e i with
  | zero => omega
  | succ m ih =>
    rw [rtrigFrom]
    cases i with
    | zero =>
      rw [rtrigFrom_getLsbD_outside _ _ _ _ _ (Or.inl (by omega))]
      have h1 : (drawPercent e).1 = v.toNat % 100 := by
        have := drawBits32_value (n := 0) hv
        rw [skip_zero] at this
        rw [drawPercent, this]
      rw [h1, Nat.add_zero] at *
      split
      · rename_i hlt
        simp [h32, hlt]
      · rename_i hlt
        rw [hacc]
        simp [hlt]
    | succ i =>
      have := ih (j + 1) (if (drawPercent e).1 < p then acc ||| (1#32 <<< j) else acc) (drawPercent e).2 (i := i)
        (by omega) (by omega) ?_ ?_
      · rw [show j + 1 + i = j + (i + 1) by omega] at this
        exact this
      · rw [show j + 1 + i = j + (i + 1) by omega]
        split
        · rw [BitVec.getLsbD_or, hacc, Bool.false_or, BitVec.getLsbD_shiftLeft, BitVec.getLsbD_one]
          simp
        · exact hacc
      · rw [drawPercent_entropy, drawBits32_entropy]
        simp only [skip, List.getElem?_drop]
        rw [Nat.add_comm]
        exact hv

/-! ### The draws of a loop -/

/-- A loop whose turns draw once or not at all, by a view of the channel that no other turn writes: the entropy input after
it. -/
theorem foldl_draws {α β : Type} {f : Chan → State → State} (g : State → β) (view : State → Chan → α)
    (global : ∀ c s, g (f c s) = g s) (other : ∀ c d s, c ≠ d → view (f d s) c = view s c) (draws : Chan → Bool)
    (s : State) (turn : ∀ c t, g t = g s → view t c = view s c →
      (f c t).entropy = if draws c then skip 1 t.entropy else t.entropy) :
    ∀ (l : List Chan) (t : State), l.Nodup → g t = g s → (∀ c ∈ l, view t c = view s c) →
      (l.foldl (fun t c => f c t) t).entropy = skip (l.filter draws).length t.entropy := by
  intro l
  induction l with
  | nil => intro t _ _ _; rfl
  | cons c l ih =>
    intro t hn hg hv
    obtain ⟨hc, hn⟩ := List.nodup_cons.mp hn
    rw [List.foldl_cons, ih (f c t) hn ((global c t).trans hg) fun d hd =>
      (other d c t fun e => hc (e ▸ hd)).trans (hv d (List.mem_cons_of_mem c hd)),
      turn c t hg (hv c List.mem_cons_self)]
    cases h : draws c <;> simp [h, skip_skip, Nat.add_comm]

/-- A channel's turn finds the entropy input after the draws of the channels before it, and everything of its own as it was
before the loop. -/
theorem forChannels_at_draws {α β : Type} {f : Chan → State → State} (g : State → β) (view : State → Chan → α)
    (global : ∀ c s, g (f c s) = g s) (other : ∀ c d s, c ≠ d → view (f d s) c = view s c) (draws : Chan → Bool)
    (s : State) (turn : ∀ c t, g t = g s → view t c = view s c →
      (f c t).entropy = if draws c then skip 1 t.entropy else t.entropy) :
    (forChannels f s).entropy = skip ((List.finRange 8).filter draws).length s.entropy ∧
    ∀ c : Chan, ∃ t, g t = g s ∧ view t c = view s c ∧ view (forChannels f s) c = view (f c t) c ∧
      ∃ n ≤ ((List.finRange 8).filter draws).length, t.entropy = skip n s.entropy ∧
        ∀ k : Nat, ((List.finRange 8).filter draws)[k]? = some c → k = n := by
  have hl : chans = List.finRange 8 := by decide
  have glob : ∀ (l : List Chan) (u : State), g (l.foldl (fun t d => f d t) u) = g u := by
    intro l
    induction l with
    | nil => intro u; rfl
    | cons d l ih => intro u; exact (ih _).trans (global d u)
  refine ⟨?_, fun c => ?_⟩
  · rw [forChannels, hl]
    exact foldl_draws g view global other draws s turn _ _ (List.nodup_finRange 8) rfl fun _ _ => rfl
  · obtain ⟨a, b, hab⟩ := List.append_of_mem (List.mem_finRange c)
    have nodup : (a ++ c :: b).Nodup := hab ▸ List.nodup_finRange 8
    have hfn : ((a ++ c :: b).filter draws).Nodup := nodup.filter _
    rw [List.nodup_append] at nodup
    have hca : c ∉ a := fun h => nodup.2.2 c h c (by simp) rfl
    refine ⟨a.foldl (fun t d => f d t) s, glob a s, foldl_view_other view other c a hca s, ?_, (a.filter draws).length,
      by rw [hab]; simp, foldl_draws g view global other draws s turn _ _ nodup.1 rfl fun _ _ => rfl, fun k hk => ?_⟩
    · simp only [forChannels, hl, hab, List.foldl_append, List.foldl_cons]
      exact foldl_view_other view other c b (List.nodup_cons.mp nodup.2.1).1 _
    · rw [hab] at hk
      obtain ⟨hlt, hget⟩ := List.getElem?_eq_some_iff.mp hk
      have hd : draws c = true := by
        have := List.getElem_mem hlt
        rw [hget] at this
        exact (List.mem_filter.mp this).2
      have hlt' : (a.filter draws).length < ((a ++ c :: b).filter draws).length := by simp [hd]
      have hget' : ((a ++ c :: b).filter draws)[(a.filter draws).length] = c := by simp [hd]
      exact (List.getElem_inj hfn).mp (hget.trans hget'.symm)

/-- The draws of the dispatch pass: one for each due channel whose event rule draws, in ascending order; each channel is handled
on the entropy input after the draws of those before it (R89). -/
theorem dispatchAll_draws (now : BitVec 16) (s : State) (l : List Chan)
    (hl : l = (List.finRange 8).filter fun c => due now s.ch[c] && drawsOnEvent s.ch[c]) :
    (dispatchAll now s).entropy = skip l.length s.entropy ∧
    ∀ c : Chan, ∃ n ≤ l.length, (∀ k : Nat, l[k]? = some c → k = n) ∧ (dispatchAll now s).ch[c] =
      if due now s.ch[c] then (handleChannel s.cfg s.swt now s.ch[c] (skip n s.entropy)).1 else s.ch[c] := by
  subst hl
  obtain ⟨he, hc⟩ := forChannels_at_draws (f := dispatch now) (fun t => (t.cfg, t.swt)) (fun t c => t.ch[c])
    (fun _ _ => by simp) (fun _ _ _ h => dispatch_ch_other h _) (fun c => due now s.ch[c] && drawsOnEvent s.ch[c]) s
    (fun c t _ hv => by
      unfold dispatch
      rw [← hv]
      by_cases hd : due now t.ch[c] = true
      · rw [if_pos hd, hd, Bool.true_and]
        exact handleChannel_entropy _ _ _ _ _
      · rw [if_neg hd, Bool.eq_false_iff.mpr hd]; rfl)
  refine ⟨he, fun c => ?_⟩
  obtain ⟨t, hg, hv, h, n, hle, hn, hk⟩ := hc c
  simp only [Prod.mk.injEq] at hg
  refine ⟨n, hle, hk, h.trans ?_⟩
  unfold dispatch
  rw [hv, ← hn]
  split
  · rw [handle_ch_same, hg.1, hg.2, hv]
  · exact hv

/-- The draws of STOP's timeline resets, one for each live RandomTrigger channel in ascending order (R87, R156). -/
theorem timelineResets_draws (now : BitVec 16) (s : State) (l : List Chan)
    (hl : l = (List.finRange 8).filter fun c => drawsOnReset s.ch[c].conf) :
    (forChannels (timelineReset now) s).entropy = skip l.length s.entropy ∧
    ∀ c : Chan, ∃ n ≤ l.length, (∀ k : Nat, l[k]? = some c → k = n) ∧
      (forChannels (timelineReset now) s).ch[c] = (timelineChannel s.cfg now s.ch[c] (skip n s.entropy)).1 := by
  subst hl
  obtain ⟨he, hc⟩ := forChannels_at_draws (f := timelineReset now) (fun t => t.cfg) (fun t c => t.ch[c])
    (fun _ _ => rfl) (fun _ _ _ h => timelineReset_ch_other h _) (fun c => drawsOnReset s.ch[c].conf) s
    (fun c t _ hv => by rw [← hv]; exact timelineChannel_entropy _ _ _ _)
  refine ⟨he, fun c => ?_⟩
  obtain ⟨t, hg, hv, h, n, hle, hn, hk⟩ := hc c
  exact ⟨n, hle, hk, h.trans (by rw [timelineReset_ch_same, hg, hv, hn])⟩

/-- The bar gate's turn of a ready record draws: on the timeline reset, or on the first event handled at once. -/
def drawsOnCommit (x : Staged) : Bool :=
  x.ready && decide (x.conf.len = 0 ∧
    (x.conf.kind = .randomTrigger ∨ x.conf.kind = .voltage ∧ x.conf.delay.val = 0))

/-- With a start delay a commit draws on the timeline reset only. -/
theorem drawsOnCommit_later {x : Staged} (hr : x.ready = true) (hd : x.conf.delay.val ≠ 0) :
    drawsOnCommit x = drawsOnReset x.conf := by
  simp only [drawsOnCommit, drawsOnReset, hr, hd, Bool.true_and, and_false, or_false, decide_eq_decide]
  exact And.comm

/-- Without one it draws on the reset or on the first event. -/
theorem drawsOnCommit_now {x : Staged} (hr : x.ready = true) (hd : x.conf.delay.val = 0) (e : Entropy) :
    (if drawsOnCommit x then skip 1 e else e) =
      if decide (x.conf.kind = .voltage ∧ x.conf.len = 0) then skip 1 (if drawsOnReset x.conf then skip 1 e else e)
      else if drawsOnReset x.conf then skip 1 e else e := by
  obtain ⟨⟨k, _, _, d, _, l, _, _, _⟩, r⟩ := x
  simp only at hr hd
  cases k <;> by_cases h0 : l = 0 <;> simp [drawsOnCommit, drawsOnReset, hr, hd, h0]

/-- A timeline's first event falls at its start exactly if it has no start delay (R100, R10). -/
theorem timelineChannel_due {cfg : Config} {now : BitVec 16} {x : Channel} {e : Entropy} (hw : cfg.Wf)
    (hn : now.toNat < limit) : (timelineChannel cfg now x e).1.nextTime = now ↔ x.conf.delay.val = 0 := by
  rw [timelineChannel_nextTime]
  constructor
  · intro h
    by_contra h0
    have := delayTicks_bounds hw (j := x.conf.delay) (fun e => h0 (by simp [e]))
    exact tadd_ne now (by omega) (by rw [limit_eq]; omega) h
  · intro h
    have : x.conf.delay = 0 := Fin.ext h
    rw [this, delayTicks_zero]
    apply BitVec.eq_of_toNat_eq
    rw [tadd_toNat, limit_eq, Nat.add_zero, Nat.mod_eq_of_lt (by rwa [limit_eq] at hn)]

theorem timelineChannel_nextKind (cfg : Config) (now : BitVec 16) (x : Channel) (e : Entropy) :
    (timelineChannel cfg now x e).1.nextKind = if isGateKind x.conf.kind then .gateOpen else .pwmTick := by
  unfold timelineChannel; dsimp only; split <;> rfl

/-- The first event of a timeline draws for a Voltage record without a sequence only: a GateOpen draws nothing (R97, R109). -/
theorem drawsOnEvent_timeline (cfg : Config) (now : BitVec 16) (x : Channel) (e : Entropy) :
    drawsOnEvent (timelineChannel cfg now x e).1 = decide (x.conf.kind = .voltage ∧ x.conf.len = 0) := by
  simp only [drawsOnEvent, timelineChannel_conf, timelineChannel_nextKind]
  cases hk : x.conf.kind <;> by_cases h0 : x.conf.len = 0 <;> simp [isGateKind, h0]

/-- The bar gate's turn for a ready record: the staged configuration with its timeline reset, and its first event handled
where that falls at `now` (R125). -/
theorem barCommitChannel_ready {now : BitVec 16} {c : Chan} {s : State} (hr : s.stg[c].ready = true) :
    ((barCommitChannel now c s).ch[c], (barCommitChannel now c s).entropy) =
      let x := timelineChannel s.cfg now { s.ch[c] with conf := s.stg[c].conf } s.entropy
      if x.1.nextTime = now then handleChannel s.cfg s.swt now x.1 x.2 else x := by
  have hx : ((setReady c false (applyCfg now c s)).ch[c], (setReady c false (applyCfg now c s)).entropy) =
      timelineChannel s.cfg now { s.ch[c] with conf := s.stg[c].conf } s.entropy :=
    Prod.ext (applyCfg_ch_same now c s) (by
      change (timelineChannel s.cfg now (copyStaged c s).ch[c] s.entropy).2 = _
      rw [copyStaged_ch_same])
  have h1 := congrArg Prod.fst hx
  have h2 := congrArg Prod.snd hx
  simp only at h1 h2
  unfold barCommitChannel
  dsimp only
  rw [if_pos hr, h1]
  split
  · refine Prod.ext ?_ ?_
    · change (handle now c _).ch[c] = _
      rw [handle_ch_same, h1, h2]; rfl
    · change (handleChannel _ _ _ _ _).2 = _
      rw [h1, h2]; rfl
  · exact hx

/-- The draws of one turn of the bar gate (R125). -/
theorem barCommitChannel_entropy {now : BitVec 16} {c : Chan} {s : State} (hw : s.cfg.Wf) (hn : now.toNat < limit) :
    (barCommitChannel now c s).entropy = if drawsOnCommit s.stg[c] then skip 1 s.entropy else s.entropy := by
  cases hr : s.stg[c].ready
  · unfold barCommitChannel drawsOnCommit
    rw [hr]; rfl
  · have h := congrArg Prod.snd (barCommitChannel_ready (now := now) hr)
    simp only at h
    rw [h]
    by_cases hd : s.stg[c].conf.delay.val = 0
    · rw [if_pos ((timelineChannel_due hw hn).mpr hd), handleChannel_entropy, drawsOnEvent_timeline,
        timelineChannel_entropy]
      exact (drawsOnCommit_now hr hd _).symm
    · rw [if_neg (fun e => hd ((timelineChannel_due hw hn).mp e)), timelineChannel_entropy]
      rw [drawsOnCommit_later hr hd]

/-- The draws of the bar gate, one for each ready record that draws, in ascending order (R125). -/
theorem barCommit_draws {now : BitVec 16} {s : State} (hw : s.cfg.Wf) (hn : now.toNat < limit) (l : List Chan)
    (hl : l = (List.finRange 8).filter fun c => drawsOnCommit s.stg[c]) :
    (barCommit now s).entropy = skip l.length s.entropy ∧
    ∀ c : Chan, ∃ n ≤ l.length, (∀ k : Nat, l[k]? = some c → k = n) ∧
      (s.stg[c].ready = false → (barCommit now s).ch[c] = s.ch[c]) ∧
      (s.stg[c].ready = true → (barCommit now s).ch[c] =
        let x := timelineChannel s.cfg now { s.ch[c] with conf := s.stg[c].conf } (skip n s.entropy)
        if x.1.nextTime = now then (handleChannel s.cfg (commitSwingIfReady s).swt now x.1 x.2).1 else x.1) := by
  subst hl
  obtain ⟨he, hc⟩ := forChannels_at_draws (f := barCommitChannel now) (fun t => (t.cfg, t.swt))
    (fun t c => (t.ch[c], t.stg[c])) (fun _ _ => by simp)
    (fun _ _ _ h => Prod.ext (barCommitChannel_ch_other h _) (barCommitChannel_stg_other h _))
    (fun c => drawsOnCommit s.stg[c]) (commitSwingIfReady s)
    (fun c t hg hv => by
      simp only [Prod.mk.injEq, commitSwingIfReady_cfg, commitSwingIfReady_stg] at hg hv
      rw [← hv.2]
      exact barCommitChannel_entropy (by rw [hg.1]; exact hw) hn)
  rw [commitSwingIfReady_entropy] at he
  refine ⟨he, fun c => ?_⟩
  obtain ⟨t, hg, hv, h, n, hle, hn, hk⟩ := hc c
  simp only [Prod.mk.injEq, commitSwingIfReady_cfg, commitSwingIfReady_stg, commitSwingIfReady_ch,
    commitSwingIfReady_entropy] at hg hv h hn
  refine ⟨n, hle, hk, fun hr => ?_, fun hr => ?_⟩
  · rw [← hv.1]
    refine h.1.trans ?_
    unfold barCommitChannel
    rw [hv.2, hr]; rfl
  · refine h.1.trans ?_
    have hb := congrArg Prod.fst (barCommitChannel_ready (now := now) (c := c) (s := t) (by rw [hv.2]; exact hr))
    simp only at hb
    rw [hb, hv.1, hv.2, hg.1, hg.2, hn]
    dsimp only
    split <;> rfl

/-! ### Events -/

/-- A loop whose turns append events of their own channel only: the events it appends, in the order of the turns, at most
`n` a turn. -/
theorem foldl_out {f : Chan → State → State} (n : Nat)
    (turn : ∀ c t, ∃ l, (f c t).out = t.out ++ l ∧ (∀ ev ∈ l, ev.chan = c) ∧ l.length ≤ n) :
    ∀ (l : List Chan) (s : State), l.Pairwise (· < ·) →
      ∃ es, (l.foldl (fun t c => f c t) s).out = s.out ++ es ∧ (∀ ev ∈ es, ev.chan ∈ l) ∧
        (es.map (·.chan)).Pairwise (· ≤ ·) ∧ (n = 1 → (es.map (·.chan)).Pairwise (· < ·)) := by
  intro l
  induction l with
  | nil => intro s _; exact ⟨[], by simp, by simp, .nil, fun _ => .nil⟩
  | cons c l ih =>
    intro s hp
    obtain ⟨hlt, hp⟩ := List.pairwise_cons.mp hp
    obtain ⟨e1, ho, hc, hn⟩ := turn c s
    obtain ⟨e2, hes, hmem, hle, hst⟩ := ih (f c s) hp
    have cross : ∀ a ∈ e1, ∀ b ∈ e2, a.chan < b.chan := fun a ha b hb => by rw [hc a ha]; exact hlt _ (hmem b hb)
    refine ⟨e1 ++ e2, by rw [List.foldl_cons, hes, ho, List.append_assoc], ?_, ?_, fun h1 => ?_⟩
    · intro ev hev
      rcases List.mem_append.mp hev with h | h
      · rw [hc ev h]; exact List.mem_cons_self
      · exact List.mem_cons_of_mem c (hmem ev h)
    · rw [List.map_append, List.pairwise_append]
      refine ⟨?_, hle, ?_⟩
      · refine List.pairwise_of_forall_mem_list fun a ha b hb => ?_
        obtain ⟨x, hx, rfl⟩ := List.mem_map.mp ha
        obtain ⟨y, hy, rfl⟩ := List.mem_map.mp hb
        simp only [hc x hx, hc y hy, le_refl]
      · intro a ha b hb
        obtain ⟨x, hx, rfl⟩ := List.mem_map.mp ha
        obtain ⟨y, hy, rfl⟩ := List.mem_map.mp hb
        exact (cross x hx y hy).le
    · rw [List.map_append, List.pairwise_append]
      refine ⟨?_, hst h1, ?_⟩
      · subst h1
        match e1, hn with
        | [], _ => exact .nil
        | [x], _ => exact List.pairwise_singleton _ _
      · intro a ha b hb
        obtain ⟨x, hx, rfl⟩ := List.mem_map.mp ha
        obtain ⟨y, hy, rfl⟩ := List.mem_map.mp hb
        exact cross x hx y hy

/-- The events of a loop over all channels stand in ascending channel order (R87, R89, R125). -/
theorem forChannels_out {f : Chan → State → State} (n : Nat)
    (turn : ∀ c t, ∃ l, (f c t).out = t.out ++ l ∧ (∀ ev ∈ l, ev.chan = c) ∧ l.length ≤ n) (s : State) :
    ∃ es, (forChannels f s).out = s.out ++ es ∧ (es.map (·.chan)).Pairwise (· ≤ ·) ∧
      (n = 1 → (es.map (·.chan)).Pairwise (· < ·)) := by
  obtain ⟨es, h, -, h1, h2⟩ := foldl_out n turn chans s (by decide)
  exact ⟨es, h, h1, h2⟩

theorem emission_chan {c : Chan} {old new : Channel} {ev : OutEvent} (h : ev ∈ emission c old new) : ev.chan = c := by
  unfold emission at h
  split at h
  · cases h
  · rw [List.mem_singleton.mp h]

theorem emission_length (c : Chan) (old new : Channel) : (emission c old new).length ≤ 1 := by
  unfold emission; split <;> simp

/-- What one turn of each loop appends to the trace: at most one event of its channel in the dispatch pass and in STOP's resets,
at most two in the bar gate. -/
theorem dispatch_out (now : BitVec 16) (c : Chan) (s : State) :
    ∃ l, (dispatch now c s).out = s.out ++ l ∧ (∀ ev ∈ l, ev.chan = c) ∧ l.length ≤ 1 := by
  unfold dispatch
  split
  · exact ⟨_, putChannel_out _ _ _, fun _ => emission_chan, emission_length _ _ _⟩
  · exact ⟨[], by simp, by simp, by simp⟩

theorem timelineReset_out (now : BitVec 16) (c : Chan) (s : State) :
    ∃ l, (timelineReset now c s).out = s.out ++ l ∧ (∀ ev ∈ l, ev.chan = c) ∧ l.length ≤ 1 :=
  ⟨_, putChannel_out _ _ _, fun _ => emission_chan, emission_length _ _ _⟩

theorem barCommitChannel_out (now : BitVec 16) (c : Chan) (s : State) :
    ∃ l, (barCommitChannel now c s).out = s.out ++ l ∧ (∀ ev ∈ l, ev.chan = c ∧ s.stg[c].ready = true) ∧ l.length ≤ 2 := by
  unfold barCommitChannel
  dsimp only
  split
  · rename_i hr
    obtain ⟨l, ho, hl, hn⟩ := timelineReset_out now c (copyStaged c s)
    have ha : (setReady c false (applyCfg now c s)).out = s.out ++ l := ho
    split
    · refine ⟨l ++ _, (putChannel_out _ _ _).trans (by rw [ha, List.append_assoc]), fun ev h => ⟨?_, hr⟩, ?_⟩
      · exact (List.mem_append.mp h).elim (hl ev) emission_chan
      · have := emission_length c (setReady c false (applyCfg now c s)).ch[c]
          (handleChannel (setReady c false (applyCfg now c s)).cfg (setReady c false (applyCfg now c s)).swt now
            (setReady c false (applyCfg now c s)).ch[c] (setReady c false (applyCfg now c s)).entropy).1
        simp only [List.length_append]
        omega
    · exact ⟨l, ha, fun ev h => ⟨hl ev h, hr⟩, by omega⟩
  · exact ⟨[], by simp, by simp, by simp⟩

/-- Where no record is ready the bar gate commits the swing only (R125). -/
theorem barCommit_none {s : State} (now : BitVec 16) (h : ∀ c : Chan, s.stg[c].ready = false) :
    barCommit now s = commitSwingIfReady s := by
  refine forChannels_keeps (fun t => t = commitSwingIfReady s) ?_ rfl
  rintro c _ rfl
  unfold barCommitChannel
  rw [commitSwingIfReady_stg, h c]
  rfl

/-- Where no record is ready the bar gate leaves live records, trace and entropy input. -/
theorem barGate_none {s : State} (now : BitVec 16) (h : now.toNat % 768 ≠ 0 ∨ ∀ c : Chan, s.stg[c].ready = false) :
    (barGate now s).ch = s.ch ∧ (barGate now s).out = s.out ∧ (barGate now s).entropy = s.entropy := by
  by_cases hb : now.toNat % 768 = 0
  · rw [barGate_on hb, barCommit_none now (h.resolve_left fun e => e hb)]
    exact ⟨commitSwingIfReady_ch s, commitSwingIfReady_out s, commitSwingIfReady_entropy s⟩
  · rw [barGate_away hb]
    exact ⟨rfl, rfl, rfl⟩

/-- The dispatch pass reads no staged record (R126). -/
theorem dispatchAll_with_stg (now : BitVec 16) (s : State) (g : Vector Staged 8) :
    dispatchAll now { s with stg := g } = { dispatchAll now s with stg := g } := by
  suffices ∀ (l : List Chan) (s : State), l.foldl (fun t c => dispatch now c t) { s with stg := g } =
      { l.foldl (fun t c => dispatch now c t) s with stg := g } from this chans s
  intro l
  induction l with
  | nil => intro s; rfl
  | cons c l ih =>
    intro s
    have turn : dispatch now c { s with stg := g } = { dispatch now c s with stg := g } := by
      unfold dispatch
      dsimp only
      split <;> rfl
    rw [List.foldl_cons, List.foldl_cons, turn, ih]

/-- The events of the bar gate follow those before it, in ascending channel order, of ready channels only (R125). -/
theorem barCommit_out (now : BitVec 16) (s : State) :
    ∃ es, (barCommit now s).out = s.out ++ es ∧ (es.map (·.chan)).Pairwise (· ≤ ·) ∧
      ∀ ev ∈ es, s.stg[ev.chan].ready = true := by
  obtain ⟨es, ho, hle, -⟩ := forChannels_out (f := barCommitChannel now) 2
    (fun c t => by
      obtain ⟨l, h1, h2, h3⟩ := barCommitChannel_out now c t
      exact ⟨l, h1, fun ev h => (h2 ev h).1, h3⟩) (commitSwingIfReady s)
  rw [commitSwingIfReady_out] at ho
  refine ⟨es, ho, hle, fun ev hev => ?_⟩
  by_contra hr
  have h := barCommit_events_other (now := now) (c := ev.chan) (s := s) (by simpa using hr)
  have h2 : eventsOf (barCommit now s) ev.chan = eventsOf s ev.chan ++ es.filter fun x => x.chan = ev.chan := by
    simp only [eventsOf, barCommit, ho, List.filter_append]
  rw [h2, List.append_right_eq_self, List.filter_eq_nil_iff] at h
  exact h ev hev (by simp)

@[simp] theorem emission_self (c : Chan) (x : Channel) : emission c x x = [] := by simp [emission]

/-- A timeline starts with its gate closed and its level at 0 (R100). -/
theorem timelineChannel_levels (cfg : Config) (now : BitVec 16) (x : Channel) (e : Entropy) :
    (timelineChannel cfg now x e).1.gateLevel = false ∧ (timelineChannel cfg now x e).1.pwmLevel = 0 := by
  unfold timelineChannel; dsimp only; split <;> exact ⟨rfl, rfl⟩

/-- The bar gate's turn of a ready channel emits for the timeline reset and then for the first event, each exactly if a level
changes (R92, R39). -/
theorem barCommitChannel_events {now : BitVec 16} {c : Chan} {s : State} (hr : s.stg[c].ready = true) :
    ∃ x : Channel, x.gateLevel = false ∧ x.pwmLevel = 0 ∧ eventsOf (barCommitChannel now c s) c =
      eventsOf s c ++ emission c s.ch[c] x ++ emission c x (barCommitChannel now c s).ch[c] := by
  have ha : eventsOf (setReady c false (applyCfg now c s)) c =
      eventsOf s c ++ emission c s.ch[c] (setReady c false (applyCfg now c s)).ch[c] := by
    have h1 : eventsOf (applyCfg now c s) c = eventsOf (copyStaged c s) c ++
        emission c (copyStaged c s).ch[c] (timelineChannel s.cfg now (copyStaged c s).ch[c] s.entropy).1 :=
      putChannel_events_same c (timelineChannel s.cfg now (copyStaged c s).ch[c] s.entropy) (copyStaged c s)
    rw [copyStaged_ch_same] at h1
    have h2 := applyCfg_ch_same now c s
    rw [← h2] at h1
    exact h1
  refine ⟨(setReady c false (applyCfg now c s)).ch[c], ?_, ?_, ?_⟩
  · rw [setReady_ch, applyCfg_ch_same]; exact (timelineChannel_levels _ _ _ _).1
  · rw [setReady_ch, applyCfg_ch_same]; exact (timelineChannel_levels _ _ _ _).2
  · unfold barCommitChannel
    dsimp only
    rw [if_pos hr]
    split
    · rw [handle_ch_same, ← ha]
      exact putChannel_events_same _ _ _
    · rw [emission_self, List.append_nil]
      exact ha

/-- The bar gate on a ready channel, with its events (R92, R125). -/
theorem barCommit_events_ready {now : BitVec 16} {c : Chan} {s : State} (hr : s.stg[c].ready = true) :
    ∃ x : Channel, x.gateLevel = false ∧ x.pwmLevel = 0 ∧ eventsOf (barCommit now s) c =
      eventsOf s c ++ emission c s.ch[c] x ++ emission c x (barCommit now s).ch[c] := by
  obtain ⟨t, -, hv, h⟩ := forChannels_at (f := barCommitChannel now) (fun _ => ())
    (fun t c => (t.ch[c], t.stg[c], eventsOf t c)) (fun _ _ => rfl)
    (fun _ _ _ h => Prod.ext (barCommitChannel_ch_other h _)
      (Prod.ext (barCommitChannel_stg_other h _) (barCommitChannel_events_other h _))) c (commitSwingIfReady s)
  simp only [Prod.mk.injEq, commitSwingIfReady_ch, commitSwingIfReady_stg] at hv h
  obtain ⟨x, h1, h2, h3⟩ := barCommitChannel_events (now := now) (c := c) (s := t) (by rw [hv.2.1]; exact hr)
  refine ⟨x, h1, h2, ?_⟩
  have e1 : eventsOf (barCommit now s) c = eventsOf (barCommitChannel now c t) c := h.2.2
  have e2 : (barCommit now s).ch[c] = (barCommitChannel now c t).ch[c] := h.1
  have e3 : eventsOf (commitSwingIfReady s) c = eventsOf s c := by rw [eventsOf, commitSwingIfReady_out, eventsOf]
  rw [e1, e2, h3, hv.1, hv.2.2, e3]

/-- STOP's timeline resets on one channel, with its events (R87, R39). -/
theorem timelineResets_events_at (now : BitVec 16) (c : Chan) (s : State) :
    eventsOf (forChannels (timelineReset now) s) c =
      eventsOf s c ++ emission c s.ch[c] (forChannels (timelineReset now) s).ch[c] := by
  obtain ⟨t, -, hv, h⟩ := forChannels_at (f := timelineReset now) (fun _ => ()) (fun t c => (t.ch[c], eventsOf t c))
    (fun _ _ => rfl) (fun _ _ _ h => Prod.ext (timelineReset_ch_other h _) (putChannel_events_other h _ _)) c s
  simp only [Prod.mk.injEq] at hv h
  rw [h.1, h.2, ← hv.1, ← hv.2, timelineReset_ch_same]
  exact putChannel_events_same _ _ _

/-! ### The tick step -/

/-- A tick that commits no record is the dispatch pass, for the live records, the trace and the entropy input (R81). -/
theorem tickStep_plain {s : State} (hr : s.running = true)
    (h : s.tickCounter.toNat % 768 ≠ 0 ∨ ∀ c : Chan, s.stg[c].ready = false) :
    (tickStep s).ch = (dispatchAll s.tickCounter s).ch ∧ (tickStep s).out = (dispatchAll s.tickCounter s).out ∧
      (tickStep s).entropy = (dispatchAll s.tickCounter s).entropy := by
  rw [tickStep_ch hr, tickStep_out hr, tickStep_entropy hr]
  exact barGate_none _ (h.imp id fun h c => by rw [dispatchAll_stg]; exact h c)

/-- The same for the state with other staged records, none of them ready. -/
theorem tickStep_withStg {s : State} (hr : s.running = true) (g : Vector Staged 8)
    (hg : ∀ c : Chan, g[c].ready = false) :
    (tickStep { s with stg := g }).ch = (dispatchAll s.tickCounter s).ch ∧
      (tickStep { s with stg := g }).out = (dispatchAll s.tickCounter s).out ∧
      (tickStep { s with stg := g }).entropy = (dispatchAll s.tickCounter s).entropy := by
  obtain ⟨h1, h2, h3⟩ := tickStep_plain (s := { s with stg := g }) hr (Or.inr hg)
  have h := dispatchAll_with_stg s.tickCounter s g
  refine ⟨h1.trans ?_, h2.trans ?_, h3.trans ?_⟩ <;> dsimp only <;> rw [h]

/-- The tick step keeps the trace in step with the levels (R39). -/
theorem tickStep_traceFrom {s0 s : State} (h : TraceFrom s0 s) : TraceFrom s0 (tickStep s) := by
  unfold tickStep
  split
  · refine TraceFrom.of_ch (s := barGate s.tickCounter (dispatchAll s.tickCounter s)) ?_ rfl rfl
    have h1 : TraceFrom s0 (dispatchAll s.tickCounter s) := by
      refine forChannels_keeps _ (fun c u hu => ?_) h
      unfold dispatch
      split
      · exact putChannel_traceFrom hu
      · exact hu
    unfold barGate
    split
    · refine forChannels_keeps _ (fun c u hu => ?_) (h1.of_ch (commitSwingIfReady_out _) (commitSwingIfReady_ch _))
      have ha : TraceFrom s0 (setReady c false (applyCfg s.tickCounter c u)) :=
        (putChannel_traceFrom (copyStaged_traceFrom hu)).of_ch rfl rfl
      unfold barCommitChannel
      dsimp only
      split
      · split
        · exact putChannel_traceFrom ha
        · exact ha
      · exact hu
    · exact h1
  · exact h

end Sys2Proof.Machine
end

