-- ==== Sys2Proof/Laws/PerInstr.lean ====
section
/-! SUPPORT. One lemma per command: the opcode in its word is its row's, and no reserved bit of its row is set (R62 to R68, R70). -/

namespace Sys2Proof.Laws

/-- The row's opcode and the bits of the word its format reserves (R62 to R68). -/
def encodedRow : Instr → BitVec 4 × Word
  | .nop => (0x0, 0x0FFFFFFF)
  | .setTempo _ => (0x1, 0x0FFFFF00)
  | .setSwing _ => (0x2, 0x0FFFFF00)
  | .start => (0x3, 0x0FFFFFFF)
  | .stop => (0x4, 0x0FFFFFFF)
  | .stageTiming _ _ _ _ _ => (0x5, 0x08F8000F)
  | .stagePattern _ _ _ _ => (0x6, 0x08C0C080)
  | .commit _ => (0x7, 0x08FFFFFF)
  | .read _ _ => (0x8, 0x08FFFFF0)
  | .clearErr => (0x9, 0x0FFFFFFF)
  | .stepTick => (0xA, 0x0FFFFFFF)
  | .reservedB => (0xB, 0x0FFFFFFF)
  | .reservedC => (0xC, 0x0FFFFFFF)
  | .reservedD => (0xD, 0x0FFFFFFF)
  | .reservedE => (0xE, 0x0FFFFFFF)
  | .reservedF => (0xF, 0x0FFFFFFF)

namespace EncodedOpcode

/-- The command's word has its row's opcode and its reserved bits are 0. -/
def Statement (i : Instr) : Prop := opField (encode i) = (encodedRow i).1 ∧ encode i &&& (encodedRow i).2 = 0

theorem nop : Statement .nop := ⟨by decide, by decide⟩

theorem setTempo (val : BitVec 8) : Statement (.setTempo val) := by
  unfold Statement; revert val; decide

theorem setSwing (val : BitVec 8) : Statement (.setSwing val) := by
  unfold Statement; revert val; decide

theorem start : Statement .start := ⟨by decide, by decide⟩

theorem stop : Statement .stop := ⟨by decide, by decide⟩

theorem stageTiming (ch : Chan) (kind : BitVec 3) (clk gate delay : BitVec 4) :
    Statement (.stageTiming ch kind clk gate delay) := by
  refine ⟨?_, ?_⟩ <;> simp only [encode, encodedRow, placeCh]
  · iterate 5 refine opField_or_placeField _ _ _ _ ?_ (by decide)
    decide
  · iterate 5 refine and_mask_or_placeField _ _ _ _ ?_ (by decide)
    decide

theorem stagePattern (ch : Chan) (len steps : BitVec 6) (prob : BitVec 7) :
    Statement (.stagePattern ch len steps prob) := by
  refine ⟨?_, ?_⟩ <;> simp only [encode, encodedRow, placeCh]
  · iterate 4 refine opField_or_placeField _ _ _ _ ?_ (by decide)
    decide
  · iterate 4 refine and_mask_or_placeField _ _ _ _ ?_ (by decide)
    decide

theorem commit (ch : Chan) : Statement (.commit ch) := by
  unfold Statement; revert ch; decide

theorem read (ch : Chan) (sel : BitVec 4) : Statement (.read ch sel) := by
  unfold Statement; revert ch sel; decide

theorem clearErr : Statement .clearErr := ⟨by decide, by decide⟩

theorem stepTick : Statement .stepTick := ⟨by decide, by decide⟩

theorem reservedB : Statement .reservedB := ⟨by decide, by decide⟩

theorem reservedC : Statement .reservedC := ⟨by decide, by decide⟩

theorem reservedD : Statement .reservedD := ⟨by decide, by decide⟩

theorem reservedE : Statement .reservedE := ⟨by decide, by decide⟩

theorem reservedF : Statement .reservedF := ⟨by decide, by decide⟩

end EncodedOpcode

end Sys2Proof.Laws
end

