-- ==== Sys2Proof/Laws/Terms.lean ====
section
/-! SUPPORT. The statements' own tables and terms are the model's. -/

namespace Sys2Proof.Claims

open Sys2Proof.Machine

theorem kindNumber_eq (k : Kind) : kindNumber k = kindCode k := by cases k <;> rfl

theorem eventNumber_eq (k : EventKind) : BitVec.ofNat 2 (eventNumber k) = eventCode k := by cases k <;> rfl

theorem gateKind_iff (k : Kind) : GateKind k ↔ isGateKind k = true := by cases k <;> decide

theorem not_gateKind_iff (k : Kind) : ¬ GateKind k ↔ isGateKind k = false := by cases k <;> decide

theorem patternWord_eq (r : Record) : patternWord r = pattern r := rfl

theorem openTime_eq (cfg : Config) (r : Record) : openTime cfg r = openDur cfg r := rfl

theorem closeTime_eq (cfg : Config) (r : Record) : closeTime cfg r = closeDur cfg r := rfl

theorem tickPeriod_eq (cfg : Config) (bpm : Nat) : tickPeriod cfg bpm = divisor cfg bpm := rfl

theorem lengthIndex_eq (x : LenOperand) : lengthIndex x = x.value := by cases x <;> rfl

theorem delayIndex_eq (x : DelayOperand) : delayIndex x = x.value := by cases x <;> rfl

/-- The delay of a start-delay index (R10). -/
theorem delay_eq (cfg : Config) (j : Fin 14) :
    (if h : j.val = 0 then 0 else cfg.div[j.val - 1]) = delayTicks cfg j := rfl

theorem eventsAt_eq (s : State) (c : Chan) : eventsAt s c = eventsOf s c := rfl

/-- The event of a write of a channel's levels (R39). -/
theorem change_eq (c : Chan) (x y : Channel) :
    change c (x.gateLevel, x.pwmLevel) (y.gateLevel, y.pwmLevel) = emission c x y := by
  simp only [change, emission, Prod.mk.injEq]

theorem emitsOnChange_iff (s t : State) (c : Chan) :
    EmitsOnChange s t c ↔ eventsOf t c = eventsOf s c ++ emission c s.ch[c] t.ch[c] := by
  unfold EmitsOnChange levels
  rw [change_eq]
  rfl

/-- A channel list by a Boolean test that says the same. -/
theorem ascending_eq {p : Chan → Prop} [DecidablePred p] {f : Chan → Bool} (h : ∀ c, f c = decide (p c)) :
    ascending p = (List.finRange 8).filter f :=
  List.filter_congr fun c _ => (h c).symm

theorem mem_ascending {p : Chan → Prop} [DecidablePred p] {c : Chan} {k : Nat} (h : (ascending p)[k]? = some c) : p c :=
  of_decide_eq_true (List.mem_filter.mp (List.mem_of_getElem? h)).2

theorem dispatchDraws_eq (s : State) (c : Chan) :
    (due s.tickCounter s.ch[c] && drawsOnEvent s.ch[c]) = decide (DispatchDraws s c) := by
  unfold due drawsOnEvent DispatchDraws
  generalize s.ch[c] = x
  rcases x with ⟨_, _, _, _, nt, nk, _, _, _⟩
  cases nk <;> by_cases h : nt = s.tickCounter <;> simp [h]

theorem commitDraws_eq (s : State) (c : Chan) : drawsOnCommit s.stg[c] = decide (CommitDraws s c) := by
  unfold drawsOnCommit CommitDraws
  generalize s.stg[c] = x
  cases hx : x.ready <;> simp

theorem noneReady_ready (s : State) (c : Chan) : (noneReady s).stg[c].ready = false := by
  simp [noneReady]

/-- The model's table of a swing amount is the one of R111. -/
theorem swingTableOf_swingTable (a : BitVec 8) : SwingTableOf a (swingTable a) := by
  have entry : ∀ i < 6, (swingEntry a i).toNat = if a.toNat = 0 then 0 else max 1 (a.toNat / 2 ^ (5 - i)) := by
    intro i _
    have hz : a = 0 ↔ a.toNat = 0 := ⟨fun h => by simp [h], fun h => BitVec.eq_of_toNat_eq (by simpa using h)⟩
    have := a.isLt
    have : a.toNat / 2 ^ (5 - i) ≤ a.toNat := Nat.div_le_self _ _
    unfold swingEntry
    by_cases h : a.toNat = 0
    · simp [hz.mpr h]
    · rw [if_neg (fun e => h (hz.mp e)), if_neg h, BitVec.toNat_ofNat, Nat.shiftRight_eq_div_pow]
      omega
  intro i
  fin_cases i
  · exact entry 0 (by decide)
  · exact entry 1 (by decide)
  · exact entry 2 (by decide)
  · exact entry 3 (by decide)
  · exact entry 4 (by decide)
  · exact entry 5 (by decide)

end Sys2Proof.Claims
end

