-- ==== Sys2Proof/Tests/Slice0.lean ====
section
/-! SUPPORT. Tests with values from spec/95_test_vectors.md, and for every obligation with hypotheses a witness that meets them. -/

namespace Sys2Proof.Tests

open Sys2Proof.Machine Sys2Proof.Claims

/-! ### Decoding: each constructor from a word written out from its format (R62 to R68; L2.15) -/

theorem test_decode_nop : decode 0b0000_0000000000000000000000000000 = .nop := by decide
theorem test_decode_setTempo : decode 0b0001_11111111111111111111_01111000 = .setTempo 120 := by decide
theorem test_decode_setSwing : decode 0b0010_00000000000000000000_00100000 = .setSwing 32 := by decide
theorem test_decode_start : decode 0b0011_1010101010101010101010101010 = .start := by decide
theorem test_decode_stop : decode 0b0100_0000000000000000000000000000 = .stop := by decide
theorem test_decode_stageTiming :
    decode 0b0101_1_001_00000_110_0100_0011_0010_0000 = .stageTiming 1 6 4 3 2 := by decide
theorem test_decode_stagePattern :
    decode 0b0110_0_101_00_001000_00_000011_0_1100100 = .stagePattern 5 8 3 100 := by decide
theorem test_decode_commit : decode 0b0111_0_110_000000000000000000000000 = .commit 6 := by decide
theorem test_decode_read : decode 0b1000_0_011_00000000000000000000_1011 = .read 3 11 := by decide
theorem test_decode_clearErr : decode 0b1001_0000000000000000000000000000 = .clearErr := by decide
theorem test_decode_stepTick : decode 0b1010_0000000000000000000000000000 = .stepTick := by decide
theorem test_decode_reservedB : decode 0b1011_0000000000000000000000000000 = .reservedB := by decide
theorem test_decode_reservedC : decode 0xC1234567 = .reservedC := by decide
theorem test_decode_reservedD : decode 0b1101_0000000000000000000000000000 = .reservedD := by decide
theorem test_decode_reservedE : decode 0b1110_0000000000000000000000000000 = .reservedE := by decide
theorem test_decode_reservedF : decode 0xFFFFFFFF = .reservedF := by decide
theorem test_decodeTableWord : decodeTableWord 32 0x71000000 = some (.commit 1) := by decide

/-! ### Ill-formed assembler lines (R73): one operand too wide each -/

theorem test_illformed_tempo : (AsmCmd.setTempo 256).wellFormed = false := by decide
theorem test_illformed_swing : (AsmCmd.setSwing 256).wellFormed = false := by decide
theorem test_illformed_timing :
    (AsmCmd.stageTiming 8 1 (.note 6) (.note 5) (.index 0)).wellFormed = false ∧
      (AsmCmd.stageTiming 0 8 (.note 6) (.note 5) (.index 0)).wellFormed = false ∧
      (AsmCmd.stageTiming 0 1 (.index 16) (.note 5) (.index 0)).wellFormed = false ∧
      (AsmCmd.stageTiming 0 1 (.note 6) (.index 16) (.index 0)).wellFormed = false ∧
      (AsmCmd.stageTiming 0 1 (.note 6) (.note 5) (.index 16)).wellFormed = false ∧
      (AsmCmd.stageTiming 7 7 (.index 15) (.index 15) (.index 15)).wellFormed = true := by decide
theorem test_illformed_pattern :
    (AsmCmd.stagePattern 8 0 0 0).wellFormed = false ∧ (AsmCmd.stagePattern 0 64 0 0).wellFormed = false ∧
      (AsmCmd.stagePattern 0 0 64 0).wellFormed = false ∧ (AsmCmd.stagePattern 0 0 0 128).wellFormed = false ∧
      (AsmCmd.stagePattern 7 63 63 127).wellFormed = true := by decide
theorem test_illformed_commit : (AsmCmd.commit 8).wellFormed = false := by decide
theorem test_illformed_read :
    (AsmCmd.read 8 0).wellFormed = false ∧ (AsmCmd.read 0 16).wellFormed = false := by decide
theorem test_illformed_pseudo :
    (AsmCmd.stage 0 8 (.note 6) (.note 5) (.index 0) 8 3 0).wellFormed = false ∧
      (AsmCmd.stage 0 1 (.note 6) (.note 5) (.index 0) 64 3 0).wellFormed = false ∧
      (AsmCmd.config 8 1 (.note 6) (.note 5) (.index 0) 8 3 0).wellFormed = false ∧
      (AsmCmd.config 0 1 (.note 6) (.note 5) (.index 0) 8 3 128).wellFormed = false := by decide

/-! ### Small states -/

/-- The state a command leaves. -/
def after (i : Instr) (s : State) : State :=
  match exec i s with
  | .next t => t
  | .fault _ => s
  | .refused _ => s

/-- The reset state with the transport running at tick `t`. -/
def runningAt (t : BitVec 16) : State := { State.reset with running := true, tickCounter := t }

/-- The state with other words on `rnd_i`. -/
def withDraws (l : List Word) (s : State) : State := { s with entropy := ⟨l, 0⟩ }

/-- The state with `TICK_SOURCE = DIVIDER`. -/
def underDivider (s : State) : State := { s with cfg := { s.cfg with tickSource := .divider } }

/-- The state with one live record changed. -/
def setCh (c : Chan) (x : Channel) (s : State) : State := { s with ch := s.ch.set c x }

/-- The state with one staged record changed. -/
def setStg (c : Chan) (x : Staged) (s : State) : State := { s with stg := s.stg.set c x }

/-- A channel with a configuration and a pending event, its other fields as after reset. -/
def channel (r : Record) (k : EventKind) (t : BitVec 16) : Channel :=
  { Channel.reset with conf := r, nextKind := k, nextTime := t }

/-- A CV channel with a pending PwmTick. -/
def cvChannel (r : Record) (t : BitVec 16) (e : BitVec 14) : Channel :=
  { channel r .pwmTick t with openEligible := false, elapsed := e }

/-- A channel whose GateOpen falls at a bar boundary at which its ready record falls due too. -/
def twiceHandled : State :=
  setStg 3 ⟨{ Record.reset with clk := 4, gate := 3 }, true⟩
    (setCh 3 (channel Record.reset .gateOpen 768) (runningAt 768))

/-! ### One step of each command, with the spec's values -/

theorem test_nop : after .nop (runningAt 5) = runningAt 5 := by decide

theorem test_setTempo_clamps :
    (after (.setTempo 0) State.reset).tempoReq = 30 ∧ (after (.setTempo 250) State.reset).tempoActive = 200 := by
  decide
theorem test_setTempo_running :
    (after (.setTempo 90) (runningAt 5)).tempoReq = 90 ∧ (after (.setTempo 90) (runningAt 5)).tempoActive = 120 := by
  decide

theorem test_setSwing_stopped :
    (after (.setSwing 200) State.reset).swingLive = 47 ∧
      (after (.setSwing 200) State.reset).swt = #v[1, 2, 5, 11, 23, 47] ∧
      (after (.setSwing 31) State.reset).swt = #v[1, 1, 3, 7, 15, 31] := by decide
theorem test_setSwing_running :
    (after (.setSwing 32) (runningAt 5)).swingStaged = 32 ∧ (after (.setSwing 32) (runningAt 5)).swingReady = true ∧
      (after (.setSwing 32) (runningAt 5)).swingLive = 0 := by decide

theorem test_start :
    (after .start State.reset).running = true ∧ (after .start State.reset).tickCounter = 0 ∧
      after .start (runningAt 5) = runningAt 5 := by decide

/-- The pending record of L3.6. -/
def pendingEuclid : Staged where
  conf := withPattern { Record.reset with kind := .euclidean, clk := 4, gate := 3 } 0x8888
  ready := true

theorem test_stop_pending :
    (after .stop (setStg 0 pendingEuclid (runningAt 10))).ch[0] =
        { Channel.reset with conf := pendingEuclid.conf, seqIdx := 14 } ∧
      (after .stop (setStg 0 pendingEuclid (runningAt 10))).stg[0].ready = false ∧
      (after .stop (setStg 0 pendingEuclid (runningAt 10))).tickCounter = 0 := by decide
theorem test_stop_emits :
    (after .stop (setCh 3 { channel Record.reset .gateClose 96 with gateLevel := true } (runningAt 10))).out =
      [⟨3, false, 0⟩] := by decide

theorem test_stageTiming_clamps :
    (after (.stageTiming 5 0 15 15 15) State.reset).stg[5].conf =
      { Record.reset with kind := .clock, clk := 12, gate := 12, delay := 13 } := by decide
theorem test_stageTiming_euclid :
    (after (.stageTiming 5 2 4 9 0) State.reset).stg[5].conf =
      withPattern { Record.reset with kind := .euclidean, clk := 4, gate := 4 } 0x8888 := by decide

/-- L2.7: `0x5207FFF0` on channel 2 from reset. -/
theorem test_stageTiming_draws :
    (after (decode 0x5207FFF0)
      (withDraws [0, 7, 14, 21, 28, 35, 42, 49, 56, 63, 70, 77, 84, 91, 98, 105] State.reset)).stg[2].conf =
      withPattern { Record.reset with kind := .randomTrigger, clk := 12, gate := 12, delay := 13 } 0x80FF := by decide
/-- L2.7: `0x55075500` on channel 5 from reset, then `0x65040100`. -/
theorem test_stageTiming_voltage :
    pattern (after (decode 0x55075500) (withDraws [0x99999999, 0x44332211] State.reset)).stg[5].conf = 0x99999999 ∧
      (after (decode 0x65040100)
        (after (decode 0x55075500) (withDraws [0x99999999, 0x44332211] State.reset))).stg[5].conf =
        withPattern { Record.reset with kind := .voltage, clk := 5, gate := 5, len := 4, steps := 1, prob := 0 } 0x44332211 := by
  decide

theorem test_stagePattern_euclid :
    (after (.stagePattern 5 5 9 10) (setStg 5 { pendingEuclid with ready := false } State.reset)).stg[5].conf =
      withPattern { pendingEuclid.conf with len := 5, steps := 5, prob := 10 } 0x1F := by decide
theorem test_stagePattern_draws :
    pattern (after (.stagePattern 2 16 4 50)
      (setStg 2 ⟨{ Record.reset with kind := .randomTrigger }, false⟩
        (withDraws [0, 7, 14, 21, 28, 35, 42, 49, 56, 63, 70, 77, 84, 91, 98, 105] State.reset))).stg[2].conf =
      0x80FF := by decide

theorem test_commit_stopped :
    (after (.commit 1) (setStg 1 ⟨{ Record.reset with delay := 9 }, false⟩ State.reset)).ch[1] =
      { Channel.reset with conf := { Record.reset with delay := 9 }, nextTime := 768 } := by decide
/-- L2.4: draws 49 and 50 with `prob` 50 give eligible, then not eligible. -/
theorem test_commit_live_draw :
    [49, 50].map (fun v => (after (.commit 1) (withDraws [v]
      (setStg 1 ⟨{ Record.reset with kind := .randomTrigger, len := 0 }, false⟩ State.reset))).ch[1].openEligible) =
      [true, false] := by decide
theorem test_commit_running :
    after (.commit 2) (runningAt 100) = setStg 2 ⟨Record.reset, true⟩ (runningAt 100) := by decide

theorem test_read_reset :
    ([0, 1, 4, 5, 6, 8, 9, 10] : List (BitVec 4)).map (fun sel => (after (.read 3 sel) State.reset).rdata) =
      [0, 0x7878, 0x561, 0x321004, 0x400, 0x10000, 0x561, 0x321004] := by decide
theorem test_read_fields :
    (after (.read 4 6) (setCh 4 { cvChannel { Record.reset with kind := .rampUp } 204 12 with pwmLevel := 15 }
        (runningAt 200))).rdata = 0x000C000F ∧
      (after (.read 0 0) (setStg 2 ⟨Record.reset, true⟩ (runningAt 100))).rdata = 0x401 ∧
      (after (.read 0 8) (setCh 0 (channel Record.reset .gateClose 288) (runningAt 193))).rdata = 0x00020120 := by
  decide

theorem test_clearErr :
    after .clearErr { State.reset with statusErr := 3 } = State.reset := by decide

theorem test_stepTick_swung_close :
    (after .stepTick (setCh 3 { channel { Record.reset with clk := 5, gate := 4 } .gateClose 176 with
        gateLevel := true, swingPhase := true } { runningAt 176 with swingLive := 32, swt := swingTable 32 })).ch[3] =
      { channel { Record.reset with clk := 5, gate := 4 } .gateOpen 192 with swingPhase := false } := by decide
theorem test_stepTick_ramp :
    (after .stepTick (setCh 4 (cvChannel { Record.reset with kind := .rampUp } 54 48) (runningAt 54))).ch[4] =
      { cvChannel { Record.reset with kind := .rampUp } 60 54 with pwmLevel := 127 } := by decide

/-- R89: channel 2 before channel 5, in the trace and in the draws (49 is below `prob` 50, 50 is not). -/
theorem test_stepTick_ascending :
    let r := { Record.reset with kind := Kind.randomTrigger, len := 0 }
    let s := withDraws [49, 50] (setCh 5 { channel r .gateClose 6 with gateLevel := true }
      (setCh 2 { channel r .gateClose 6 with gateLevel := true } (runningAt 6)))
    (after .stepTick s).out = [⟨2, false, 0⟩, ⟨5, false, 0⟩] ∧ (after .stepTick s).ch[2].openEligible = true ∧
      (after .stepTick s).ch[5].openEligible = false := by decide
/-- R92: the GateOpen of the old configuration, the gate-close of the timeline reset, the GateOpen of the new one. -/
theorem test_bar_three_events :
    (after .stepTick twiceHandled).out = [⟨3, true, 0⟩, ⟨3, false, 0⟩, ⟨3, true, 0⟩] := by decide +kernel
/-- L2.8 and R107: a ramp down committed at a bar boundary on the 3-tick clock puts out 255 and stays at `elapsed` 0. -/
theorem test_bar_ramp :
    (after .stepTick (setStg 4 ⟨{ Record.reset with kind := .rampDown, clk := 0, gate := 0 }, true⟩ (runningAt 768))).ch[4] =
      { cvChannel { Record.reset with kind := .rampDown, clk := 0, gate := 0 } 774 0 with pwmLevel := 255 } := by decide +kernel

theorem test_reserved :
    (after .reservedC State.reset) = { State.reset with statusErr := 1 } ∧
      (after .stepTick (underDivider State.reset)) = { underDivider State.reset with statusErr := 1 } := by decide

/-! ### Generators and operators (L1, L2) -/

theorem test_euclid :
    [euclid 3 8, euclid 7 12, euclid 5 16, euclid 3 32, euclid 31 32] =
      [0x92, 0xAB5, 0x8924, 0x80100200, 0xBFFFFFFF] := by decide
theorem test_sine :
    [sine .high 72 96, sine .high 6 96, sine .high 6 3, sine .high 6 768, sine .high 144 384, sine .low 6 96] =
      [128, 245, 255, 255, 37, 10] := by decide +kernel
theorem test_ramp : [ramp 48 96, ramp 18 24, ramp 30 24, ramp 186 384] = [127, 191, 255, 123] := by decide
theorem test_clampKind :
    [clampKind .voltage 0, clampKind .voltage 7, clampKind .randomTrigger 7, clampKind .randomTrigger 4] =
      [.clock, .voltage, .randomTrigger, .randomTrigger] := by decide
theorem test_divisor :
    [divisor { Config.default with fClk := 11520 } 30, divisor { Config.default with fClk := 11520 } 200,
      divisor Config.default 120, divWidth Config.default] = [120, 18, 41666, 18] := by decide

/-! ### Witnesses: states and operands that meet the hypotheses of the obligations, each clause at a boundary -/

/-- A Clock channel shorter than its gate allows, and one with a gate as long as the clock. -/
def shortGate : Record := { Record.reset with clk := 6, gate := 5 }
def fullGate : Record := { Record.reset with clk := 6, gate := 6 }
/-- The longest swingable clock (R112) and the shortest clock of the table. -/
def swingable : Record := { Record.reset with clk := 5, gate := 4 }
def shortest : Record := { Record.reset with clk := 0, gate := 0 }

/-- Channel 4 of a kind with a PwmTick due at tick 6, its waveform at `e`. -/
def pwmDue (k : Kind) (e : BitVec 14) : State :=
  setCh 4 (cvChannel { Record.reset with kind := k, len := 0 } 6 e) (runningAt 6)

/-- A Voltage channel with two samples, at its last index and the end of its cycle. -/
def sequenceEnd : State :=
  setCh 4 { cvChannel (withPattern { Record.reset with kind := .voltage, len := 2 } 0x44332211) 6 186 with seqIdx := 1 }
    (runningAt 6)

/-- A swung channel with a GateClose due at tick 6. -/
def closeDue (r : Record) (phase : Bool) : State :=
  setCh 3 { channel r .gateClose 6 with swingPhase := phase }
    { runningAt 6 with swingLive := 47, swt := swingTable 47 }

/-- A live RandomTrigger channel with a GateClose due at tick 6. -/
def liveClose : State := withDraws [50] (closeDue { Record.reset with kind := .randomTrigger, len := 0 } false)

/-- Two such channels. -/
def twoLive : State :=
  withDraws [49, 50] (setCh 2 (channel { Record.reset with kind := .randomTrigger, len := 0 } .gateClose 6) liveClose)

/-- A live RandomTrigger record and a Voltage record without a sequence, both ready at a bar boundary. -/
def drawingBar : State :=
  withDraws [49, 254] (setStg 1 ⟨{ Record.reset with kind := .randomTrigger, len := 0 }, true⟩
    (setStg 4 ⟨{ Record.reset with kind := .voltage, len := 0 }, true⟩ (runningAt 768)))

/-- Ready CV records without a delay: a ramp on the shortest clock, and a Voltage sequence on a clock longer than 6 ticks. -/
def cvBar : State :=
  setStg 4 ⟨{ Record.reset with kind := .rampDown, clk := 0, gate := 0 }, true⟩
    (setStg 5 ⟨withPattern { Record.reset with kind := .voltage, len := 2 } 0x2211, true⟩ (runningAt 768))

/-- A sine that starts low, its PwmTick due. -/
def lowSine : State :=
  { pwmDue .sine 6 with cfg := { Config.default with sineStart := .low } }

/-- Records at a bar boundary: ready without a delay, ready with one, a ready CV record, and one that is not ready. -/
def barState (t : BitVec 16) : State :=
  setStg 0 pendingEuclid (setStg 1 ⟨{ Record.reset with delay := 13 }, true⟩
    (setStg 4 ⟨{ Record.reset with kind := .sine }, true⟩
      { runningAt t with swingStaged := 47, swingReady := true }))

/-- A stopped state whose channel 1 has a live RandomTrigger record staged. -/
def stoppedRandom : State := setStg 1 ⟨{ Record.reset with kind := .randomTrigger, len := 0 }, false⟩ State.reset

/-- The divider about to tick. -/
def dividerAt (t : BitVec 16) : State := underDivider (runningAt t)

set_option synthInstance.maxSize 1000

theorem inv_reset : State.reset.Inv := by constructor <;> decide
theorem inv_closeDue_late : (closeDue swingable false).Inv := by constructor <;> decide
theorem inv_closeDue_early : (closeDue swingable true).Inv := by constructor <;> decide
theorem inv_closeDue_straight : (closeDue shortGate false).Inv := by constructor <;> decide
theorem inv_closeDue_shortest : (closeDue shortest true).Inv := by constructor <;> decide
theorem inv_ramp_last : (pwmDue .rampUp 180).Inv := by constructor <;> decide
theorem inv_ramp_end : (pwmDue .rampDown 186).Inv := by constructor <;> decide
theorem inv_sequenceEnd : sequenceEnd.Inv := by constructor <;> decide
theorem inv_voltage : (withDraws [254] (pwmDue .voltage 0)).Inv := by constructor <;> decide
theorem inv_bar_first : (barState 0).Inv := by constructor <;> decide
theorem inv_bar_last : (barState 48384).Inv := by constructor <;> decide
theorem inv_liveClose : liveClose.Inv := by constructor <;> decide
theorem inv_twoLive : twoLive.Inv := by constructor <;> decide
theorem inv_drawingBar : drawingBar.Inv := by constructor <;> decide
theorem inv_cvBar : cvBar.Inv := by constructor <;> decide
theorem inv_stoppedRandom_draws : (withDraws [49] stoppedRandom).Inv := by constructor <;> decide
theorem inv_stoppedRandom : stoppedRandom.Inv := by constructor <;> decide
theorem inv_dividerAt : (dividerAt 49151).Inv := by constructor <;> decide

theorem witness_OperandsAreTheirBits :
    decode 0x1FFFFFFF = .setTempo 255 ∧ decode 0x2FFFFFFF = .setSwing 255 ∧
      decode 0x5FFFFFFF = .stageTiming 7 7 15 15 15 ∧ decode 0x6FFFFFFF = .stagePattern 7 63 63 127 ∧
      decode 0x7FFFFFFF = .commit 7 ∧ decode 0x8FFFFFFF = .read 7 15 := by decide
theorem witness_AssembledLinesDecode :
    assemble (.stageTiming 7 7 (.note 12) (.index 15) (.note 12)) = some [0x5707CFD0] ∧
      assemble (.stagePattern 7 63 63 127) = some [0x673F3F7F] ∧
      assemble (.config 7 1 (.note 6) (.note 5) (.index 0) 8 3 100) = some [0x57016500, 0x67080364, 0x77000000] ∧
      assemble (.config 7 1 (.note 6) (.note 5) (.index 0) 64 3 100) = none := by decide
theorem witness_StepRunsTheDecodedCommand :
    (State.reset.withFetchWord 32 0x10000078).inputs = [.command 0x10000078] := by decide
theorem withFetchWord_runs : step (State.reset.withFetchWord 32 0x10000078) = exec (.setTempo 120) State.reset := rfl
theorem witness_SetTempoClamps : (runningAt 5).running = true ∧ State.reset.running = false := by decide
theorem witness_StartStartsTheTransport : (runningAt 5).running = true ∧ State.reset.running = false := by decide
theorem witness_StopResetsEveryTimeline : (barState 0).Inv ∧ stoppedRandom.Inv := ⟨inv_bar_first, inv_stoppedRandom⟩
theorem witness_StopDrawsForLiveRandomTriggersOnly :
    exec .stop twoLive = .next (after .stop twoLive) ∧
      ascending (fun c => (after .stop twoLive).ch[c].conf.kind = .randomTrigger ∧ (after .stop twoLive).ch[c].conf.len = 0) =
        [2, 3] ∧ Takes twoLive [2, 3] 3 50 := ⟨rfl, by decide, 1, rfl, rfl⟩
theorem witness_StepTickNeedsHostAndTransport :
    (underDivider State.reset).cfg.tickSource = .divider ∧ State.reset.cfg.tickSource = .host ∧
      State.reset.running = false := by decide
theorem witness_TickTouchesOnlyDueChannels :
    (runningAt 49151).cfg.tickSource = .host ∧ (runningAt 49151).running = true ∧
      (runningAt 49151).tickCounter.toNat % 768 ≠ 0 ∧ (runningAt 1).tickCounter.toNat % 768 ≠ 0 ∧
      (runningAt 49151).ch[0].nextTime ≠ (runningAt 49151).tickCounter ∧
      (setCh 0 (channel Record.reset .none 1) (runningAt 1)).ch[0].nextKind = .none := by decide
theorem witness_GateOpenEvent :
    DueAt (setCh 0 (channel shortGate .gateOpen 7) (runningAt 7)) 0 .gateOpen ∧
      DueAt (setCh 0 (channel fullGate .gateOpen 7) (runningAt 7)) 0 .gateOpen ∧ DueAt (runningAt 0) 7 .gateOpen := by
  unfold DueAt; decide
theorem witness_GateCloseEvent :
    ((closeDue swingable false).Inv ∧ DueAt (closeDue swingable false) 3 .gateClose) ∧
      ((closeDue swingable true).Inv ∧ DueAt (closeDue swingable true) 3 .gateClose) ∧
      (closeDue shortGate false).Inv ∧ DueAt (closeDue shortGate false) 3 .gateClose := by
  refine ⟨⟨inv_closeDue_late, ?_⟩, ⟨inv_closeDue_early, ?_⟩, inv_closeDue_straight, ?_⟩ <;> (unfold DueAt; decide)
/-- A live RandomTrigger channel is the only one due, with a value on the entropy input. -/
theorem witness_GateCloseEvent_live :
    liveClose.Inv ∧ DueAt liveClose 3 .gateClose ∧ liveClose.ch[3].conf.kind = .randomTrigger ∧
      liveClose.ch[3].conf.len = 0 ∧ liveClose.entropy.stream = [50] ∧
      ∀ d : Chan, d ≠ 3 → liveClose.ch[d].nextTime ≠ liveClose.tickCounter :=
  ⟨inv_liveClose, by unfold DueAt; decide, rfl, rfl, rfl, by decide⟩
theorem witness_PwmTickEvent :
    ((pwmDue .rampUp 180).Inv ∧ DueAt (pwmDue .rampUp 180) 4 .pwmTick) ∧
      ((pwmDue .rampDown 186).Inv ∧ DueAt (pwmDue .rampDown 186) 4 .pwmTick) ∧
      sequenceEnd.Inv ∧ DueAt sequenceEnd 4 .pwmTick := by
  refine ⟨⟨inv_ramp_last, ?_⟩, ⟨inv_ramp_end, ?_⟩, inv_sequenceEnd, ?_⟩ <;> (unfold DueAt; decide)
theorem witness_RampLevels :
    DueAt (pwmDue .rampUp 90) 4 .pwmTick ∧ DueAt (pwmDue .rampDown 96) 4 .pwmTick := by unfold DueAt; decide
theorem witness_SineLevelsAreExact :
    ((pwmDue .sine 72).cfg.Wf ∧ DueAt (pwmDue .sine 72) 4 .pwmTick ∧ (pwmDue .sine 72).ch[4].conf.kind = .sine ∧
        (pwmDue .sine 72).cfg.sineStart = .high) ∧
      lowSine.cfg.Wf ∧ DueAt lowSine 4 .pwmTick ∧ lowSine.ch[4].conf.kind = .sine ∧ lowSine.cfg.sineStart = .low := by
  unfold DueAt; decide
theorem witness_VoltageLevels :
    (sequenceEnd.Inv ∧ DueAt sequenceEnd 4 .pwmTick ∧ sequenceEnd.ch[4].conf.kind = .voltage ∧
        sequenceEnd.ch[4].conf.len ≠ 0) ∧
      (withDraws [254] (pwmDue .voltage 0)).Inv ∧ DueAt (withDraws [254] (pwmDue .voltage 0)) 4 .pwmTick ∧
      (withDraws [254] (pwmDue .voltage 0)).ch[4].conf.len = 0 ∧
      ∀ d : Chan, d ≠ 4 → (withDraws [254] (pwmDue .voltage 0)).ch[d].nextTime ≠
        (withDraws [254] (pwmDue .voltage 0)).tickCounter := by
  refine ⟨⟨inv_sequenceEnd, ?_⟩, inv_voltage, ?_⟩ <;> (unfold DueAt; decide)
theorem witness_PendingEventWaitsForItsTick :
    (runningAt 1).cfg.tickSource = .host ∧ (runningAt 1).running = true ∧ (runningAt 1).tickCounter.toNat < 49152 ∧
      (runningAt 1).ch[0].nextTime.toNat < 49152 ∧ (∀ d : Chan, (runningAt 1).stg[d].ready = false) ∧
      (49151 : Nat) = ((runningAt 1).ch[0].nextTime.toNat + 49152 - (runningAt 1).tickCounter.toNat) % 49152 := by
  decide
theorem witness_EarlySwingCanMissItsTick :
    (closeDue shortest true).Inv ∧ DueAt (closeDue shortest true) 3 .gateClose ∧
      (closeDue shortest true).ch[3].swingPhase = true ∧
      closeTime (closeDue shortest true).cfg (closeDue shortest true).ch[3].conf ≤
        (closeDue shortest true).swt[0].toNat := ⟨inv_closeDue_shortest, by unfold DueAt; decide⟩
theorem witness_FullCycleFromReset : Config.default.Wf ∧ Config.default.tickSource = .host := by decide
theorem witness_EuclideanPatternCounts : (1 ≤ 1 ∧ 1 ≤ 1 ∧ 1 ≤ 32) ∧ (1 ≤ 32 ∧ 32 ≤ 32 ∧ 32 ≤ 32) := by decide
theorem witness_EuclideanPositions : 1 ≤ 3 ∧ 3 ≤ 8 ∧ 8 ≤ 32 := by decide
theorem witness_RandomPatternsFollowTheDraws :
    stoppedRandom.stg[1].ready = false ∧ stoppedRandom.stg[1].conf.kind = .randomTrigger ∧
      stoppedRandom.stg[1].conf.len = 0 ∧ (withDraws [49, 50] stoppedRandom).entropy.stream[1]? = some 50 ∧
      (after (.stagePattern 1 2 1 50) (withDraws [49, 50] stoppedRandom)).stg[1].conf.len = 2 ∧
      (after (.stageTiming 5 7 5 5 0) (withDraws [7] State.reset)).stg[5].conf.kind = .voltage ∧
      (after (.stageTiming 5 7 5 5 0) (withDraws [7] State.reset)).stg[5].conf.len ≠ 0 ∧
      (withDraws [7] State.reset).entropy.stream = [7] := by decide
theorem witness_SetSwingStagesOrApplies : (runningAt 5).running = true ∧ State.reset.running = false := by decide
theorem witness_SwingCommitsAtTheBar :
    (barState 768).cfg.tickSource = .host ∧ (barState 768).running = true ∧ (barState 768).swingReady = true ∧
      (barState 767).tickCounter.toNat % 768 ≠ 0 ∧ (runningAt 768).swingReady = false := by decide
theorem witness_StageTimingNormalizes : State.reset.stg[5].ready = false := by decide
theorem witness_StagePatternNormalizes : State.reset.stg[5].ready = false := by decide
theorem witness_StagingWhileReadyIsRefused : (barState 5).stg[0].ready = true := by decide
theorem witness_CommitWhileRunningSetsReady :
    (barState 5).stg[0].ready = true ∧ (barState 5).running = true ∧ (barState 5).stg[2].ready = false := by decide
theorem witness_CommitWhileStoppedAppliesAtOnce :
    (State.reset.Inv ∧ State.reset.running = false ∧ State.reset.stg[1].conf.kind ≠ .randomTrigger) ∧
      (withDraws [49] stoppedRandom).Inv ∧ (withDraws [49] stoppedRandom).running = false ∧
      (withDraws [49] stoppedRandom).stg[1].conf.kind = .randomTrigger ∧
      (withDraws [49] stoppedRandom).stg[1].conf.len = 0 ∧ (withDraws [49] stoppedRandom).entropy.stream = [49] :=
  ⟨⟨inv_reset, by decide⟩, inv_stoppedRandom_draws, by decide⟩
theorem witness_BarTickAppliesReadyRecords :
    (barState 0).Inv ∧ (barState 48384).Inv ∧
      ∀ s ∈ [barState 0, barState 48384], s.cfg.tickSource = .host ∧ s.running = true ∧
        s.tickCounter.toNat % 768 = 0 ∧ s.stg[0].ready = true ∧ s.stg[0].conf.delay = 0 ∧ s.stg[1].conf.delay = 13 ∧
        ¬ GateKind s.stg[4].conf.kind ∧ s.stg[2].ready = false := ⟨inv_bar_first, inv_bar_last, by decide⟩
theorem witness_BarTickAppliesReadyRecords_cv :
    cvBar.Inv ∧ cvBar.tickCounter.toNat % 768 = 0 ∧ cvBar.stg[4].ready = true ∧ cvBar.stg[5].ready = true ∧
      cvBar.stg[4].conf.delay = 0 ∧ cvBar.cfg.div[cvBar.stg[4].conf.clk] ≤ 6 ∧ ¬ cvBar.cfg.div[cvBar.stg[5].conf.clk] ≤ 6 ∧
      cvBar.stg[5].conf.kind = .voltage ∧ cvBar.stg[5].conf.len ≠ 0 := ⟨inv_cvBar, by decide⟩
theorem witness_ChannelsAreHandledInAscendingOrder :
    (twoLive.Inv ∧ twoLive.cfg.tickSource = .host ∧ twoLive.running = true ∧ twoLive.out = [] ∧
        twoLive.tickCounter.toNat % 768 ≠ 0 ∧ ascending (DispatchDraws twoLive) = [2, 3] ∧ Takes twoLive [2, 3] 3 50) ∧
      (drawingBar.Inv ∧ drawingBar.cfg.tickSource = .host ∧ drawingBar.running = true ∧ drawingBar.out = [] ∧
        drawingBar.tickCounter.toNat % 768 = 0 ∧ ascending (CommitDraws drawingBar) = [1, 4] ∧
        Takes (after .stepTick (noneReady drawingBar)) [1, 4] 4 254) ∧
      exec .stop twoLive = .next (after .stop twoLive) :=
  ⟨⟨inv_twoLive, rfl, rfl, rfl, by decide, by decide, 1, rfl, rfl⟩,
    ⟨inv_drawingBar, rfl, rfl, rfl, rfl, by decide, 1, rfl, by decide +kernel⟩, rfl⟩
theorem witness_StagedRecordsAreInvisibleBeforeTheBar : (runningAt 767).tickCounter.toNat % 768 ≠ 0 := by decide
theorem witness_ReadGlobalSelectors :
    ∀ sel ∈ ([0, 1, 2, 3, 12, 13] : List (BitVec 4)), sel.toNat ≤ 3 ∨ sel.toNat = 12 ∨ sel.toNat = 13 := by decide
theorem witness_ReadChannelSelectors :
    ∀ sel ∈ ([4, 5, 6, 7, 8, 9, 10, 11] : List (BitVec 4)), 4 ≤ sel.toNat ∧ sel.toNat ≤ 11 := by decide
theorem witness_ReadReservedSelectorIsRefused :
    14 ≤ (14 : BitVec 4).toNat ∧ 14 ≤ (15 : BitVec 4).toNat := by decide
theorem witness_ReservedOpcodesSetCmdErrOnly :
    ∀ i ∈ [Instr.reservedB, .reservedC, .reservedD, .reservedE, .reservedF], 0xB ≤ (opcodeOf i).toNat := by decide
theorem witness_DividerCycles :
    (dividerAt 0).divCount = 0 ∧ (dividerAt 0).running = true ∧ (dividerAt 0).cfg.tickSource = .divider ∧
      ({ dividerAt 0 with divCount := 1, inputs := [.clock] } : State).inputs = [.clock] := by decide
theorem witness_DividerTicksAreStepTicks :
    ({ dividerAt 0 with inputs := [.clock] } : State).inputs = [.clock] ∧ (dividerAt 0).running = true ∧
      (dividerAt 0).cfg.tickSource = .divider ∧ (dividerAt 0).divCount = 0 := by decide
theorem witness_TicksAreOneDivisorApart :
    (dividerAt 49151).Inv ∧ (dividerAt 49151).cfg.tickSource = .divider ∧ (dividerAt 49151).running = true ∧
      (dividerAt 49151).divCount = 0 ∧ (dividerAt 49151).inputs = [] := ⟨inv_dividerAt, rfl, rfl, rfl, rfl⟩
theorem witness_ResetValues : State.reset = State.resetWith Config.default ⟨[], 0⟩ [] := rfl
theorem witness_ResetMeetsTheInvariants : Config.default.Wf := by decide
theorem witness_ResetInputRestoresEveryRegister :
    ({ barState 5 with inputs := [.reset] } : State).inputs = [.reset] := by decide
theorem witness_StepKeepsTheInvariants :
    (barState 0).Inv ∧ step (barState 0) = .next (dividerCycle { barState 0 with out := [] }) := ⟨inv_bar_first, rfl⟩
theorem witness_InvariantStatesHaveLegalDurations :
    (closeDue shortest true).Inv ∧ GateKind (closeDue shortest true).ch[3].conf.kind :=
  ⟨inv_closeDue_shortest, .inl rfl⟩
theorem witness_OnlyTicksAndStopWriteTheTickCounter : exec (.commit 0) State.reset = .next (after (.commit 0) State.reset) :=
  rfl
theorem witness_OnlyReadWritesRdata :
    exec .stepTick (runningAt 0) = .next (after .stepTick (runningAt 0)) ∧ (dividerAt 0).inputs.head? ≠ some .reset ∧
      step (dividerAt 0) = .next (dividerCycle { dividerAt 0 with out := [] }) := ⟨rfl, by decide, rfl⟩
theorem witness_ErrorBitsAreStickyAndExact :
    exec (.read 0 15) State.reset = .next (after (.read 0 15) State.reset) ∧
      exec (.stagePattern 0 8 3 0) (barState 5) = .next (after (.stagePattern 0 8 3 0) (barState 5)) := ⟨rfl, rfl⟩
theorem witness_ReadyRecordsAreLocked :
    exec (.stagePattern 0 8 3 0) (barState 5) = .next (after (.stagePattern 0 8 3 0) (barState 5)) ∧
      (barState 5).stg[0].ready = true ∧ exec .stepTick (barState 5) = .next (after .stepTick (barState 5)) ∧
      (after .stepTick (barState 5)).stg[0].ready = true := ⟨rfl, by decide, rfl, by decide⟩
theorem witness_RunningChannelsBelongToTheTick :
    (barState 5).running = true ∧ exec (.commit 2) (barState 5) = .next (after (.commit 2) (barState 5)) := ⟨rfl, rfl⟩
theorem witness_ParametersAreConstant :
    exec .start State.reset = .next (after .start State.reset) ∧
      step State.reset = .next (dividerCycle State.reset) := ⟨rfl, rfl⟩
theorem witness_TraceShowsEveryOutputChange :
    (barState 0).inputs.head? ≠ some .reset ∧
      step ({ barState 0 with inputs := [.command 0xA0000000] } : State) = .next (after .stepTick (barState 0)) ∧
      step ({ twiceHandled with inputs := [.command 0xA0000000] } : State) = .next (after .stepTick twiceHandled) ∧
      (eventsAt (after .stepTick twiceHandled) 3).length = 3 := ⟨by decide, rfl, rfl, by decide +kernel⟩
theorem witness_TickTimeWraps : (49151 : BitVec 16).toNat < 49152 := by decide

end Sys2Proof.Tests
end

section
/-! SUPPORT. The scope of the model: its tick-time operators and its constant parameters. -/

namespace Sys2Proof.Machine

/-! ### The tick-time operators (R14) -/

/-- Below the wrap, `tsub` undoes `tadd`, whatever the duration (R14). -/
theorem tsub_tadd {t : BitVec 16} (ht : t.toNat < limit) (d : Nat) : tsub (tadd t d) d = t := by
  apply BitVec.eq_of_toNat_eq
  rw [tsub_toNat, tadd_toNat]
  simp only [limit_eq] at *
  omega

/-! ### What no step writes (R11, R78) -/

/-- The outcome is a next state with the parameters and the coming inputs of `s`. -/
def KeepsEnvironment (s : State) (r : Result) : Prop := ∃ t, r = .next t ∧ t.cfg = s.cfg ∧ t.inputs = s.inputs

theorem KeepsEnvironment.of_next {s t : State} {r : Result} (h : KeepsEnvironment s r) (ht : r = .next t) :
    t.cfg = s.cfg ∧ t.inputs = s.inputs := by
  obtain ⟨u, hu, hcfg, hinputs⟩ := h
  cases hu.symm.trans ht
  exact ⟨hcfg, hinputs⟩

/-- Every command has a next state, and writes neither the parameters nor the coming inputs. -/
theorem exec_keepsEnvironment (i : Instr) (s : State) : KeepsEnvironment s (exec i s) := by
  cases i with
  | nop | setTempo | clearErr | reservedB | reservedC | reservedD | reservedE | reservedF =>
    exact ⟨_, rfl, rfl, rfl⟩
  | setSwing =>
    simp only [exec, execSetSwing]
    split <;> exact ⟨_, rfl, rfl, rfl⟩
  | start =>
    simp only [exec, execStart]
    split <;> exact ⟨_, rfl, rfl, rfl⟩
  | stop =>
    obtain ⟨_, _, _, _, _, _, _, h⟩ := execStop_shape s
    exact ⟨_, h, rfl, rfl⟩
  | stageTiming =>
    simp only [exec, execStageTiming]
    split <;> exact ⟨_, rfl, rfl, rfl⟩
  | stagePattern =>
    simp only [exec, execStagePattern]
    split <;> exact ⟨_, rfl, rfl, rfl⟩
  | commit =>
    simp only [exec, execCommit]
    split
    · exact ⟨_, rfl, rfl, rfl⟩
    · split <;> exact ⟨_, rfl, rfl, rfl⟩
  | read =>
    simp only [exec, execRead]
    split <;> exact ⟨_, rfl, rfl, rfl⟩
  | stepTick =>
    simp only [exec, execStepTick]
    split
    · exact ⟨_, rfl, tickStep_cfg s, tickStep_inputs s⟩
    · exact ⟨_, rfl, rfl, rfl⟩

@[simp] theorem dividerCycle_cfg (s : State) : (dividerCycle s).cfg = s.cfg := by
  unfold dividerCycle
  split
  · split
    · exact tickStep_cfg _
    · rfl
  · rfl

@[simp] theorem dividerCycle_inputs (s : State) : (dividerCycle s).inputs = s.inputs := by
  unfold dividerCycle
  split
  · split
    · exact tickStep_inputs _
    · rfl
  · rfl

@[simp] theorem takeInput_cfg (s : State) : (takeInput s).2.cfg = s.cfg := by
  unfold takeInput
  split <;> rfl

/-- Taking the environment's next move leaves the moves after it (log 3). -/
@[simp] theorem takeInput_inputs (s : State) : (takeInput s).2.inputs = s.inputs.tail := by
  unfold takeInput
  split <;> simp [*]

/-- Once its input is taken, a step of each of the three kinds writes neither the parameters nor the coming inputs. -/
theorem step_keepsEnvironment (s : State) : KeepsEnvironment (takeInput s).2 (step s) := by
  unfold step
  split
  · exact exec_keepsEnvironment _ _
  · exact ⟨_, rfl, dividerCycle_cfg _, dividerCycle_inputs _⟩
  · exact ⟨_, rfl, rfl, rfl⟩

/-- Settles O56: no command writes the parameters or the coming inputs, and a step takes the first input only. -/
theorem parametersAreConstant : Obligations.ParametersAreConstant := by
  unfold Obligations.ParametersAreConstant
  refine ⟨fun i s t h => (exec_keepsEnvironment i s).of_next h, fun s t h => ?_⟩
  rw [← takeInput_cfg s, ← takeInput_inputs s]
  exact (step_keepsEnvironment s).of_next h

/-- Settles O59: the operators' equations in `Nat`, that `tsub` undoes `tadd`, and the examples of L1.6 by evaluation. -/
theorem tickTimeWraps : Obligations.TickTimeWraps := by
  unfold Obligations.TickTimeWraps
  exact ⟨fun t d => ⟨tadd_toNat t d, tsub_toNat t d, fun ht => tsub_tadd ht d⟩, by decide⟩

end Sys2Proof.Machine
end

section
/-! SUPPORT. What a command and a step can do, said once: the branches of every meaning with their guards, what STOP leaves, and
the three kinds of step. -/

namespace Sys2Proof.Machine

open Sys2Proof.Claims

/-! ### What a command can do -/

/-- STOP before its timeline resets: the transport halted, the swing and the ready records committed (R87). -/
def stopCommitted (s : State) : State :=
  forChannels stopCommitChannel (commitSwingIfReady { s with running := false, tickCounter := 0, divCount := 0 })

/-- The state STOP leaves (R87). -/
def stopped (s : State) : State := forChannels (timelineReset 0) (stopCommitted s)

/-- The outcomes of a command in `s`: one case for each branch of its meaning, with the branch's guard (R85 to R88, R115,
R117 to R123, R128 to R132). -/
inductive CommandEffect (s : State) : Instr → State → Prop
  | nop : CommandEffect s .nop s
  | setTempo (val : BitVec 8) : CommandEffect s (.setTempo val)
      { s with tempoReq := clampTempo val, tempoActive := if s.running then s.tempoActive else clampTempo val }
  | stageSwing (val : BitVec 8) (run : s.running = true) : CommandEffect s (.setSwing val)
      { s with swingStaged := clampSwing s.cfg val, swingReady := true }
  | applySwing (val : BitVec 8) (run : s.running = false) : CommandEffect s (.setSwing val)
      { setSwingLive (clampSwing s.cfg val) s with swingReady := false }
  | startAgain (run : s.running = true) : CommandEffect s .start s
  | start (run : s.running = false) : CommandEffect s .start
      { s with running := true, divCount := 0, tempoActive := s.tempoReq }
  | stop : CommandEffect s .stop (stopped s)
  | timingRefused {c kind clk gate delay} (ready : s.stg[c].ready = true) :
      CommandEffect s (.stageTiming c kind clk gate delay) (setErr busyErrBit s)
  | stageTiming {c kind clk gate delay} (free : s.stg[c].ready = false) :
      CommandEffect s (.stageTiming c kind clk gate delay) (stageRecord c
        { s.stg[c].conf with
          kind := clampKind s.cfg.cap[c] kind, clk := clampLength clk, gate := clampLength gate
          delay := clampDelay delay } s)
  | patternRefused {c len steps prob} (ready : s.stg[c].ready = true) :
      CommandEffect s (.stagePattern c len steps prob) (setErr busyErrBit s)
  | stagePattern {c len steps prob} (free : s.stg[c].ready = false) :
      CommandEffect s (.stagePattern c len steps prob) (stageRecord c
        { s.stg[c].conf with len := clampLen len, steps := clampSteps steps, prob := clampProb prob } s)
  | commitAgain {c} (ready : s.stg[c].ready = true) : CommandEffect s (.commit c) s
  | commitLater {c} (free : s.stg[c].ready = false) (run : s.running = true) :
      CommandEffect s (.commit c) (setReady c true s)
  | commitNow {c} (free : s.stg[c].ready = false) (run : s.running = false) :
      CommandEffect s (.commit c) (applyCfg 0 c s)
  | read {c sel v} (value : readValue s sel c = some v) : CommandEffect s (.read c sel) { s with rdata := v }
  | readRefused {c sel} (value : readValue s sel c = none) :
      CommandEffect s (.read c sel) (setErr cmdErrBit { s with rdata := 0 })
  | clearErr : CommandEffect s .clearErr { s with statusErr := 0 }
  | stepTick (source : s.cfg.tickSource = .host) : CommandEffect s .stepTick (tickStep s)
  | tickRefused (source : s.cfg.tickSource = .divider) : CommandEffect s .stepTick (setErr cmdErrBit s)
  | reserved {i} (opcode : 0xB ≤ (opcodeOf i).toNat) : CommandEffect s i (setErr cmdErrBit s)

/-- Every command has one of the outcomes. -/
theorem exec_commandEffect (i : Instr) (s : State) : ∃ t, exec i s = .next t ∧ CommandEffect s i t := by
  cases i with
  | nop => exact ⟨_, rfl, .nop⟩
  | setTempo val => exact ⟨_, rfl, .setTempo val⟩
  | setSwing val =>
    simp only [exec, execSetSwing]
    split
    · exact ⟨_, rfl, .stageSwing val ‹_›⟩
    · exact ⟨_, rfl, .applySwing val (eq_false_of_ne_true ‹_›)⟩
  | start =>
    simp only [exec, execStart]
    split
    · exact ⟨_, rfl, .startAgain ‹_›⟩
    · exact ⟨_, rfl, .start (eq_false_of_ne_true ‹_›)⟩
  | stop => exact ⟨_, rfl, .stop⟩
  | stageTiming =>
    simp only [exec, execStageTiming]
    split
    · exact ⟨_, rfl, .timingRefused ‹_›⟩
    · exact ⟨_, rfl, .stageTiming (eq_false_of_ne_true ‹_›)⟩
  | stagePattern =>
    simp only [exec, execStagePattern]
    split
    · exact ⟨_, rfl, .patternRefused ‹_›⟩
    · exact ⟨_, rfl, .stagePattern (eq_false_of_ne_true ‹_›)⟩
  | commit =>
    simp only [exec, execCommit]
    split
    · exact ⟨_, rfl, .commitAgain ‹_›⟩
    · have free := eq_false_of_ne_true ‹_›
      split
      · exact ⟨_, rfl, .commitLater free ‹_›⟩
      · exact ⟨_, rfl, .commitNow free (eq_false_of_ne_true ‹_›)⟩
  | read =>
    simp only [exec, execRead]
    split
    · exact ⟨_, rfl, .read ‹_›⟩
    · exact ⟨_, rfl, .readRefused ‹_›⟩
  | clearErr => exact ⟨_, rfl, .clearErr⟩
  | stepTick =>
    simp only [exec, execStepTick]
    split
    · exact ⟨_, rfl, .stepTick ‹_›⟩
    · exact ⟨_, rfl, .tickRefused ‹_›⟩
  | reservedB | reservedC | reservedD | reservedE | reservedF => exact ⟨_, rfl, .reserved (by decide)⟩

theorem CommandEffect.of_exec {i : Instr} {s t : State} (h : exec i s = .next t) : CommandEffect s i t := by
  obtain ⟨u, hu, effect⟩ := exec_commandEffect i s
  cases hu.symm.trans h
  exact effect

/-! ### What a step can do -/

/-- The state a step works on: its input taken, the trace of the step before gone (R39, R54). -/
def inputTaken (s : State) : State := { s with inputs := s.inputs.tail, out := [] }

theorem takeInput_snd (s : State) : (takeInput s).2 = inputTaken s := by
  unfold takeInput
  split <;> simp [inputTaken, *]

/-- A step performs the listed command, a clock cycle, or the reset input (R46, R77, R147). -/
theorem step_cases {s t : State} (h : step s = .next t) :
    (∃ w, s.inputs.head? = some (.command w) ∧ exec (decode w) (inputTaken s) = .next t) ∨
      t = dividerCycle (inputTaken s) ∨ s.inputs.head? = some .reset ∧ t = resetStep (inputTaken s) := by
  unfold step at h
  rw [takeInput_snd] at h
  unfold takeInput at h
  cases hi : s.inputs with
  | nil =>
    simp only [hi] at h ⊢
    cases h
    exact .inr (.inl rfl)
  | cons i rest =>
    simp only [hi] at h ⊢
    cases i with
    | command w => exact .inl ⟨w, rfl, h⟩
    | clock => cases h; exact .inr (.inl rfl)
    | reset => cases h; exact .inr (.inr ⟨rfl, rfl⟩)

/-! ### STOP (R87) -/

theorem stopped_shape (s : State) :
    ∃ a b c ch stg out e, stopped s =
      { s with
        running := false, tickCounter := 0, divCount := 0, swingLive := a, swt := b, swingReady := c, ch := ch
        stg := stg, out := out, entropy := e } := by
  obtain ⟨a, b, c, ch, stg, out, e, h⟩ := execStop_shape s
  exact ⟨a, b, c, ch, stg, out, e, Host.Outcome.next.inj h⟩

@[simp] theorem stopped_rdata (s : State) : (stopped s).rdata = s.rdata := by
  obtain ⟨_, _, _, _, _, _, _, h⟩ := stopped_shape s
  rw [h]

@[simp] theorem stopCommitted_cfg (s : State) : (stopCommitted s).cfg = s.cfg := by
  rw [stopCommitted, forChannels_frame (fun t => t.cfg) stopCommitChannel_cfg, commitSwingIfReady_cfg]

@[simp] theorem stopCommitted_out (s : State) : (stopCommitted s).out = s.out := by
  rw [stopCommitted, forChannels_frame (fun t => t.out) stopCommitChannel_out, commitSwingIfReady_out]

theorem stopCommitted_ch (s : State) (c : Chan) :
    (stopCommitted s).ch[c] =
      { s.ch[c] with conf := if s.stg[c].ready then s.stg[c].conf else s.ch[c].conf } := by
  rw [stopCommitted, (stopCommits_at c _).1, commitSwingIfReady_ch, commitSwingIfReady_stg]

theorem stopCommitted_stg (s : State) (c : Chan) : (stopCommitted s).stg[c] = { s.stg[c] with ready := false } := by
  rw [stopCommitted, (stopCommits_at c _).2, commitSwingIfReady_stg]

/-- STOP clears the channel's ready flag and leaves its staged configuration. -/
theorem stopped_stg (s : State) (c : Chan) : (stopped s).stg[c] = { s.stg[c] with ready := false } := by
  rw [stopped, forChannels_frame (fun t => t.stg) (timelineReset_stg 0), stopCommitted_stg]

/-- STOP starts the channel's timeline afresh, in the staged configuration where that is ready. -/
theorem stopped_ch (s : State) (c : Chan) :
    ∃ e : Entropy, (stopped s).ch[c] =
      (timelineChannel s.cfg 0
        { s.ch[c] with conf := if s.stg[c].ready then s.stg[c].conf else s.ch[c].conf } e).1 := by
  obtain ⟨e, h⟩ := timelineResets_at 0 c (stopCommitted s)
  rw [stopCommitted_ch, stopCommitted_cfg] at h
  exact ⟨e, h⟩

/-- The live swing, its table and the staged-swing flag (R26, R111). -/
def swingOf (s : State) : BitVec 8 × Vector (BitVec 8) 6 × Bool := (s.swingLive, s.swt, s.swingReady)

/-- STOP's loops leave the swing registers as its swing commit makes them. -/
theorem stopped_swing (s : State) : swingOf (stopped s) = swingOf (commitSwingIfReady s) := by
  have resets := forChannels_frame swingOf (f := timelineReset 0) fun _ _ => rfl
  have copies := forChannels_frame swingOf (f := stopCommitChannel) fun _ _ => by simp [swingOf]
  rw [stopped, resets, stopCommitted, copies, commitSwingIfReady, commitSwingIfReady]
  dsimp only
  split <;> rfl

end Sys2Proof.Machine
end

section
/-! SUPPORT. The statements on the registers of 10_state.md: the reset values, the invariants that every step keeps, and who
writes which register. -/

namespace Sys2Proof.Machine

open Sys2Proof.Claims

/-! ### The reset state (R43) -/

theorem resetWith_ch (cfg : Config) (e : Entropy) (l : List Input) (c : Chan) :
    (State.resetWith cfg e l).ch[c] = Channel.reset := by
  simp [State.resetWith]

theorem resetWith_stg (cfg : Config) (e : Entropy) (l : List Input) (c : Chan) :
    (State.resetWith cfg e l).stg[c] = Staged.reset := by
  simp [State.resetWith]

theorem record_reset_legal (cap : Kind) : Record.reset.Legal cap ∧ Record.reset.PatternLegal :=
  ⟨⟨(kindCode_range cap).1, by decide⟩, by decide⟩

theorem channel_reset_legal (cfg : Config) (cap : Kind) : Channel.reset.Legal cfg cap :=
  ⟨(record_reset_legal cap).1, (record_reset_legal cap).2, by decide, by decide, by decide, nofun⟩

/-- The reset registers are legal under every legal parameter set (R43, R9, R76). -/
theorem resetWith_inv {cfg : Config} (h : cfg.Wf) (e : Entropy) (l : List Input) : (State.resetWith cfg e l).Inv where
  cfgWf := h
  tickBelowLimit := (by decide : 0 < limit)
  stoppedAtZero _ := rfl
  tempoReqLegal := (by decide : minBpm ≤ 120 ∧ 120 ≤ maxBpm)
  tempoActiveLegal := (by decide : minBpm ≤ 120 ∧ 120 ≤ maxBpm)
  divCountBelow := divisor_pos h (by decide) (by decide)
  swingLiveLegal := Nat.zero_le _
  swingStagedLegal := Nat.zero_le _
  swtIsTable := (by decide : Vector.replicate 6 0 = swingTable 0)
  swingReadyRunning := nofun
  readyRunning c := by rw [resetWith_stg]; nofun
  liveLegal c := by rw [resetWith_ch]; exact channel_reset_legal _ _
  stagedLegal c := by rw [resetWith_stg]; exact record_reset_legal _

/-! ### The invariants, command by command -/

/-- The error bits and the read-data register are in no invariant. -/
theorem inv_of_report {s : State} (h : s.Inv) (err : BitVec 2) (v : Word) :
    State.Inv { s with statusErr := err, rdata := v } :=
  { h with cfgWf := h.cfgWf }

theorem setReady_conf (c d : Chan) (b : Bool) (s : State) : (setReady c b s).stg[d].conf = s.stg[d].conf := by
  by_cases hd : d = c
  · subst hd; rw [setReady_stg_same]
  · rw [setReady_stg_other hd]

/-- A record is marked ready only while running (R38 b, R123). -/
theorem setReady_inv {s : State} (h : s.Inv) (run : s.running = true) (c : Chan) : (setReady c true s).Inv :=
  { h with
    readyRunning := fun _ _ => run
    stagedLegal := fun d => by rw [Staged.Legal, setReady_conf]; exact h.stagedLegal d }

theorem clampSwing_le (cfg : Config) (v : BitVec 8) : (clampSwing cfg v).toNat ≤ cfg.swingMax.toNat := by
  rw [clampSwing_toNat]; exact Nat.min_le_right _ _

/-- The live swing after a swing commit is in its range, and the table is its table (R26, R111, R116). -/
theorem commitSwingIfReady_legal {s : State} (h : s.Inv) :
    (commitSwingIfReady s).swingLive.toNat ≤ s.cfg.swingMax.toNat ∧
      (commitSwingIfReady s).swt = swingTable (commitSwingIfReady s).swingLive ∧
      (commitSwingIfReady s).swingReady = false := by
  rcases commitSwingIfReady_cases s with ⟨hr, e⟩ | ⟨-, e⟩ <;> rw [e]
  · exact ⟨h.swingLiveLegal, h.swtIsTable, hr⟩
  · exact ⟨h.swingStagedLegal, rfl, rfl⟩

/-- STOP keeps the invariants: no flag stays ready, and every timeline starts afresh in a legal configuration (R38, R87). -/
theorem stopped_inv {s : State} (h : s.Inv) : (stopped s).Inv := by
  obtain ⟨live, table, unready⟩ := commitSwingIfReady_legal h
  obtain ⟨hlive, hswt, hready⟩ : _ ∧ _ ∧ _ := by simpa only [swingOf, Prod.mk.injEq] using stopped_swing s
  obtain ⟨_, _, _, _, _, _, _, shape⟩ := stopped_shape s
  have cfg : (stopped s).cfg = s.cfg := by rw [shape]
  exact {
    cfgWf := by rw [cfg]; exact h.cfgWf
    tickBelowLimit := by rw [shape]; exact (by decide : 0 < limit)
    stoppedAtZero := fun _ => by rw [shape]
    tempoReqLegal := by rw [shape]; exact h.tempoReqLegal
    tempoActiveLegal := by rw [shape]; exact h.tempoActiveLegal
    divCountBelow := by rw [shape]; exact Nat.zero_lt_of_lt h.divCountBelow
    swingLiveLegal := by rw [hlive, cfg]; exact live
    swingStagedLegal := by rw [shape]; exact h.swingStagedLegal
    swtIsTable := by rw [hlive, hswt]; exact table
    swingReadyRunning := by rw [hready, unready]; nofun
    readyRunning := fun c => by rw [stopped_stg]; nofun
    liveLegal := fun c => by
      obtain ⟨e, hc⟩ := stopped_ch s c
      rw [hc, cfg]
      cases s.stg[c].ready
      · exact timelineChannel_legal h.cfgWf (h.liveLegal c).1 (h.liveLegal c).2.1
      · exact timelineChannel_legal h.cfgWf (h.stagedLegal c).1 (h.stagedLegal c).2
    stagedLegal := fun c => by rw [stopped_stg, cfg]; exact h.stagedLegal c }

/-- Every command keeps the invariants. -/
theorem CommandEffect.inv {i : Instr} {s t : State} (effect : CommandEffect s i t) (h : s.Inv) : t.Inv := by
  cases effect with
  | nop | startAgain | commitAgain => exact h
  | setTempo val =>
    refine { h with tempoReqLegal := clampTempo_legal val, tempoActiveLegal := ?_ }
    dsimp only
    split
    · exact h.tempoActiveLegal
    · exact clampTempo_legal val
  | stageSwing val run =>
    exact { h with swingStagedLegal := clampSwing_le s.cfg val, swingReadyRunning := fun _ => run }
  | applySwing val =>
    exact { h with swingLiveLegal := clampSwing_le s.cfg val, swtIsTable := rfl, swingReadyRunning := nofun }
  | start =>
    exact { h with
      stoppedAtZero := nofun
      tempoActiveLegal := h.tempoReqLegal
      divCountBelow := Nat.zero_lt_of_lt h.divCountBelow
      swingReadyRunning := fun _ => rfl
      readyRunning := fun _ _ => rfl }
  | stop => exact stopped_inv h
  | stageTiming =>
    obtain ⟨-, -, steps, len, prob, -⟩ := (h.stagedLegal _).1
    exact stageRecord_inv h _ _ (clampKind_le _ _) steps len prob
  | stagePattern =>
    refine stageRecord_inv h _ _ (h.stagedLegal _).1.1 ?_ ?_ ?_ <;> dsimp only
    · rw [clampSteps_toNat]; omega
    · rw [clampLen_toNat]; omega
    · rw [clampProb_toNat]; omega
  | commitLater _ run => exact setReady_inv h run _
  | commitNow => exact applyCfg_inv h 0 _
  | timingRefused | patternRefused | read | readRefused | clearErr | tickRefused | reserved => exact inv_of_report h _ _
  | stepTick => exact tickStep_inv h

/-- Settles O48: a command, a clock cycle and the reset input each keep the invariants, on the state without its input. -/
theorem stepKeepsTheInvariants : Obligations.StepKeepsTheInvariants := by
  unfold Obligations.StepKeepsTheInvariants
  intro s t h hstep
  have hs : (inputTaken s).Inv := inv_of_input h _
  obtain ⟨w, -, hexec⟩ | rfl | ⟨-, rfl⟩ := step_cases hstep
  · exact (CommandEffect.of_exec hexec).inv hs
  · exact dividerCycle_inv hs
  · exact resetWith_inv hs.cfgWf _ _

/-- Settles O49, by the general reset state and the default parameters. -/
theorem resetMeetsTheInvariants : Obligations.ResetMeetsTheInvariants := by
  unfold Obligations.ResetMeetsTheInvariants
  exact ⟨resetWith_inv (by decide) _ _, fun cfg e inputs h => resetWith_inv h e inputs⟩

/-- Settles O46: the reset registers read off, each record the reset record. -/
theorem resetValues : Obligations.ResetValues := by
  unfold Obligations.ResetValues
  rintro cfg e inputs _ rfl
  refine ⟨rfl, rfl, rfl, rfl, rfl, rfl, rfl, rfl, fun i => by simp [State.resetWith], rfl, rfl, rfl, fun c => ?_⟩
  rw [State.gateO, State.pwmO, resetWith_ch, resetWith_stg]
  refine ⟨?_, by decide⟩
  rintro r (rfl | rfl) <;> decide

/-! ### The divider's width and the gate times (R25, R94) -/

/-- `DIVW` is the least width that holds the longest period less one (R25). -/
theorem divWidth_le_iff (cfg : Config) (w : Nat) : divWidth cfg ≤ w ↔ divisor cfg minBpm - 1 < 2 ^ w := by
  unfold divWidth
  split
  · rename_i h
    simp [h]
  · rename_i h
    rw [Nat.succ_le_iff, Nat.log2_lt h]

/-- Settles O50: the invariant bounds the counter by the longest period, and a legal gate record's times fill its clock. -/
theorem invariantStatesHaveLegalDurations : Obligations.InvariantStatesHaveLegalDurations := by
  unfold Obligations.InvariantStatesHaveLegalDurations
  intro s h
  have below := h.divCountBelow
  refine ⟨?_, fun w hw => (divWidth_le_iff s.cfg w).mpr hw, fun c hc => ?_⟩
  · have := (divWidth_le_iff s.cfg _).mp le_rfl
    omega
  · obtain ⟨-, gate, -⟩ := (h.liveLegal c).1
    exact ⟨openDur_add_closeDur h.cfgWf (gate ((gateKind_iff _).mp hc)), openDur_ge h.cfgWf _, closeDur_ge h.cfgWf _⟩

/-! ### Who writes a register (R22, R23, R28, R42) -/

/-- Settles O51: by the outcomes of a command. -/
theorem onlyTicksAndStopWriteTheTickCounter : Obligations.OnlyTicksAndStopWriteTheTickCounter := by
  unfold Obligations.OnlyTicksAndStopWriteTheTickCounter
  intro i s t h
  cases CommandEffect.of_exec h with
  | stop => exact ⟨fun stop => absurd rfl stop, fun stop => absurd rfl stop⟩
  | start => exact ⟨fun _ _ => rfl, fun _ start => absurd rfl start⟩
  | stepTick => exact ⟨fun _ tick => absurd rfl tick, fun _ _ => tickStep_running s⟩
  | _ => exact ⟨fun _ _ => rfl, fun _ _ => rfl⟩

/-- A clock cycle is the step where no command and no reset is the next input. -/
theorem step_clock {s t : State} (reset : s.inputs.head? ≠ some .reset) (command : ∀ w, s.inputs.head? ≠ some (.command w))
    (h : step s = .next t) : t = dividerCycle (inputTaken s) := by
  obtain ⟨w, hw, -⟩ | ht | ⟨hr, -⟩ := step_cases h
  · exact absurd hw (command w)
  · exact ht
  · exact absurd hr reset

@[simp] theorem dividerCycle_rdata (s : State) : (dividerCycle s).rdata = s.rdata := by
  unfold dividerCycle
  split
  · split
    · exact tickStep_rdata _
    · rfl
  · rfl

/-- Settles O52: by the outcomes of a command, and a clock cycle is at most a tick step. -/
theorem onlyReadWritesRdata : Obligations.OnlyReadWritesRdata := by
  unfold Obligations.OnlyReadWritesRdata
  refine ⟨fun i s t noRead h => ?_, fun s t reset command h => ?_⟩
  · cases CommandEffect.of_exec h with
    | read | readRefused => exact absurd rfl (noRead _ _)
    | stop => exact stopped_rdata s
    | stepTick => exact tickStep_rdata s
    | _ => rfl
  · rw [step_clock reset command h, dividerCycle_rdata]
    rfl

/-- Settles O55: of the outcomes that touch a live channel or the live swing, two are STOP's and STEP_TICK's and the others need
a stopped transport. -/
theorem runningChannelsBelongToTheTick : Obligations.RunningChannelsBelongToTheTick := by
  unfold Obligations.RunningChannelsBelongToTheTick
  intro i s t run stop tick h
  cases CommandEffect.of_exec h with
  | stop => exact absurd rfl stop
  | stepTick => exact absurd rfl tick
  | applySwing _ halted | commitNow _ halted => exact absurd (run.symm.trans halted) nofun
  | _ => exact ⟨rfl, rfl, rfl, rfl⟩

/-! ### Ready records (R38, R56) -/

/-- The tick step leaves the staged configurations (R42). -/
theorem tickStep_stg_conf (s : State) (c : Chan) : (tickStep s).stg[c].conf = s.stg[c].conf := by
  cases run : s.running
  · rw [tickStep_stopped run]
  · rw [tickStep_stg run, barGate_stg_conf, dispatchAll_stg]

/-- The tick step sets no ready flag (R56). -/
theorem tickStep_ready {s : State} {c : Chan} (h : (tickStep s).stg[c].ready = true) : s.stg[c].ready = true := by
  cases run : s.running
  · rwa [tickStep_stopped run] at h
  · rw [tickStep_stg run] at h
    have := barGate_ready h
    rwa [dispatchAll_stg] at this

/-- Staging one record leaves a record that is ready where the staged one is not (R118). -/
theorem stageRecord_stg_ready {s : State} {c d : Chan} {r : Record} (free : s.stg[c].ready = false)
    (ready : s.stg[d].ready = true) : (stageRecord c r s).stg[d] = s.stg[d] :=
  stageRecord_stg_other (by rintro rfl; cases ready.symm.trans free) r s

/-- No command writes the configuration of a ready record. -/
theorem CommandEffect.ready_conf {i : Instr} {s t : State} {c : Chan} (effect : CommandEffect s i t)
    (ready : s.stg[c].ready = true) : t.stg[c].conf = s.stg[c].conf := by
  cases effect with
  | stop => rw [stopped_stg]
  | stageTiming free | stagePattern free => rw [stageRecord_stg_ready free ready]
  | commitLater => exact setReady_conf _ _ _ _
  | stepTick => exact tickStep_stg_conf s c
  | _ => rfl

/-- Only STOP and STEP_TICK clear a ready flag. -/
theorem CommandEffect.ready_kept {i : Instr} {s t : State} {c : Chan} (effect : CommandEffect s i t) (stop : i ≠ .stop)
    (tick : i ≠ .stepTick) (ready : s.stg[c].ready = true) : t.stg[c].ready = true := by
  cases effect with
  | stop => exact absurd rfl stop
  | stepTick => exact absurd rfl tick
  | stageTiming | stagePattern => rw [stageRecord_ready, ready]
  | @commitLater d =>
    by_cases hd : c = d
    · subst hd; rw [setReady_stg_same]
    · rw [setReady_stg_other hd, ready]
  | _ => exact ready

/-- Settles O54: by the outcomes of a command, and the tick step sets no flag. -/
theorem readyRecordsAreLocked : Obligations.ReadyRecordsAreLocked := by
  unfold Obligations.ReadyRecordsAreLocked
  intro i s t c h
  have effect := CommandEffect.of_exec h
  refine ⟨effect.ready_conf, effect.ready_kept, ?_⟩
  rintro rfl
  cases effect with
  | stepTick => exact tickStep_ready
  | tickRefused | reserved => exact id

end Sys2Proof.Machine
end

section
/-! SUPPORT. The output trace of a step (R39, R92, R142): it accounts for the levels of every channel, and a channel has at most
one event but for a commit at a bar boundary. -/

namespace Sys2Proof.Machine

open Sys2Proof.Claims

/-! ### How many events a channel has -/

/-- The channel's events grow by at most three, and by more than one only where a ready record of it is committed at a bar
boundary while running (R92, R125). -/
def FewEvents (s t : State) (c : Chan) : Prop :=
  ∃ es, eventsOf t c = eventsOf s c ++ es ∧ es.length ≤ 3 ∧
    (2 ≤ es.length → s.running = true ∧ s.tickCounter.toNat % 768 = 0 ∧ s.stg[c].ready = true)

theorem FewEvents.of_out {s t : State} (h : t.out = s.out) (c : Chan) : FewEvents s t c :=
  ⟨[], by rw [eventsOf, h, List.append_nil, eventsOf], by simp, by simp⟩

/-- One write of a level emits at most one event (R39). -/
theorem FewEvents.of_emission {s t : State} {c : Chan} {x y : Channel}
    (h : eventsOf t c = eventsOf s c ++ emission c x y) : FewEvents s t c :=
  ⟨_, h, (emission_length c x y).trans (by decide), fun two => absurd (two.trans (emission_length c x y)) (by decide)⟩

/-- A tick emits for the handled event and, at a commit, for the timeline reset and the first event (R81, R92). -/
theorem tickStep_fewEvents (s : State) (c : Chan) : FewEvents s (tickStep s) c := by
  cases run : s.running
  · exact .of_out (by rw [tickStep_stopped run]) c
  obtain ⟨_, -, hd⟩ := dispatchAll_events_at s.tickCounter c s
  have out : eventsOf (tickStep s) c = eventsOf (barGate s.tickCounter (dispatchAll s.tickCounter s)) c := by
    rw [eventsOf, tickStep_out run, eventsOf]
  by_cases boundary : s.tickCounter.toNat % 768 = 0
  · rw [barGate_on boundary] at out
    cases ready : s.stg[c].ready
    · rw [barCommit_events_other (by rw [dispatchAll_stg]; exact ready)] at out
      exact .of_emission (out.trans hd)
    · obtain ⟨x, -, -, hb⟩ := barCommit_events_ready (now := s.tickCounter) (c := c) (s := dispatchAll s.tickCounter s)
        (by rw [dispatchAll_stg]; exact ready)
      rw [hd, List.append_assoc, List.append_assoc] at hb
      refine ⟨_, out.trans hb, ?_, fun _ => ⟨run, boundary, ready⟩⟩
      have one := emission_length c
      simp only [List.length_append]
      exact Nat.add_le_add (one _ _) (Nat.add_le_add (one _ _) (one _ _))
  · rw [barGate_away boundary] at out
    exact .of_emission (out.trans hd)

/-- Applying a staged record emits for its timeline reset only (R124). -/
theorem applyCfg_fewEvents (now : BitVec 16) (c d : Chan) (s : State) : FewEvents s (applyCfg now c s) d := by
  by_cases hd : d = c
  · subst hd
    exact .of_emission (putChannel_events_same d _ (copyStaged d s))
  · exact ⟨[], by rw [List.append_nil]; exact putChannel_events_other hd _ (copyStaged c s), by simp, by simp⟩

/-- STOP emits for its timeline resets only (R87). -/
theorem stopped_fewEvents (s : State) (c : Chan) : FewEvents s (stopped s) c := by
  have h := timelineResets_events_at 0 c (stopCommitted s)
  rw [eventsOf, eventsOf, stopCommitted_out] at h
  exact .of_emission h

theorem CommandEffect.fewEvents {i : Instr} {s t : State} (effect : CommandEffect s i t) (c : Chan) : FewEvents s t c := by
  cases effect with
  | stop => exact stopped_fewEvents s c
  | commitNow => exact applyCfg_fewEvents 0 _ c s
  | stepTick => exact tickStep_fewEvents s c
  | _ => exact .of_out (by rfl) c

/-! ### The trace shows the levels -/

theorem applyCfg_traceFrom {s0 s : State} {now : BitVec 16} {c : Chan} (h : TraceFrom s0 s) :
    TraceFrom s0 (applyCfg now c s) :=
  putChannel_traceFrom (copyStaged_traceFrom h)

theorem stopCommitChannel_traceFrom {s0 s : State} {c : Chan} (h : TraceFrom s0 s) :
    TraceFrom s0 (stopCommitChannel c s) := by
  unfold stopCommitChannel
  split
  · exact (copyStaged_traceFrom h).of_ch rfl rfl
  · exact h

theorem stopped_traceFrom {s0 s : State} (h : TraceFrom s0 s) : TraceFrom s0 (stopped s) := by
  refine forChannels_keeps _ (fun _ _ => putChannel_traceFrom) (forChannels_keeps _
    (fun _ _ => stopCommitChannel_traceFrom) (h.of_ch ?_ ?_))
  · rw [commitSwingIfReady_out]
  · rw [commitSwingIfReady_ch]

theorem CommandEffect.traceFrom {i : Instr} {s0 s t : State} (effect : CommandEffect s i t) (h : TraceFrom s0 s) :
    TraceFrom s0 t := by
  cases effect with
  | stop => exact stopped_traceFrom h
  | commitNow => exact applyCfg_traceFrom h
  | stepTick => exact tickStep_traceFrom h
  | _ => exact h.of_ch rfl rfl

/-- A clock cycle is a tick step, or touches neither trace nor levels (R77). -/
theorem dividerCycle_trace {s0 s : State} (h : TraceFrom s0 s) :
    TraceFrom s0 (dividerCycle s) ∧ ∀ c, FewEvents s (dividerCycle s) c := by
  unfold dividerCycle
  split
  · split
    · exact ⟨tickStep_traceFrom (h.of_ch rfl rfl), fun c => tickStep_fewEvents { s with
        tempoActive := s.tempoReq, divCount := divisor s.cfg s.tempoReq.toNat - 1 } c⟩
    · exact ⟨h.of_ch rfl rfl, .of_out rfl⟩
  · exact ⟨h, .of_out rfl⟩

/-- An empty trace accounts for levels that are those at the start. -/
theorem traceFrom_empty {s0 s : State} (hout : s.out = []) (hch : s.ch = s0.ch) : TraceFrom s0 s := by
  intro c
  rw [shown, eventsOf, hout, levelsOf, levelsOf, hch]
  exact ⟨List.isChain_singleton _, rfl⟩

/-- The trace of a step other than a reset. -/
theorem step_trace {s t : State} (reset : s.inputs.head? ≠ some .reset) (h : step s = .next t) :
    TraceFrom s t ∧ ∀ c, FewEvents (inputTaken s) t c := by
  have start : TraceFrom s (inputTaken s) := traceFrom_empty rfl rfl
  obtain ⟨w, -, hexec⟩ | rfl | ⟨hr, -⟩ := step_cases h
  · have effect := CommandEffect.of_exec hexec
    exact ⟨effect.traceFrom start, effect.fewEvents⟩
  · exact dividerCycle_trace start
  · exact absurd hr reset

theorem outValid_iff (s : State) (c : Chan) : s.outValid c = true ↔ ∃ ev ∈ s.out, ev.chan = c := by
  simp [State.outValid]

/-- Settles O57: the levels shown form a chain of changes that ends with the channel's levels, and the events are counted. -/
theorem traceShowsEveryOutputChange : Obligations.TraceShowsEveryOutputChange := by
  unfold Obligations.TraceShowsEveryOutputChange
  intro s t reset h c
  obtain ⟨trace, few⟩ := step_trace reset h
  obtain ⟨chain, last⟩ := trace c
  obtain ⟨es, events, three, two⟩ := few c
  have events : eventsAt t c = es := events
  rw [shown, ← eventsAt_eq] at chain last
  refine ⟨rfl, rfl, outValid_iff t c, fun silent => ?_, chain, fun ev hev => ?_, events ▸ three, events ▸ two⟩
  · rw [silent] at last
    exact (Option.some.inj last).symm
  · rw [List.getLast?_cons, List.getLast?_map, hev] at last
    exact Prod.mk.inj (Option.some.inj last)

end Sys2Proof.Machine
end

section
/-! SUPPORT. A word on the command port (R46, R53): the listed input is taken, and the step performs the word's command. -/

namespace Sys2Proof.Machine

/-- The first listed move is taken as it stands, whichever of the three kinds it is (log 3, log 4). -/
theorem takeInput_cons {s : State} {i : Input} {rest : List Input} (h : s.inputs = i :: rest) :
    takeInput s = (i, { s with inputs := rest, out := [] }) := by
  rw [takeInput, h]

/-- Settles O8: the word is the input taken, and the step's command case performs what it decodes to. -/
theorem stepRunsTheDecodedCommand : Obligations.StepRunsTheDecodedCommand := by
  unfold Obligations.StepRunsTheDecodedCommand
  intro s w rest listed
  rw [step, takeInput_cons listed]

end Sys2Proof.Machine
end

section
/-! SUPPORT. The decoder said once: a word is a command exactly where its opcode is the command's row and every operand
stands in its field (R61 to R70, R72). The statements on decoding and on the reserved bits follow from it. -/

namespace Sys2Proof

open Sys2Proof.Claims

/-! ### What a word decodes to -/

/-- Every operand of the command is what its field of the word reads (R64 to R69). -/
def OperandsIn (w : Word) : Instr → Prop
  | .setTempo val | .setSwing val => val = valField w
  | .stageTiming ch kind clk gate delay =>
      ch = chField w ∧ kind = kindField w ∧ clk = clkField w ∧ gate = gateField w ∧ delay = delayField w
  | .stagePattern ch len steps prob =>
      ch = chField w ∧ len = lenField w ∧ steps = stepsField w ∧ prob = probField w
  | .commit ch => ch = chField w
  | .read ch sel => ch = chField w ∧ sel = selField w
  | .nop | .start | .stop | .clearErr | .stepTick => True
  | .reservedB | .reservedC | .reservedD | .reservedE | .reservedF => True

theorem opcodeOf_decode (w : Word) : opcodeOf (decode w) = opField w := by
  apply BitVec.eq_of_toNat_eq
  unfold decode
  split
  case h_16 =>
    simp only [imp_false] at *
    have last : (opField w).toNat = 15 := by omega
    exact last.symm
  all_goals exact Eq.symm ‹_›

theorem operandsIn_decode (w : Word) : OperandsIn w (decode w) := by
  unfold decode
  split <;> simp only [OperandsIn, and_self]

/-- A word is the command of its opcode's row, with the operands its fields read (R62, R69, R72). -/
theorem decode_eq_iff {w : Word} {i : Instr} : decode w = i ↔ opField w = opcodeOf i ∧ OperandsIn w i := by
  constructor
  · rintro rfl
    exact ⟨(opcodeOf_decode w).symm, operandsIn_decode w⟩
  · rintro ⟨op, operands⟩
    unfold decode
    rw [op]
    cases i with
    | setTempo | setSwing | commit => cases operands; rfl
    | stageTiming => obtain ⟨rfl, rfl, rfl, rfl, rfl⟩ := operands; rfl
    | stagePattern => obtain ⟨rfl, rfl, rfl, rfl⟩ := operands; rfl
    | read => obtain ⟨rfl, rfl⟩ := operands; rfl
    | nop | start | stop | clearErr | stepTick | reservedB | reservedC | reservedD | reservedE | reservedF => rfl

/-! ### The word of a command -/

/-- The rows of the per-command lemmas are the statements' opcodes and masks. -/
theorem encodedRow_eq (i : Instr) : Laws.encodedRow i = (opcodeOf i, reservedMask (opcodeOf i)) := by
  cases i <;> rfl

open Laws.EncodedOpcode in
theorem encode_row (i : Instr) : Statement i := by
  cases i with
  | nop => exact nop
  | setTempo val => exact setTempo val
  | setSwing val => exact setSwing val
  | start => exact start
  | stop => exact stop
  | stageTiming ch kind clk gate delay => exact stageTiming ch kind clk gate delay
  | stagePattern ch len steps prob => exact stagePattern ch len steps prob
  | commit ch => exact commit ch
  | read ch sel => exact read ch sel
  | clearErr => exact clearErr
  | stepTick => exact stepTick
  | reservedB => exact reservedB
  | reservedC => exact reservedC
  | reservedD => exact reservedD
  | reservedE => exact reservedE
  | reservedF => exact reservedF

theorem opField_encode (i : Instr) : opField (encode i) = opcodeOf i := by
  have row := (encode_row i).1
  rwa [encodedRow_eq] at row

theorem encode_and_reservedMask (i : Instr) : encode i &&& reservedMask (opcodeOf i) = 0 := by
  have row := (encode_row i).2
  rwa [encodedRow_eq] at row

theorem operandsIn_encode (i : Instr) : OperandsIn (encode i) i := by
  cases i with
  | setTempo | setSwing | stageTiming | stagePattern | commit | read =>
    simp [OperandsIn, encode, placeOp, placeCh, chField, valField, kindField, clkField, gateField, delayField, lenField,
      stepsField, probField, selField, extract_or, extract_placeField_same, extract_placeField_other]
  | nop | start | stop | clearErr | stepTick | reservedB | reservedC | reservedD | reservedE | reservedF => trivial

/-- Decoding undoes encoding (R62 to R69, R73). -/
theorem decode_encode (i : Instr) : decode (encode i) = i :=
  decode_eq_iff.mpr ⟨opField_encode i, operandsIn_encode i⟩

/-- Settles O1: the word of a command has its row's opcode, and each operand is read where it was placed. -/
theorem decodeEncodeRoundTrip : Obligations.DecodeEncodeRoundTrip := by
  unfold Obligations.DecodeEncodeRoundTrip
  exact decode_encode

/-! ### Reserved bits (R70) -/

/-- Changing bits of a mask leaves a field that the mask does not meet. -/
theorem extract_xor_masked (w x m : Word) {lo n : Nat} (apart : m.extractLsb' lo n = 0) :
    (w ^^^ (x &&& m)).extractLsb' lo n = w.extractLsb' lo n := by
  simp [BitVec.extractLsb'_xor, BitVec.extractLsb'_and, apart]

theorem opField_reservedMask (op : BitVec 4) : opField (reservedMask op) = 0 := by
  revert op; decide

/-- No operand of a command stands in a bit its row reserves. -/
theorem operandsIn_xor_reserved {w : Word} (x : Word) {i : Instr} (operands : OperandsIn w i) :
    OperandsIn (w ^^^ (x &&& reservedMask (opcodeOf i))) i := by
  cases i with
  | setTempo | setSwing | stageTiming | stagePattern | commit | read =>
    simp (disch := decide) only [OperandsIn, opcodeOf, valField, chField, kindField, clkField, gateField, delayField,
      lenField, stepsField, probField, selField, extract_xor_masked] at operands ⊢
    exact operands
  | nop | start | stop | clearErr | stepTick | reservedB | reservedC | reservedD | reservedE | reservedF => trivial

theorem decode_xor_reserved (w x : Word) : decode (w ^^^ (x &&& reservedMask (opField w))) = decode w := by
  rw [decode_eq_iff, opField, extract_xor_masked w x _ (opField_reservedMask _), ← opcodeOf_decode]
  exact ⟨(opcodeOf_decode w).symm, operandsIn_xor_reserved x (operandsIn_decode w)⟩

/-- Settles O2: the masked bits are in no field that the word's command reads, and no field is placed on them. -/
theorem reservedBitsAreIgnored : Obligations.ReservedBitsAreIgnored := by
  unfold Obligations.ReservedBitsAreIgnored
  refine ⟨fun w x => ?_, encode_and_reservedMask⟩
  have same : decode (w ^^^ (x &&& reservedMask (w.extractLsb' 28 4))) = decode w := decode_xor_reserved w x
  exact ⟨same, fun s => by rw [same]⟩

/-- The match on bits 31:28 by their mask (R62). -/
theorem and_opMask (w : Word) : w &&& 0xF0000000 = placeOp (opField w) := by
  have mask : ∀ i < 32, (0xF0000000 : Word).getLsbD i = decide (28 ≤ i) := by decide
  ext i hi
  rw [BitVec.getElem_and, placeOp, ← BitVec.getLsbD_eq_getElem hi, ← BitVec.getLsbD_eq_getElem hi,
    ← BitVec.getLsbD_eq_getElem hi, mask i hi, placeField_getLsbD, opField, BitVec.getLsbD_extractLsb']
  by_cases h : 28 ≤ i
  · simp [h, hi, show i - 28 < 4 by omega]
  · simp [h]

/-- Settles O3: the decoder chooses by the opcode, which is the word under its mask. -/
theorem opcodeFieldSelectsTheCommand : Obligations.OpcodeFieldSelectsTheCommand := by
  unfold Obligations.OpcodeFieldSelectsTheCommand
  intro w
  rw [opcodeOf_decode]
  exact ⟨rfl, and_opMask w⟩

/-! ### Operands as numbers (R69) -/

theorem extract_toNat (w : Word) (lo n : Nat) : (w.extractLsb' lo n).toNat = w.toNat / 2 ^ lo % 2 ^ n := by
  rw [BitVec.extractLsb'_toNat, Nat.shiftRight_eq_div_pow]

theorem extract_low_toNat (w : Word) (n : Nat) : (w.extractLsb' 0 n).toNat = w.toNat % 2 ^ n := by
  rw [extract_toNat, pow_zero, Nat.div_one]

theorem chField_val (w : Word) : (chField w).val = w.toNat / 2 ^ 24 % 8 := extract_toNat w 24 3

/-- Settles O4: an operand is its field, and a field is the quotient and remainder of the word. -/
theorem operandsAreTheirBits : Obligations.OperandsAreTheirBits := by
  unfold Obligations.OperandsAreTheirBits
  intro w
  refine ⟨fun val h => ?_, fun ch kind clk gate delay h => ?_, fun ch len steps prob h => ?_, fun ch h => ?_,
    fun ch sel h => ?_⟩
  · have operand : val = valField w := h.elim (fun h => (decode_eq_iff.mp h).2) fun h => (decode_eq_iff.mp h).2
    rw [operand]
    exact extract_low_toNat w 8
  · obtain ⟨-, rfl, rfl, rfl, rfl, rfl⟩ := decode_eq_iff.mp h
    exact ⟨chField_val w, extract_toNat w 16 3, extract_toNat w 12 4, extract_toNat w 8 4, extract_toNat w 4 4⟩
  · obtain ⟨-, rfl, rfl, rfl, rfl⟩ := decode_eq_iff.mp h
    exact ⟨chField_val w, extract_toNat w 16 6, extract_toNat w 8 6, extract_low_toNat w 7⟩
  · obtain ⟨-, rfl⟩ := decode_eq_iff.mp h
    exact chField_val w
  · obtain ⟨-, rfl, rfl⟩ := decode_eq_iff.mp h
    exact ⟨chField_val w, extract_low_toNat w 4⟩

/-- Settles O6: by evaluating the decoder. -/
theorem workedWordsDecode : Obligations.WorkedWordsDecode := by
  unfold Obligations.WorkedWordsDecode
  decide

end Sys2Proof
end

section
/-! SUPPORT. The assembler's words as numbers: each operand counts its value times the weight of its field's lowest bit
(R63 to R68, R73, R74). -/

namespace Sys2Proof

open Sys2Proof.Claims

/-! ### Words as sums of their fields -/

theorem placeField_eq_ofNat {n : Nat} (v : BitVec n) (lo : Nat) : placeField v lo = BitVec.ofNat 32 (v.toNat * 2 ^ lo) := by
  apply BitVec.eq_of_toNat_eq
  simp [placeField, Nat.shiftLeft_eq]

/-- A field placed below every bit of a number adds to it (R61). -/
theorem ofNat_or_placeField {n : Nat} (a : Nat) (v : BitVec n) (lo : Nat) (below : 2 ^ (lo + n) ∣ a) :
    BitVec.ofNat 32 a ||| placeField v lo = BitVec.ofNat 32 (a + v.toNat * 2 ^ lo) := by
  obtain ⟨k, rfl⟩ := below
  have bound : v.toNat * 2 ^ lo < 2 ^ (lo + n) := by
    rw [Nat.add_comm lo n, Nat.pow_add]
    exact Nat.mul_lt_mul_of_pos_right v.isLt (Nat.two_pow_pos lo)
  rw [Nat.two_pow_add_eq_or_of_lt bound, BitVec.ofNat_or, placeField_eq_ofNat]

theorem encode_setTempo (val : BitVec 8) : encode (.setTempo val) = BitVec.ofNat 32 (0x10000000 + val.toNat) := by
  refine (ofNat_or_placeField 0x10000000 val 0 (by decide)).trans ?_
  rw [pow_zero, Nat.mul_one]

theorem encode_setSwing (val : BitVec 8) : encode (.setSwing val) = BitVec.ofNat 32 (0x20000000 + val.toNat) := by
  refine (ofNat_or_placeField 0x20000000 val 0 (by decide)).trans ?_
  rw [pow_zero, Nat.mul_one]

/-- The row's opcode with the channel beside it. -/
theorem placeOp_or_placeCh (op : BitVec 4) (ch : Chan) :
    placeOp op ||| placeCh ch = BitVec.ofNat 32 (op.toNat * 2 ^ 28 + ch.val * 2 ^ 24) := by
  rw [placeOp, placeField_eq_ofNat, placeCh, ofNat_or_placeField _ _ _ (by omega)]
  rfl

theorem encode_stageTiming (ch : Chan) (kind : BitVec 3) (clk gate delay : BitVec 4) :
    encode (.stageTiming ch kind clk gate delay) =
      BitVec.ofNat 32 (0x50000000 + ch.val * 2 ^ 24 + kind.toNat * 2 ^ 16 + clk.toNat * 2 ^ 12 + gate.toNat * 2 ^ 8 +
        delay.toNat * 2 ^ 4) := by
  rw [encode, placeOp_or_placeCh]
  iterate 4 rw [ofNat_or_placeField _ _ _ (by omega)]
  rfl

theorem encode_stagePattern (ch : Chan) (len steps : BitVec 6) (prob : BitVec 7) :
    encode (.stagePattern ch len steps prob) =
      BitVec.ofNat 32 (0x60000000 + ch.val * 2 ^ 24 + len.toNat * 2 ^ 16 + steps.toNat * 2 ^ 8 + prob.toNat) := by
  rw [encode, placeOp_or_placeCh]
  iterate 3 rw [ofNat_or_placeField _ _ _ (by omega)]
  rw [pow_zero, Nat.mul_one]
  rfl

theorem encode_commit (ch : Chan) : encode (.commit ch) = BitVec.ofNat 32 (0x70000000 + ch.val * 2 ^ 24) :=
  placeOp_or_placeCh 0x7 ch

theorem encode_read (ch : Chan) (sel : BitVec 4) :
    encode (.read ch sel) = BitVec.ofNat 32 (0x80000000 + ch.val * 2 ^ 24 + sel.toNat) := by
  rw [encode, placeOp_or_placeCh, ofNat_or_placeField _ _ _ (by omega), pow_zero, Nat.mul_one]
  rfl

/-! ### Assembled lines -/

/-- A number that fits its field is the field's value. -/
theorem toNat_ofNat_of_fits {n v : Nat} (fits : v < 2 ^ n) : (BitVec.ofNat n v).toNat = v := by
  rw [BitVec.toNat_ofNat, Nat.mod_eq_of_lt fits]

theorem asmCh_val {ch : Nat} (fits : ch < 8) : (asmCh ch).val = ch := Nat.mod_eq_of_lt fits

theorem assemble_of_wellFormed {c : AsmCmd} (fits : c.wellFormed = true) : assemble c = some (c.expand.map encode) :=
  if_pos fits

theorem assemble_of_not_wellFormed {c : AsmCmd} (wide : ¬ c.wellFormed = true) : assemble c = none :=
  if_neg wide

/-- An assembled line, by the condition on its operands and the words they give where it holds (R73). -/
theorem assemble_eq_ite {c : AsmCmd} {p : Prop} [Decidable p] {ws : List Word} (fits : c.wellFormed = true ↔ p)
    (words : p → c.expand.map encode = ws) : assemble c = if p then some ws else none := by
  split_ifs with hp
  · rw [assemble_of_wellFormed (fits.mpr hp), words hp]
  · exact assemble_of_not_wellFormed fun h => hp (fits.mp h)

theorem assemble_setTempo (bpm : Nat) :
    assemble (.setTempo bpm) = if bpm < 256 then some [BitVec.ofNat 32 (0x10000000 + bpm)] else none := by
  refine assemble_eq_ite decide_eq_true_iff fun fits => ?_
  rw [AsmCmd.expand, List.map_singleton, encode_setTempo, toNat_ofNat_of_fits fits]

theorem assemble_setSwing (amount : Nat) :
    assemble (.setSwing amount) = if amount < 256 then some [BitVec.ofNat 32 (0x20000000 + amount)] else none := by
  refine assemble_eq_ite decide_eq_true_iff fun fits => ?_
  rw [AsmCmd.expand, List.map_singleton, encode_setSwing, toNat_ofNat_of_fits fits]

theorem timingFits_iff {ch kind : Nat} {clk gate : LenOperand} {delay : DelayOperand} :
    timingFits ch kind clk gate delay = true ↔
      ch < 8 ∧ kind < 8 ∧ lengthIndex clk < 16 ∧ lengthIndex gate < 16 ∧ delayIndex delay < 16 := by
  simp [timingFits, chFits, lengthIndex_eq, delayIndex_eq, and_assoc]

theorem patternFits_iff {ch len steps prob : Nat} :
    patternFits ch len steps prob = true ↔ ch < 8 ∧ len < 64 ∧ steps < 64 ∧ prob < 128 := by
  simp [patternFits, chFits, and_assoc]

theorem assemble_stageTiming (ch kind : Nat) (clk gate : LenOperand) (delay : DelayOperand) :
    assemble (.stageTiming ch kind clk gate delay) =
      timingLine ch kind (lengthIndex clk) (lengthIndex gate) (delayIndex delay) := by
  refine assemble_eq_ite timingFits_iff fun ⟨hch, hkind, hclk, hgate, hdelay⟩ => ?_
  rw [AsmCmd.expand, List.map_singleton, asmTiming, encode_stageTiming, asmCh_val hch, toNat_ofNat_of_fits hkind,
    ← lengthIndex_eq, toNat_ofNat_of_fits hclk, ← lengthIndex_eq, toNat_ofNat_of_fits hgate, ← delayIndex_eq,
    toNat_ofNat_of_fits hdelay]

theorem assemble_stagePattern (ch len steps prob : Nat) :
    assemble (.stagePattern ch len steps prob) = patternLine ch len steps prob := by
  refine assemble_eq_ite patternFits_iff fun ⟨hch, hlen, hsteps, hprob⟩ => ?_
  rw [AsmCmd.expand, List.map_singleton, asmPattern, encode_stagePattern, asmCh_val hch, toNat_ofNat_of_fits hlen,
    toNat_ofNat_of_fits hsteps, toNat_ofNat_of_fits hprob]

theorem encode_commit_asmCh {ch : Nat} (fits : ch < 8) :
    encode (.commit (asmCh ch)) = BitVec.ofNat 32 (0x70000000 + ch * 2 ^ 24) := by
  rw [encode_commit, asmCh_val fits]

theorem assemble_commit (ch : Nat) :
    assemble (.commit ch) = if ch < 8 then some [BitVec.ofNat 32 (0x70000000 + ch * 2 ^ 24)] else none := by
  refine assemble_eq_ite decide_eq_true_iff fun fits => ?_
  rw [AsmCmd.expand, List.map_singleton, encode_commit_asmCh fits]

theorem assemble_read (ch sel : Nat) :
    assemble (.read ch sel) =
      if ch < 8 ∧ sel < 16 then some [BitVec.ofNat 32 (0x80000000 + ch * 2 ^ 24 + sel)] else none := by
  refine assemble_eq_ite (by simp [AsmCmd.wellFormed, chFits]) fun ⟨hch, hsel⟩ => ?_
  rw [AsmCmd.expand, List.map_singleton, encode_read, asmCh_val hch, toNat_ofNat_of_fits hsel]

/-- Two lines after each other are refused where one is. -/
theorem bothLines_ite {p q : Prop} [Decidable p] [Decidable q] (a b : List Word) :
    bothLines (if p then some a else none) (if q then some b else none) = if p ∧ q then some (a ++ b) else none := by
  by_cases hp : p <;> by_cases hq : q <;> simp [bothLines, hp, hq]

/-- A STAGE line is its two commands' lines (R74). -/
theorem assemble_stage (ch kind : Nat) (clk gate : LenOperand) (delay : DelayOperand) (len steps prob : Nat) :
    assemble (.stage ch kind clk gate delay len steps prob) =
      bothLines (assemble (.stageTiming ch kind clk gate delay)) (assemble (.stagePattern ch len steps prob)) := by
  have fits : (AsmCmd.stage ch kind clk gate delay len steps prob).wellFormed = true ↔
      (AsmCmd.stageTiming ch kind clk gate delay).wellFormed = true ∧
        (AsmCmd.stagePattern ch len steps prob).wellFormed = true := Bool.and_eq_true_iff
  rw [assemble.eq_def (.stageTiming ..), assemble.eq_def (.stagePattern ..), bothLines_ite]
  exact assemble_eq_ite fits fun _ => rfl

/-- A CONFIG line is its STAGE line and a COMMIT word, whose channel fits wherever the STAGE line's does (R74). -/
theorem assemble_config (ch kind : Nat) (clk gate : LenOperand) (delay : DelayOperand) (len steps prob : Nat) :
    assemble (.config ch kind clk gate delay len steps prob) =
      bothLines (assemble (.stage ch kind clk gate delay len steps prob))
        (some [BitVec.ofNat 32 (0x70000000 + ch * 2 ^ 24)]) := by
  by_cases fits : (AsmCmd.stage ch kind clk gate delay len steps prob).wellFormed = true
  · obtain ⟨timing, -⟩ := Bool.and_eq_true_iff.mp fits
    rw [← encode_commit_asmCh (timingFits_iff.mp timing).1, assemble_of_wellFormed fits]
    exact assemble_of_wellFormed fits
  · rw [assemble_of_not_wellFormed fits]
    exact assemble_of_not_wellFormed fits

theorem assemble_ticks (n : Nat) : assemble (.ticks n) = some (List.replicate n 0xA0000000) :=
  congrArg some List.map_replicate

/-- The words of an assembled line decode to the commands it stands for (R73, R74). -/
theorem map_decode_of_assemble {c : AsmCmd} {ws : List Word} (h : assemble c = some ws) : ws.map decode = c.expand := by
  obtain ⟨-, words⟩ := Option.ite_none_right_eq_some.mp h
  rw [← Option.some.inj words, List.map_map, show decode ∘ encode = id from funext decode_encode, List.map_id]

/-- Settles O7: each line's words are those of its commands, written as sums of their fields. -/
theorem assembledLinesDecode : Obligations.AssembledLinesDecode := by
  unfold Obligations.AssembledLinesDecode
  refine ⟨by decide, assemble_setTempo, assemble_setSwing, by decide, by decide, assemble_stageTiming,
    assemble_stagePattern, assemble_commit, assemble_read, by decide, by decide,
    fun ch kind clk gate delay len steps prob => ?stage, fun ch kind clk gate delay len steps prob => ?config,
    assemble_ticks, by decide, by decide, fun _ _ => map_decode_of_assemble⟩
  case stage => rw [assemble_stage, assemble_stageTiming, assemble_stagePattern]
  case config => rw [assemble_config, assemble_stage, assemble_stageTiming, assemble_stagePattern]

/-- Settles O5: by evaluating the assembler. -/
theorem workedEncodings : Obligations.WorkedEncodings := by
  unfold Obligations.WorkedEncodings
  decide

end Sys2Proof
end

section
/-! SUPPORT. The scheduler's commands SET_TEMPO, START and STEP_TICK, and the clock divider (R77, R78, R85 to R88). -/

namespace Sys2Proof.Machine

open Sys2Proof.Claims

/-! ### Commands on the transport (R85, R86, R88) -/

/-- Settles O11: both tempo registers are written at once, the active one with its old value while running. -/
theorem setTempoClamps : Obligations.SetTempoClamps := by
  unfold Obligations.SetTempoClamps
  exact fun s val => ⟨_, rfl, clampTempo_toNat val, fun run => if_pos run, fun halted => if_neg (by simp [halted]), rfl⟩

/-- Settles O12: by the two branches of START. -/
theorem startStartsTheTransport : Obligations.StartStartsTheTransport := by
  unfold Obligations.StartStartsTheTransport
  exact fun s => ⟨fun run => if_pos run, fun halted => ⟨_, if_neg (by simp [halted]), rfl, rfl, rfl, rfl⟩⟩

theorem exec_stepTick_divider {s : State} (h : s.cfg.tickSource = .divider) :
    exec .stepTick s = .next (setErr cmdErrBit s) := by
  simp [exec, execStepTick, h]

/-- Settles O15: by the two tick sources, and a stopped tick step is none. -/
theorem stepTickNeedsHostAndTransport : Obligations.StepTickNeedsHostAndTransport := by
  unfold Obligations.StepTickNeedsHostAndTransport
  intro s
  obtain ⟨cmd, busy⟩ := setErr_cmdErrBit s
  exact ⟨fun source => ⟨_, exec_stepTick_divider source, cmd, busy, rfl⟩,
    fun source => ⟨exec_stepTick_host source, tickStep_stopped⟩⟩

/-! ### The divider (R77) -/

/-- The state with the requested tempo and its period loaded, as the divider leaves it for the tick step (R77, R85). -/
def periodLoaded (s : State) : State :=
  { s with tempoActive := s.tempoReq, divCount := tickPeriod s.cfg s.tempoReq.toNat - 1 }

theorem dividerCycle_hold {s : State} (h : s.running = false ∨ s.cfg.tickSource = .host) : dividerCycle s = s :=
  if_neg (by rcases h with h | h <;> simp [h])

theorem dividerCycle_count {s : State} (run : s.running = true) (source : s.cfg.tickSource = .divider)
    (h : s.divCount ≠ 0) : dividerCycle s = { s with divCount := s.divCount - 1 } := by
  rw [dividerCycle, if_pos (by simp [run, source]), if_neg h]

theorem dividerCycle_tick {s : State} (run : s.running = true) (source : s.cfg.tickSource = .divider)
    (h : s.divCount = 0) : dividerCycle s = tickStep (periodLoaded s) := by
  rw [dividerCycle, if_pos (by simp [run, source]), if_pos h]
  rfl

/-- A running tick step counts on modulo `LIMIT` (R22, R81). -/
theorem tickStep_tickCounter_toNat {s : State} (run : s.running = true) :
    (tickStep s).tickCounter.toNat = (s.tickCounter.toNat + 1) % 49152 := by
  rw [tickStep_tickCounter, if_pos run, tadd_toNat, limit_eq]

theorem step_clock_cons {s : State} {rest : List Input} (h : s.inputs = .clock :: rest) :
    step s = .next (dividerCycle { s with inputs := rest, out := [] }) := by
  rw [step, takeInput_cons h]

/-- With no input listed a step is an idle clock cycle (log 3). -/
theorem step_idle {s : State} (h : s.inputs = []) : step s = .next (dividerCycle { s with out := [] }) := by
  rw [step, takeInput, h]

/-- Settles O43: by the three branches of the divider's cycle. -/
theorem dividerCycles : Obligations.DividerCycles := by
  unfold Obligations.DividerCycles
  intro s rest listed
  refine ⟨_, step_clock_cons listed, fun still => dividerCycle_hold still, fun run source count => ?_,
    fun run source zero => ?_⟩
  · rw [dividerCycle_count (s := { s with inputs := rest, out := [] }) run source count]
  · rw [dividerCycle_tick (s := { s with inputs := rest, out := [] }) run source zero]
    exact ⟨rfl, tickStep_tempoActive _, tickStep_divCount _, tickStep_tickCounter_toNat run⟩

/-- A run of `n + 1` steps is the run of `n` from the state the first one leaves. -/
theorem run_succ {s t : State} (h : step s = .next t) (n : Nat) :
    Host.Core.run Sys2Proof.core (n + 1) s = Host.Core.run Sys2Proof.core n t := by
  refine (Host.Core.run.eq_2 Sys2Proof.core s n).trans ?_
  rw [show Sys2Proof.core.step s = .next t from h]

/-- Idle clock cycles count the divider down and do nothing else, as many as its counter has (R77). -/
theorem run_countdown {n : Nat} {s : State} (run : s.running = true) (source : s.cfg.tickSource = .divider)
    (idle : s.inputs = []) (silent : s.out = []) (enough : s.divCount = n) :
    Host.Core.run Sys2Proof.core n s = .next { s with divCount := 0 } := by
  induction n generalizing s with
  | zero => exact congrArg Host.Outcome.next (by rw [← enough])
  | succ n ih =>
    have count : step s = .next { s with divCount := n } := by
      have same : { s with out := [] } = s := by rw [← silent]
      rw [step_idle idle, same, dividerCycle_count run source (by omega), enough, Nat.add_sub_cancel]
    rw [run_succ count, ih (s := { s with divCount := n }) run source idle silent rfl]

/-- A clock cycle that finds the counter at 0 ticks (R77). -/
theorem step_idle_tick {s : State} (run : s.running = true) (source : s.cfg.tickSource = .divider) (idle : s.inputs = [])
    (zero : s.divCount = 0) : step s = .next (tickStep (periodLoaded { s with out := [] })) := by
  rw [step_idle idle, dividerCycle_tick (s := { s with out := [] }) run source zero]

/-- Settles O45: the tick loads the period less one, the idle cycles count that down to 0, and the next one ticks. -/
theorem ticksAreOneDivisorApart : Obligations.TicksAreOneDivisorApart := by
  unfold Obligations.TicksAreOneDivisorApart
  intro s _ source run zero idle
  have first := step_idle_tick run source idle zero
  generalize ht : tickStep (periodLoaded { s with out := [] }) = t at first
  have trun : t.running = true := by rw [← ht, tickStep_running]; exact run
  have tsource : t.cfg.tickSource = .divider := by rw [← ht, tickStep_cfg]; exact source
  have tidle : t.inputs = [] := by rw [← ht, tickStep_inputs]; exact idle
  have tcount : t.tickCounter.toNat = (s.tickCounter.toNat + 1) % 49152 := by
    rw [← ht]; exact tickStep_tickCounter_toNat run
  have period : t.divCount = tickPeriod s.cfg t.tempoActive.toNat - 1 := by
    rw [← ht, tickStep_divCount, tickStep_tempoActive]; rfl
  refine ⟨t, _, _, first, tcount, run_countdown (s := { t with out := [] }) trun tsource tidle rfl period, rfl,
    step_idle_tick (s := { t with out := [], divCount := 0 }) trun tsource tidle rfl, ?_⟩
  rw [tickStep_tickCounter_toNat (by exact trun)]
  change (t.tickCounter.toNat + 1) % 49152 = _
  rw [tcount, Nat.mod_add_mod]

end Sys2Proof.Machine
end

section
/-! SUPPORT. What does not depend on the clock frequency or the tick source (R78, R83): no command reads the frequency, and
the tick step reads neither. -/

namespace Sys2Proof.Machine

open Sys2Proof.Claims

/-- The state under another clock frequency and another tick source. -/
def retimed (hz : Nat) (source : TickSource) (s : State) : State :=
  { s with cfg := { s.cfg with fClk := hz, tickSource := source } }

/-- An operation acts on a state under another clock frequency and tick source as on the state itself. -/
def Untimed (f : State → State) : Prop := ∀ hz source s, f (retimed hz source s) = retimed hz source (f s)

theorem Untimed.comp {f g : State → State} (hf : Untimed f) (hg : Untimed g) : Untimed fun s => f (g s) :=
  fun hz source s => (congrArg f (hg hz source s)).trans (hf hz source _)

theorem Untimed.ite {p : State → Prop} [DecidablePred p] {f g : State → State}
    (hp : ∀ hz source s, p (retimed hz source s) ↔ p s) (hf : Untimed f) (hg : Untimed g) :
    Untimed fun s => if p s then f s else g s := by
  intro hz source s
  simp only [hp]
  split
  · exact hf hz source s
  · exact hg hz source s

theorem untimed_forChannels {f : Chan → State → State} (h : ∀ c, Untimed (f c)) : Untimed (forChannels f) :=
  fun hz source _ => List.foldl_hom (retimed hz source) fun s c => h c hz source s

theorem untimed_handle (now : BitVec 16) (c : Chan) : Untimed (handle now c) := fun _ _ _ => rfl

theorem untimed_timelineReset (now : BitVec 16) (c : Chan) : Untimed (timelineReset now c) := fun _ _ _ => rfl

theorem untimed_applyCfg (now : BitVec 16) (c : Chan) : Untimed (applyCfg now c) := fun _ _ _ => rfl

theorem untimed_dispatch (now : BitVec 16) (c : Chan) : Untimed (dispatch now c) :=
  .ite (fun _ _ _ => Iff.rfl) (untimed_handle now c) fun _ _ _ => rfl

theorem untimed_commitSwingIfReady : Untimed commitSwingIfReady :=
  .ite (fun _ _ _ => Iff.rfl) (fun _ _ _ => rfl) fun _ _ _ => rfl

theorem untimed_stopCommitChannel (c : Chan) : Untimed (stopCommitChannel c) :=
  .ite (fun _ _ _ => Iff.rfl) (fun _ _ _ => rfl) fun _ _ _ => rfl

theorem untimed_barCommitChannel (now : BitVec 16) (c : Chan) : Untimed (barCommitChannel now c) :=
  have first : Untimed fun t => if t.ch[c].nextTime = now then handle now c t else t :=
    .ite (fun _ _ _ => Iff.rfl) (untimed_handle now c) fun _ _ _ => rfl
  .ite (fun _ _ _ => Iff.rfl) (first.comp (g := fun s => setReady c false (applyCfg now c s)) fun _ _ _ => rfl)
    fun _ _ _ => rfl

theorem untimed_barCommit (now : BitVec 16) : Untimed (barCommit now) :=
  (untimed_forChannels (untimed_barCommitChannel now)).comp untimed_commitSwingIfReady

/-- The tick step reads neither the clock frequency nor the tick source (R78, R81, R83). -/
theorem untimed_tickStep : Untimed tickStep := by
  have gate : ∀ now, Untimed (barGate now) := fun now =>
    .ite (p := fun _ => barBoundary now = true) (fun _ _ _ => Iff.rfl) (untimed_barCommit now) fun _ _ _ => rfl
  have dispatched : ∀ now, Untimed (dispatchAll now) := fun now => untimed_forChannels (untimed_dispatch now)
  refine .ite (fun _ _ _ => Iff.rfl) (fun hz source s => ?_) fun _ _ _ => rfl
  have pass := ((gate s.tickCounter).comp (dispatched s.tickCounter)) hz source s
  exact congrArg (fun t : State => { t with tickCounter := tadd s.tickCounter 1 }) pass

/-- STOP reads neither (R87). -/
theorem untimed_stopped : Untimed stopped :=
  (untimed_forChannels (untimed_timelineReset 0)).comp <|
    (untimed_forChannels untimed_stopCommitChannel).comp <|
      untimed_commitSwingIfReady.comp (g := fun s => { s with running := false, tickCounter := 0, divCount := 0 })
        fun _ _ _ => rfl

theorem withClock_eq_retimed {s t : State} (hz : Nat) (h : t.cfg = s.cfg) :
    withClock hz t = retimed hz s.cfg.tickSource t := by
  rw [← h]; rfl

/-- A reserved opcode's command sets `CMD_ERR` (R132). -/
theorem exec_reserved {i : Instr} (opcode : 0xB ≤ (opcodeOf i).toNat) (s : State) :
    exec i s = .next (setErr cmdErrBit s) := by
  cases i with
  | reservedB | reservedC | reservedD | reservedE | reservedF => rfl
  | _ => simp [opcodeOf] at opcode

/-- No guard of a command and no value it writes depends on the clock frequency (R83). -/
theorem CommandEffect.exec_withClock {i : Instr} {s t : State} (effect : CommandEffect s i t) (hz : Nat) :
    exec i (withClock hz s) = .next (withClock hz t) := by
  cases effect with
  | nop | setTempo | clearErr => rfl
  | stageSwing _ yes | startAgain yes | timingRefused yes | patternRefused yes | commitAgain yes => exact if_pos yes
  | applySwing _ no | start no | stageTiming no | stagePattern no => exact if_neg (Bool.eq_false_iff.mp no)
  | stop =>
    obtain ⟨_, _, _, _, _, _, _, shape⟩ := stopped_shape s
    rw [withClock_eq_retimed hz (show (stopped s).cfg = s.cfg by rw [shape])]
    exact congrArg Host.Outcome.next (untimed_stopped hz s.cfg.tickSource s)
  | commitLater free run => exact (if_neg (Bool.eq_false_iff.mp free)).trans (if_pos run)
  | commitNow free run => exact (if_neg (Bool.eq_false_iff.mp free)).trans (if_neg (Bool.eq_false_iff.mp run))
  | @read c sel v value | @readRefused c sel value =>
    have same : readValue (withClock hz s) sel c = readValue s sel c := rfl
    rw [exec, execRead, same, value]
    rfl
  | stepTick source =>
    rw [withClock_eq_retimed hz (tickStep_cfg s)]
    exact (exec_stepTick_host (by exact source)).trans
      (congrArg Host.Outcome.next (untimed_tickStep hz s.cfg.tickSource s))
  | tickRefused source => exact exec_stepTick_divider (by exact source)
  | reserved opcode => exact exec_reserved opcode _

/-- Settles O58: by the outcomes of a command, each the same under the other frequency. -/
theorem commandsIgnoreTheClockFrequency : Obligations.CommandsIgnoreTheClockFrequency := by
  unfold Obligations.CommandsIgnoreTheClockFrequency
  intro i s hz
  obtain ⟨t, h, effect⟩ := exec_commandEffect i s
  exact ⟨t, h, effect.exec_withClock hz⟩

/-- Settles O44: the divider's tick step is STEP_TICK's, and under `HOST` the tick step is the same. -/
theorem dividerTicksAreStepTicks : Obligations.DividerTicksAreStepTicks := by
  unfold Obligations.DividerTicksAreStepTicks
  intro s rest listed run source zero
  generalize hu : periodLoaded { s with inputs := rest, out := [] } = u
  refine ⟨tickStep u, ?_, ?_⟩
  · rw [step_clock_cons listed, dividerCycle_tick (s := { s with inputs := rest, out := [] }) run source zero, hu]
  · have ucfg : u.cfg = s.cfg := by rw [← hu]; rfl
    have host : exec .stepTick (retimed s.cfg.fClk .host u) = .next (retimed s.cfg.fClk .host (tickStep u)) := by
      rw [exec_stepTick_host rfl, untimed_tickStep]
    rw [retimed, retimed, tickStep_cfg, ucfg] at host
    rw [← host, ← hu]
    rfl

end Sys2Proof.Machine
end
section
/-! SUPPORT. STOP (R87): every timeline it leaves starts afresh at tick 0. -/

namespace Sys2Proof.Machine

open Sys2Proof.Claims

/-! ### A timeline reset of a legal record (R100) -/

/-- The model's eligibility of a legal gate-kind record is the one of R96. -/
theorem eligibility_eligibleFrom {cap : Kind} {x : Channel} (legal : x.conf.Legal cap) (e : Entropy) :
    EligibleFrom x.conf x.seqIdx.toNat (eligibility x e).1 (eligibility x e).2.1 := by
  obtain ⟨-, -, -, len32, -, euclid, -⟩ := legal
  refine ⟨fun kind => ?_, fun kind => ?_, fun kind some => ?_, fun kind none => ?_⟩
  · simp [eligibility, kind]
  · exact eligibility_euclidean kind (euclid kind).1 len32
  · exact eligibility_random_pattern kind (Nat.pos_of_ne_zero some) len32
  · rw [eligibility_random_live kind (BitVec.eq_of_toNat_eq (by simpa using none))]
    exact ⟨⟨_, drawPercent_lt e, rfl⟩, rfl⟩

/-- The record a timeline reset starts from: gate closed, level 0, straight phase, the first event of kind `k` a start delay
after `now` (R100). -/
def timelineStart (cfg : Config) (now : BitVec 16) (k : EventKind) (x : Channel) : Channel :=
  { x with
    gateLevel := false
    pwmLevel := 0
    swingPhase := false
    elapsed := 0
    seqIdx := if x.conf.kind = .euclidean then BitVec.ofNat 5 (x.conf.len.toNat - 1) else 0
    nextTime := tadd now (delayTicks cfg x.conf.delay)
    nextKind := k }

theorem timelineChannel_gate {x : Channel} (gate : isGateKind x.conf.kind = true) (cfg : Config) (now : BitVec 16)
    (e : Entropy) : timelineChannel cfg now x e = withEligibility (timelineStart cfg now .gateOpen x) e :=
  if_pos gate

theorem timelineChannel_cv {x : Channel} (cv : ¬ isGateKind x.conf.kind = true) (cfg : Config) (now : BitVec 16)
    (e : Entropy) :
    timelineChannel cfg now x e = ({ timelineStart cfg now .pwmTick x with openEligible := false }, e) :=
  if_neg cv

theorem timelineStart_nextTime (cfg : Config) (now : BitVec 16) (k : EventKind) (x : Channel) :
    (timelineStart cfg now k x).nextTime.toNat = (now.toNat + delayTicks cfg x.conf.delay) % 49152 :=
  tadd_toNat _ _

theorem timelineStart_seqIdx {cap : Kind} {x : Channel} (legal : x.conf.Legal cap) (cfg : Config) (now : BitVec 16)
    (k : EventKind) :
    (timelineStart cfg now k x).seqIdx.toNat = if x.conf.kind = .euclidean then x.conf.len.toNat - 1 else 0 := by
  obtain ⟨-, -, -, len32, -⟩ := legal
  unfold timelineStart
  dsimp only
  split
  · rw [BitVec.toNat_ofNat]; omega
  · rfl

/-- A timeline reset of a legal record starts the timeline afresh (R100). -/
theorem timelineChannel_fresh {cap : Kind} {x : Channel} (legal : x.conf.Legal cap) (cfg : Config) (now : BitVec 16)
    (e : Entropy) : FreshTimeline cfg now.toNat (timelineChannel cfg now x e).1 := by
  by_cases gate : isGateKind x.conf.kind = true
  · rw [timelineChannel_gate gate]
    have eligible := eligibility_eligibleFrom (x := timelineStart cfg now .gateOpen x) legal e
    rw [timelineStart_seqIdx legal] at eligible
    exact ⟨rfl, rfl, rfl, rfl, timelineStart_nextTime cfg now .gateOpen x, fun _ => ⟨rfl, eligible⟩,
      fun cv => absurd ((gateKind_iff _).mpr gate) cv⟩
  · rw [timelineChannel_cv gate]
    have straight : x.conf.kind ≠ .euclidean := fun kind => gate (by rw [kind]; rfl)
    exact ⟨rfl, rfl, rfl, rfl, timelineStart_nextTime cfg now .pwmTick x, fun h => absurd ((gateKind_iff _).mp h) gate,
      fun _ => ⟨rfl, rfl, if_neg straight⟩⟩

/-! ### What STOP leaves -/

/-- The live swing and its table after a swing commit: the staged amount's where one is ready (R87, R116). -/
theorem commitSwingIfReady_swing (s : State) :
    (commitSwingIfReady s).swingReady = false ∧
      (commitSwingIfReady s).swingLive = (if s.swingReady then s.swingStaged else s.swingLive) ∧
      (s.swingReady = true → SwingTableOf s.swingStaged (commitSwingIfReady s).swt) ∧
      (s.swingReady = false → (commitSwingIfReady s).swt = s.swt) := by
  rcases commitSwingIfReady_cases s with ⟨unready, e⟩ | ⟨ready, e⟩ <;> rw [e]
  · exact ⟨unready, by simp [unready], fun ready => absurd (unready.symm.trans ready) nofun, fun _ => rfl⟩
  · exact ⟨rfl, by simp [ready], fun _ => swingTableOf_swingTable _, fun unready => absurd (unready.symm.trans ready) nofun⟩

/-- STOP emits one event for a channel exactly if its levels changed (R39). -/
theorem stopped_emitsOnChange (s : State) (c : Chan) : EmitsOnChange s (stopped s) c := by
  rw [emitsOnChange_iff]
  have events := timelineResets_events_at 0 c (stopCommitted s)
  rw [stopCommitted_ch, eventsOf, eventsOf, stopCommitted_out] at events
  exact events

/-- STOP leaves each channel a fresh timeline at tick 0, in the staged configuration where that is ready (R87). -/
theorem stopped_channel {s : State} (h : s.Inv) (c : Chan) :
    (stopped s).ch[c].conf = (if s.stg[c].ready then s.stg[c].conf else s.ch[c].conf) ∧
      FreshTimeline s.cfg 0 (stopped s).ch[c] := by
  obtain ⟨e, hc⟩ := stopped_ch s c
  have legal : (if s.stg[c].ready then s.stg[c].conf else s.ch[c].conf).Legal s.cfg.cap[c] := by
    split
    · exact (h.stagedLegal c).1
    · exact (h.liveLegal c).1
  rw [hc]
  exact ⟨timelineChannel_conf _ _ _ _, timelineChannel_fresh legal s.cfg 0 e⟩

/-- Settles O13: the registers by STOP's shape, the swing by its commit, and each channel by its timeline reset. -/
theorem stopResetsEveryTimeline : Obligations.StopResetsEveryTimeline := by
  unfold Obligations.StopResetsEveryTimeline
  intro s h
  obtain ⟨unready, live, table, same⟩ := commitSwingIfReady_swing s
  obtain ⟨hlive, hswt, hready⟩ : _ ∧ _ ∧ _ := by simpa only [swingOf, Prod.mk.injEq] using stopped_swing s
  have channel := stopped_channel h
  have stg := stopped_stg s
  have emits := stopped_emitsOnChange s
  obtain ⟨_, _, _, _, _, _, _, shape⟩ := stopped_shape s
  have stop : exec .stop s = .next (stopped s) := rfl
  generalize stopped s = t at *
  refine ⟨t, stop, by rw [shape], by rw [shape], by rw [shape], hready.trans unready, hlive.trans live,
    hswt ▸ table, fun no => hswt.trans (same no), fun c => ⟨stg c, (channel c).1, (channel c).2, emits c⟩, by rw [shape]⟩

end Sys2Proof.Machine
end
section
/-! SUPPORT. A tick away from a bar boundary is the dispatch pass and the increment (R81, R89). -/

namespace Sys2Proof.Machine

open Sys2Proof.Claims

/-- Away from a bar boundary a tick writes the tick counter, live records, the trace and the entropy input only (R42). -/
theorem tickStep_away_shape {s : State} (run : s.running = true) (away : s.tickCounter.toNat % 768 ≠ 0) :
    ∃ tc ch out e, tickStep s = { s with tickCounter := tc, ch := ch, out := out, entropy := e } := by
  obtain ⟨_, _, _, pass⟩ := dispatchAll_shape s.tickCounter s
  rw [tickStep_away run away, pass]
  exact ⟨_, _, _, _, rfl⟩

/-- What such a tick does to one channel: nothing unless its event is due; it keeps its configuration and emits exactly if its
levels change (R89, R90, R39). -/
theorem tickStep_away_channel {s : State} (run : s.running = true) (away : s.tickCounter.toNat % 768 ≠ 0) (c : Chan) :
    (due s.tickCounter s.ch[c] = false → (tickStep s).ch[c] = s.ch[c]) ∧
      (tickStep s).ch[c].conf = s.ch[c].conf ∧ EmitsOnChange s (tickStep s) c := by
  obtain ⟨e, ch, events⟩ := dispatchAll_events_at s.tickCounter c s
  obtain ⟨hch, hout, -⟩ := tickStep_plain run (.inl away)
  rw [emitsOnChange_iff, eventsOf, hout, hch]
  refine ⟨fun idle => ?_, ?_, events⟩
  · rw [ch, idle]; rfl
  · rw [ch]
    split
    · exact handleChannel_conf _ _ _ _ _
    · rfl

/-- Settles O16: the channels one by one, the other registers by the tick's shape. -/
theorem tickTouchesOnlyDueChannels : Obligations.TickTouchesOnlyDueChannels := by
  unfold Obligations.TickTouchesOnlyDueChannels
  intro s source run away
  have channel := tickStep_away_channel run away
  have tick := tickStep_tickCounter_toNat run
  have stepTick := exec_stepTick_host source
  obtain ⟨_, _, _, _, shape⟩ := tickStep_away_shape run away
  generalize tickStep s = t at *
  exact ⟨t, stepTick, tick, fun c idle => (channel c).1 (idle.elim not_due_of_ne not_due_of_none),
    fun c => (channel c).2, by rw [shape]⟩

end Sys2Proof.Machine
end
section
/-! SUPPORT. The full cycle from reset (R84): the reset configuration's channel opens at every multiple of its clock and closes a
gate time later, so `LIMIT` ticks, a multiple of the clock, bring it back to its schedule at tick 0. -/

namespace Sys2Proof.Machine

open Sys2Proof.Claims

/-! ### The reset configuration's channel -/

theorem tadd_tadd (t : BitVec 16) (a b : Nat) : tadd (tadd t a) b = tadd t (a + b) := by
  apply BitVec.eq_of_toNat_eq
  rw [tadd_toNat, tadd_toNat, tadd_toNat, Nat.mod_add_mod, Nat.add_assoc]

/-- The reset channel waiting to open at tick `n`, counted from tick 0 without wrapping. -/
def opensAt (n : Nat) : Channel := { Channel.reset with nextTime := tadd 0 n }

/-- The reset channel, opened, waiting to close at tick `n`. -/
def closesAt (n : Nat) : Channel :=
  { Channel.reset with gateLevel := true, nextTime := tadd 0 n, nextKind := .gateClose }

/-- The reset channel opens for its gate time, index 5 (R94, R97). -/
theorem handleChannel_opensAt (cfg : Config) (swt : Vector (BitVec 8) 6) (n m : Nat) (e : Entropy) :
    (handleChannel cfg swt (tadd 0 n) (opensAt m) e).1 = closesAt (n + cfg.div[5]) := by
  rw [closesAt, ← tadd_tadd]
  rfl

/-- It closes for the rest of its clock, index 6, which is not swingable, and is eligible again (R94, R96, R98). -/
theorem handleChannel_closesAt (cfg : Config) (swt : Vector (BitVec 8) 6) (n m : Nat) (e : Entropy) :
    (handleChannel cfg swt (tadd 0 n) (closesAt m) e).1 = opensAt (n + (cfg.div[6] - cfg.div[5])) := by
  rw [opensAt, ← tadd_tadd]
  rfl

/-- `x` is the reset channel's record before tick `n`: for a multiple `k` of its clock, it waits for `k` to open, or has opened at
`k` and waits to close. -/
def InCycle (cfg : Config) (n : Nat) (x : Channel) : Prop :=
  ∃ k, cfg.div[6] ∣ k ∧
    (n ≤ k ∧ k + cfg.div[5] < n + cfg.div[6] ∧ x = opensAt k ∨
      k < n ∧ n ≤ k + cfg.div[5] ∧ x = closesAt (k + cfg.div[5]))

theorem InCycle.conf {cfg : Config} {n : Nat} {x : Channel} (h : InCycle cfg n x) : x.conf = Record.reset := by
  obtain ⟨k, -, ⟨-, -, rfl⟩ | ⟨-, -, rfl⟩⟩ := h <;> rfl

/-- The durations of the reset configuration (R9). -/
theorem reset_durations {cfg : Config} (wf : cfg.Wf) :
    3 ≤ cfg.div[5] ∧ 2 * cfg.div[5] ≤ cfg.div[6] ∧ cfg.div[6] ≤ 16384 ∧ cfg.div[6] ∣ 49152 :=
  ⟨div_ge wf 5, div_double wf (i := 5) (j := 6) (by decide), div_le wf 6, wf.2.2.2.1 6⟩

/-- An event ahead by less than a wrap is not due (R90). -/
theorem not_due_of_ahead {x : Channel} {n m : Nat} (time : x.nextTime = tadd 0 m) (ahead : n < m)
    (near : m < n + 49152) : due (tadd 0 n) x = false := by
  refine not_due_of_ne ?_
  rw [time, show m = n + (m - n) by omega, ← tadd_tadd]
  exact tadd_ne _ (by omega) (by rw [limit_eq]; omega)

theorem due_opensAt (n : Nat) : due (tadd 0 n) (opensAt n) = true := due_of rfl nofun rfl

theorem due_closesAt (n : Nat) : due (tadd 0 n) (closesAt n) = true := due_of rfl nofun rfl

/-- The dispatch pass at tick `n` takes the channel through its cycle (R89). -/
theorem InCycle.dispatched {cfg : Config} (wf : cfg.Wf) {n : Nat} {x : Channel} (h : InCycle cfg n x)
    (swt : Vector (BitVec 8) 6) (e : Entropy) :
    InCycle cfg (n + 1)
      (if due (tadd 0 n) x then (handleChannel cfg swt (tadd 0 n) x e).1 else x) := by
  obtain ⟨three, double, long, -⟩ := reset_durations wf
  obtain ⟨k, multiple, ⟨before, near, rfl⟩ | ⟨after, before, rfl⟩⟩ := h
  · by_cases now : n = k
    · subst now
      rw [due_opensAt, if_pos rfl, handleChannel_opensAt]
      exact ⟨n, multiple, .inr ⟨by omega, by omega, rfl⟩⟩
    · rw [not_due_of_ahead rfl (by omega) (by omega)]
      exact ⟨k, multiple, .inl ⟨by omega, by omega, rfl⟩⟩
  · by_cases now : n = k + cfg.div[5]
    · rw [← now, due_closesAt, if_pos rfl, handleChannel_closesAt]
      refine ⟨k + cfg.div[6], Nat.dvd_add_self_right.mpr multiple, .inl ⟨by omega, by omega, ?_⟩⟩
      rw [show n + (cfg.div[6] - cfg.div[5]) = k + cfg.div[6] by omega]
    · rw [not_due_of_ahead rfl (by omega) (by omega)]
      exact ⟨k, multiple, .inr ⟨by omega, by omega, rfl⟩⟩

theorem inCycle_reset {cfg : Config} (wf : cfg.Wf) : InCycle cfg 0 Channel.reset := by
  obtain ⟨three, double, -, -⟩ := reset_durations wf
  exact ⟨0, dvd_zero _, .inl ⟨le_rfl, by omega, rfl⟩⟩

/-- After `LIMIT` ticks the cycle is at its start: the only multiple of the clock that near is `LIMIT` itself (R84, R9). -/
theorem InCycle.wrapped {cfg : Config} (wf : cfg.Wf) {x : Channel} (h : InCycle cfg 49152 x) : x = Channel.reset := by
  obtain ⟨three, double, -, divides⟩ := reset_durations wf
  obtain ⟨k, multiple, ⟨before, near, rfl⟩ | ⟨after, before, -⟩⟩ := h
  · have := Nat.eq_zero_of_dvd_of_lt (Nat.dvd_sub multiple divides) (by omega)
    rw [show k = 49152 by omega]
    rfl
  · have := Nat.eq_zero_of_dvd_of_lt (Nat.dvd_sub divides multiple) (by omega)
    omega

/-! ### The run -/

/-- The reset state running before tick `n` with the coming inputs `l`: only the tick counter, the live records and the trace
differ from reset. -/
def cycling (cfg : Config) (e : Entropy) (l : List Input) (n : Nat) (ch : Vector Channel 8) (out : List OutEvent) : State :=
  { State.resetWith cfg e l with running := true, tickCounter := tadd 0 n, ch := ch, out := out }

/-- With nothing ready the bar gate does nothing (R125). -/
theorem barGate_nothing_ready {s : State} (swing : s.swingReady = false) (records : ∀ c : Chan, s.stg[c].ready = false)
    (now : BitVec 16) : barGate now s = s := by
  rcases barGate_cases now s with ⟨-, h⟩ | ⟨-, h⟩ <;> rw [h]
  rw [barCommit_none now records, commitSwingIfReady, swing]
  rfl

/-- With nothing ready a tick is the dispatch pass and the increment, at a bar boundary too (R81). -/
theorem tickStep_nothing_ready {s : State} (run : s.running = true) (swing : s.swingReady = false)
    (records : ∀ c : Chan, s.stg[c].ready = false) :
    tickStep s = { dispatchAll s.tickCounter s with tickCounter := tadd s.tickCounter 1 } := by
  rw [tickStep_of_running run, barGate_nothing_ready (by rw [dispatchAll_swingReady, swing])
    fun c => by rw [dispatchAll_stg, records c]]

/-- A dispatch pass in which no channel can draw leaves the entropy input. -/
theorem dispatchAll_no_draws {s : State} (h : ∀ c : Chan, drawsOnEvent s.ch[c] = false) (now : BitVec 16) :
    (dispatchAll now s).entropy = s.entropy := by
  have none : ((List.finRange 8).filter fun c => due now s.ch[c] && drawsOnEvent s.ch[c]) = [] :=
    List.filter_eq_nil_iff.mpr fun c _ => by rw [h c, Bool.and_false]; exact Bool.false_ne_true
  exact (dispatchAll_draws now s [] none.symm).1

theorem InCycle.no_draws {cfg : Config} {n : Nat} {x : Channel} (h : InCycle cfg n x) : drawsOnEvent x = false := by
  rw [drawsOnEvent, h.conf]
  rfl

/-- One tick of the run. -/
theorem tickStep_cycling {cfg : Config} (wf : cfg.Wf) (e : Entropy) (l : List Input) (n : Nat) {ch : Vector Channel 8}
    (out : List OutEvent) (cycle : ∀ c : Chan, InCycle cfg n ch[c]) :
    ∃ ch' out', tickStep (cycling cfg e l n ch out) = cycling cfg e l (n + 1) ch' out' ∧
      ∀ c : Chan, InCycle cfg (n + 1) ch'[c] := by
  generalize hs : cycling cfg e l n ch out = s
  have hch : s.ch = ch := by rw [← hs]; rfl
  have hcfg : s.cfg = cfg := by rw [← hs]; rfl
  have hrun : s.running = true := by rw [← hs]; rfl
  have hnow : s.tickCounter = tadd 0 n := by rw [← hs]; rfl
  have swing : s.swingReady = false := by rw [← hs]; rfl
  have records : ∀ c : Chan, s.stg[c].ready = false := fun c => by
    rw [show s.stg = (State.resetWith cfg e l).stg by rw [← hs]; rfl, resetWith_stg]; rfl
  have draws := dispatchAll_no_draws (s := s) (fun c => by rw [hch]; exact (cycle c).no_draws) (tadd 0 n)
  have at_channel : ∀ c : Chan, InCycle cfg (n + 1) (dispatchAll (tadd 0 n) s).ch[c] := fun c => by
    obtain ⟨e', h⟩ := dispatchAll_at (tadd 0 n) c s
    rw [h, hch, hcfg]
    exact (cycle c).dispatched wf _ _
  obtain ⟨ch', out', e', shape⟩ := dispatchAll_shape (tadd 0 n) s
  rw [shape] at draws at_channel
  refine ⟨ch', out', ?_, at_channel⟩
  rw [tickStep_nothing_ready hrun swing records, hnow, shape, show e' = s.entropy from draws, ← hs, tadd_tadd]
  rfl

/-- A step with the word of a command listed first performs that command (R46, R53). -/
theorem step_command {s : State} {i : Instr} {rest : List Input} (h : s.inputs = .command (encode i) :: rest) :
    step s = exec i { s with inputs := rest, out := [] } := by
  rw [step, takeInput_cons h]
  exact congrArg (exec · _) (decode_encode i)

/-- `m` STEP_TICK words take the run from before tick `n` to before tick `n + m`. -/
theorem run_cycling {cfg : Config} (wf : cfg.Wf) (host : cfg.tickSource = .host) (e : Entropy) (m n : Nat)
    {ch : Vector Channel 8} (out : List OutEvent) (cycle : ∀ c : Chan, InCycle cfg n ch[c]) :
    ∃ ch' out', Host.Core.run Sys2Proof.core m (cycling cfg e (ticks m) n ch out) =
        .next (cycling cfg e [] (n + m) ch' out') ∧ ∀ c : Chan, InCycle cfg (n + m) ch'[c] := by
  induction m generalizing n ch out with
  | zero => exact ⟨ch, out, rfl, cycle⟩
  | succ m ih =>
    obtain ⟨ch1, out1, tick, cycle1⟩ := tickStep_cycling wf e (ticks m) n [] cycle
    obtain ⟨ch', out', rest, cycle'⟩ := ih (n + 1) out1 cycle1
    rw [Nat.add_right_comm, Nat.add_assoc] at rest cycle'
    have first : step (cycling cfg e (ticks (m + 1)) n ch out) = .next (cycling cfg e (ticks m) (n + 1) ch1 out1) := by
      rw [step_command (i := .stepTick) (rest := ticks m) rfl, exec_stepTick_host host, ← tick]
      rfl
    exact ⟨ch', out', (run_succ first m).trans rest, cycle'⟩

/-- Settles O25: START gives the cycle at tick 0, and `LIMIT` ticks bring it round. -/
theorem fullCycleFromReset : Obligations.FullCycleFromReset := by
  unfold Obligations.FullCycleFromReset
  intro cfg e wf host
  have cycle : ∀ c : Chan, InCycle cfg 0 (Vector.replicate 8 Channel.reset)[c] := fun c => by
    simpa using inCycle_reset wf
  obtain ⟨ch, out, run, wrapped⟩ := run_cycling wf host e 49152 0 [] cycle
  have start : step (State.resetWith cfg e (.command (encode .start) :: ticks 49152)) =
      .next (cycling cfg e (ticks 49152) 0 (Vector.replicate 8 Channel.reset) []) :=
    step_command (i := .start) (rest := ticks 49152) rfl
  refine ⟨_, (run_succ start 49152).trans run, rfl, ?_⟩
  have back : ch = Vector.replicate 8 Channel.reset :=
    Vector.ext fun i hi => by simpa using (wrapped ⟨i, hi⟩).wrapped wf
  rw [back]
  rfl

end Sys2Proof.Machine
end
section
/-! SUPPORT. The event rules of one channel in their tick (R89 to R99): a channel whose event is due, with no commit of its own in
that tick, is changed by its event rule and by nothing else. -/

namespace Sys2Proof.Machine

open Sys2Proof.Claims

/-! ### A tick without a commit of the channel -/

/-- The bar gate leaves a record that is not ready, and its events (R125). -/
theorem barGate_unready {now : BitVec 16} {s : State} {c : Chan} (h : now.toNat % 768 ≠ 0 ∨ s.stg[c].ready = false) :
    (barGate now s).ch[c] = s.ch[c] ∧ eventsOf (barGate now s) c = eventsOf s c := by
  by_cases on : now.toNat % 768 = 0
  · have unready := h.resolve_left (· on)
    obtain ⟨_, _, same⟩ := barCommit_at now c s
    rw [unready] at same
    rw [barGate_on on]
    exact ⟨same, barCommit_events_other unready⟩
  · rw [barGate_away on]
    exact ⟨rfl, rfl⟩

/-- A tick that does not commit the channel does to it what the dispatch pass does (R81). -/
theorem tickStep_uncommitted {s : State} {c : Chan} (run : s.running = true)
    (h : s.tickCounter.toNat % 768 ≠ 0 ∨ s.stg[c].ready = false) :
    (tickStep s).ch[c] = (dispatchAll s.tickCounter s).ch[c] ∧
      eventsOf (tickStep s) c = eventsOf (dispatchAll s.tickCounter s) c := by
  rw [tickStep_ch run, eventsOf, tickStep_out run]
  exact barGate_unready (h.imp id fun unready => by rwa [dispatchAll_stg])

/-- The tick that handles the channel's event: its rule applied once, on some entropy input, and one output event exactly if a
level changed (R89, R39). -/
theorem tickStep_dueAt {s : State} {c : Chan} {k : EventKind} (h : DueAt s c k) (pending : k ≠ .none) :
    exec .stepTick s = .next (tickStep s) ∧
      (∃ e : Entropy, (tickStep s).ch[c] = (handleChannel s.cfg s.swt s.tickCounter s.ch[c] e).1) ∧
      EmitsOnChange s (tickStep s) c := by
  obtain ⟨source, run, uncommitted, kind, time⟩ := h
  obtain ⟨ch, events⟩ := tickStep_uncommitted run uncommitted
  obtain ⟨e, pass, emits⟩ := dispatchAll_events_at s.tickCounter c s
  rw [due_of kind pending time, if_pos rfl] at pass
  rw [emitsOnChange_iff, events, ch]
  exact ⟨exec_stepTick_host source, ⟨e, pass⟩, emits⟩

/-! ### The only channel due -/

/-- The list of all channels, cut down to one of them, has at most that one. -/
theorem filter_only (c : Chan) (b : Bool) :
    ((List.finRange 8).filter fun d => decide (d = c) && b) = if b then [c] else [] := by
  revert c b
  decide

/-- In such a list the channel is the first. -/
theorem turn_of_only {c : Chan} {b : Bool} {n : Nat} (few : n ≤ (if b then [c] else []).length)
    (turn : ∀ k : Nat, (if b then [c] else [])[k]? = some c → k = n) : n = 0 := by
  cases b
  · exact Nat.le_zero.mp few
  · exact (turn 0 rfl).symm

/-- It makes one draw or none. -/
theorem skip_only (c : Chan) (b : Bool) (e : Entropy) :
    skip (if b then [c] else []).length e = if b then skip 1 e else e := by
  cases b <;> rfl

/-- Where no other channel is due, the dispatch pass is that channel's rule on the entropy input as it stands (R89). -/
theorem dispatchAll_alone {now : BitVec 16} {s : State} {c : Chan} (now_due : due now s.ch[c] = true)
    (alone : ∀ d : Chan, d ≠ c → due now s.ch[d] = false) :
    ((dispatchAll now s).ch[c], (dispatchAll now s).entropy) = handleChannel s.cfg s.swt now s.ch[c] s.entropy := by
  have drawers : ((List.finRange 8).filter fun d => due now s.ch[d] && drawsOnEvent s.ch[d]) =
      if drawsOnEvent s.ch[c] then [c] else [] := by
    rw [← filter_only]
    refine List.filter_congr fun d _ => ?_
    by_cases h : d = c
    · rw [h, now_due, decide_eq_true rfl]
    · rw [alone d h, decide_eq_false h, Bool.false_and, Bool.false_and]
  obtain ⟨entropy, channel⟩ := dispatchAll_draws now s _ drawers.symm
  obtain ⟨n, few, turn, ch⟩ := channel c
  rw [skip_only, ← handleChannel_entropy s.cfg s.swt now] at entropy
  rw [now_due, if_pos rfl, turn_of_only few turn, skip_zero] at ch
  rw [ch, entropy]

/-- The tick in which the channel alone is due and no record is committed: its rule on the entropy input as it stands. -/
theorem tickStep_alone {s : State} {c : Chan} {k : EventKind} (h : DueAt s c k) (pending : k ≠ .none)
    (alone : ∀ d : Chan, d ≠ c →
      s.ch[d].nextTime ≠ s.tickCounter ∧ (s.tickCounter.toNat % 768 = 0 → s.stg[d].ready = false)) :
    ((tickStep s).ch[c], (tickStep s).entropy) =
      handleChannel s.cfg s.swt s.tickCounter s.ch[c] s.entropy := by
  obtain ⟨-, run, uncommitted, kind, time⟩ := h
  have plain : s.tickCounter.toNat % 768 ≠ 0 ∨ ∀ d : Chan, s.stg[d].ready = false := by
    by_cases on : s.tickCounter.toNat % 768 = 0
    · refine .inr fun d => ?_
      by_cases hd : d = c
      · subst hd; exact uncommitted.resolve_left (· on)
      · exact (alone d hd).2 on
    · exact .inl on
  obtain ⟨ch, -, entropy⟩ := tickStep_plain run plain
  rw [ch, entropy]
  exact dispatchAll_alone (due_of kind pending time) fun d hd => not_due_of_ne (alone d hd).1

/-! ### GATE_OPEN (R97) -/

/-- Settles O17: the channel after the tick is what `GATE_OPEN` makes of it. -/
theorem gateOpenEvent : Obligations.GateOpenEvent := by
  unfold Obligations.GateOpenEvent
  intro s c h
  obtain ⟨tick, ⟨e, ch⟩, emits⟩ := tickStep_dueAt h nofun
  obtain ⟨-, -, -, kind, -⟩ := h
  rw [handleChannel_gateOpen kind] at ch
  refine ⟨_, tick, ?_⟩
  rw [ch]
  exact ⟨rfl, rfl, rfl, tadd_toNat _ _, emits, rfl⟩

/-! ### GATE_CLOSE (R98) -/

/-- A clock length that is not swingable opens a close time later and keeps the phase (R98, R112). -/
theorem nextOpen_straight {x : Channel} (long : 6 ≤ x.conf.clk.val) (cfg : Config) (swt : Vector (BitVec 8) 6)
    (now : BitVec 16) : nextOpen cfg swt now x = (tadd now (closeDur cfg x.conf), x.swingPhase) := by
  rw [nextOpen, swingOffset_other long]

/-- A swingable one opens later or earlier by its entry of the swing table, and flips the phase (R113). -/
theorem nextOpen_swung {x : Channel} (short : x.conf.clk.val < 6) (cfg : Config) (swt : Vector (BitVec 8) 6)
    (now : BitVec 16) : nextOpen cfg swt now x =
      applySwing x.swingPhase (tadd now (closeDur cfg x.conf)) swt[x.conf.clk.val].toNat := by
  rw [nextOpen, swingOffset_swingable short]

theorem applySwing_phase (phase : Bool) (base : BitVec 16) (off : Nat) : (applySwing phase base off).2 = !phase := by
  cases phase <;> rfl

theorem applySwing_late (base : BitVec 16) (off : Nat) :
    (applySwing false base off).1.toNat = (base.toNat + off) % 49152 := tadd_toNat _ _

/-- A swing offset is one byte, so far shorter than a wrap. -/
theorem applySwing_early (base : BitVec 16) (off : BitVec 8) :
    (applySwing true base off.toNat).1.toNat = (base.toNat + 49152 - off.toNat) % 49152 := by
  have := off.isLt
  refine (tsub_toNat _ _).trans ?_
  rw [limit_eq, Nat.mod_eq_of_lt (by omega : off.toNat < 49152)]

/-- `GATE_CLOSE` of a legal record decides its eligibility by R96. -/
theorem gateClose_eligibleFrom {cap : Kind} {x : Channel} (legal : x.conf.Legal cap) (cfg : Config)
    (swt : Vector (BitVec 8) 6) (now : BitVec 16) (e : Entropy) :
    EligibleFrom x.conf x.seqIdx.toNat (gateClose cfg swt now x e).1.openEligible (gateClose cfg swt now x e).1.seqIdx :=
  eligibility_eligibleFrom (x := { x with
    gateLevel := false, pwmLevel := 0, swingPhase := (nextOpen cfg swt now x).2
    nextTime := (nextOpen cfg swt now x).1, nextKind := .gateOpen }) legal e

/-- `GATE_CLOSE` draws for a live RandomTrigger record only (R98, R96). -/
theorem gateClose_entropy (cfg : Config) (swt : Vector (BitVec 8) 6) (now : BitVec 16) (x : Channel) (e : Entropy) :
    (gateClose cfg swt now x e).2 = if x.conf.kind = .randomTrigger ∧ x.conf.len = 0 then (drawBits32 e).2 else e :=
  eligibility_entropy _ e

/-- The draw of a live RandomTrigger channel that closes while no other channel is due (R96, R143). -/
theorem gateClose_live_draw {x : Channel} {e : Entropy} {v : Word} {rest : List Word} (cfg : Config)
    (swt : Vector (BitVec 8) 6) (now : BitVec 16) (kind : x.conf.kind = .randomTrigger) (live : x.conf.len = 0)
    (stream : e.stream = v :: rest) :
    (gateClose cfg swt now x e).1.openEligible = decide (v.toNat % 100 < x.conf.prob.toNat) ∧
      (gateClose cfg swt now x e).2.stream = rest ∧ (gateClose cfg swt now x e).2.count = e.count + 1 := by
  obtain ⟨_, n⟩ := e
  cases stream
  rw [gateClose_live kind live, gateClose_entropy, if_pos ⟨kind, live⟩, drawBits32_cons]
  exact ⟨rfl, rfl, rfl⟩

/-- Settles O18: the channel after the tick is what `GATE_CLOSE` makes of it, straight, late or early by the clock length and the
phase; alone in its tick, it draws from the entropy input as it stands. -/
theorem gateCloseEvent : Obligations.GateCloseEvent := by
  unfold Obligations.GateCloseEvent
  intro s c inv h
  have lone := tickStep_alone h nofun
  obtain ⟨tick, ⟨e, ch⟩, emits⟩ := tickStep_dueAt h nofun
  obtain ⟨-, -, -, kind, -⟩ := h
  obtain ⟨legal, -⟩ := inv.liveLegal c
  rw [handleChannel_gateClose kind] at ch lone
  refine ⟨_, _, tick, rfl, ?_⟩
  have base : (tadd s.tickCounter (closeDur s.cfg s.ch[c].conf)).toNat =
      (s.tickCounter.toNat + closeTime s.cfg s.ch[c].conf) % 49152 := tadd_toNat _ _
  have time : (tickStep s).ch[c].nextTime = (nextOpen s.cfg s.swt s.tickCounter s.ch[c]).1 := by rw [ch]; rfl
  have phase : (tickStep s).ch[c].swingPhase = (nextOpen s.cfg s.swt s.tickCounter s.ch[c]).2 := by rw [ch]; rfl
  have eligible := gateClose_eligibleFrom legal s.cfg s.swt s.tickCounter e
  rw [← ch] at eligible
  refine ⟨by rw [ch]; rfl, by rw [ch]; rfl, by rw [ch]; rfl, fun long => ?_, fun short => ?_, eligible, fun alone => ?_,
    emits, by rw [ch]; rfl, by rw [ch]; rfl⟩
  · rw [time, phase, nextOpen_straight long, base]
    exact ⟨rfl, rfl⟩
  · rw [time, phase, nextOpen_swung short, applySwing_phase, ← base]
    refine ⟨rfl, fun late => ?_, fun early => ?_⟩
    · rw [late, applySwing_late]
    · rw [early, applySwing_early]
  · obtain ⟨lone_ch, lone_entropy⟩ := Prod.ext_iff.mp (lone alone)
    dsimp only at lone_ch lone_entropy
    rw [lone_ch, lone_entropy]
    refine ⟨fun random live v rest stream => gateClose_live_draw _ _ _ random live stream, fun silent => ?_⟩
    rw [gateClose_entropy, if_neg fun both => silent.elim (· both.1) (· both.2)]

/-! ### PWM_TICK (R99) -/

/-- Before the end of its cycle a CV channel moves on by one PWM step (R105). -/
theorem advanceElapsed_within {cfg : Config} {x : Channel} (wf : cfg.Wf) (within : x.elapsed.toNat + 6 < cfg.div[x.conf.clk]) :
    (advanceElapsed cfg x).elapsed.toNat = x.elapsed.toNat + 6 ∧ (advanceElapsed cfg x).seqIdx = x.seqIdx := by
  have long := div_le wf x.conf.clk
  rw [advanceElapsed, clockTicks, pwmStep_eq, if_neg (by omega)]
  exact ⟨by rw [BitVec.toNat_ofNat]; omega, rfl⟩

/-- At the end of its cycle it starts again, at the next index (R105). -/
theorem advanceElapsed_restart {cfg : Config} {x : Channel} (restart : cfg.div[x.conf.clk] ≤ x.elapsed.toNat + 6) :
    (advanceElapsed cfg x).elapsed = 0 ∧ (advanceElapsed cfg x).seqIdx = restartIdx x := by
  rw [advanceElapsed, clockTicks, pwmStep_eq, if_pos restart]
  exact ⟨rfl, rfl⟩

/-- A Voltage channel with a sequence goes to its next sample, round the end of the sequence (R105). -/
theorem restartIdx_sequence {x : Channel} (kind : x.conf.kind = .voltage) (sequenced : x.conf.len ≠ 0)
    (len32 : x.conf.len.toNat ≤ 32) : (restartIdx x).toNat = (x.seqIdx.toNat + 1) % x.conf.len.toNat := by
  have pos : 0 < x.conf.len.toNat := Nat.pos_of_ne_zero fun h => sequenced (BitVec.eq_of_toNat_eq h)
  have below := Nat.mod_lt (x.seqIdx.toNat + 1) pos
  rw [restartIdx, if_pos ⟨kind, sequenced⟩, BitVec.toNat_ofNat]
  exact Nat.mod_eq_of_lt (by omega)

theorem restartIdx_other {x : Channel} (h : x.conf.kind ≠ .voltage ∨ x.conf.len = 0) : restartIdx x = x.seqIdx :=
  if_neg fun both => h.elim (· both.1) both.2

/-- Settles O19: the channel after the tick is what `PWM_TICK` makes of it, within its cycle or at its end. -/
theorem pwmTickEvent : Obligations.PwmTickEvent := by
  unfold Obligations.PwmTickEvent
  intro s c inv h
  obtain ⟨tick, ⟨e, ch⟩, emits⟩ := tickStep_dueAt h nofun
  obtain ⟨-, -, -, kind, -⟩ := h
  obtain ⟨⟨-, -, -, len32, -⟩, -⟩ := inv.liveLegal c
  obtain ⟨eligible, phase⟩ := advanceElapsed_rest s.cfg s.ch[c]
  rw [handleChannel_pwmTick kind] at ch
  refine ⟨_, tick, ?_⟩
  rw [ch]
  refine ⟨rfl, rfl, tadd_toNat _ _, advanceElapsed_within inv.cfgWf, fun restart => ?_, emits, advanceElapsed_conf _ _,
    phase, eligible⟩
  obtain ⟨zero, idx⟩ := advanceElapsed_restart restart
  exact ⟨zero, fun voltage sequenced => (congrArg BitVec.toNat idx).trans (restartIdx_sequence voltage sequenced len32),
    fun other => idx.trans (restartIdx_other other)⟩

end Sys2Proof.Machine
end
section
/-! SUPPORT. A pending event waits for its tick (R90): the ticks before it leave its channel alone. -/

namespace Sys2Proof.Machine

open Sys2Proof.Claims

/-- The ticks from now to the channel's event, counted round the wrap (R35). -/
def ticksAhead (s : State) (c : Chan) : Nat := (s.ch[c].nextTime.toNat + 49152 - s.tickCounter.toNat) % 49152

/-- The transport runs under `TICK_SOURCE = HOST` with no commit pending, and the channel's event is at least `n` ticks ahead. -/
structure Waits (s : State) (c : Chan) (n : Nat) : Prop where
  host : s.cfg.tickSource = .host
  run : s.running = true
  now : s.tickCounter.toNat < 49152
  unready : ∀ d : Chan, s.stg[d].ready = false
  ahead : n ≤ ticksAhead s c

/-- A tick before the event leaves the channel and is one of the ticks it waits (R90). -/
theorem Waits.tick {s : State} {c : Chan} {n : Nat} (h : Waits s c (n + 1)) :
    Waits (tickStep s) c n ∧ (tickStep s).ch[c] = s.ch[c] := by
  have idle : s.ch[c].nextTime ≠ s.tickCounter := fun arrived => by
    have ahead := h.ahead
    rw [ticksAhead, arrived] at ahead
    omega
  have kept : (tickStep s).ch[c] = s.ch[c] := by
    obtain ⟨_, same⟩ := dispatchAll_at s.tickCounter c s
    rw [not_due_of_ne idle] at same
    rw [(tickStep_plain h.run (.inr h.unready)).1]
    exact same
  have counted := tickStep_tickCounter_toNat h.run
  refine ⟨⟨by rw [tickStep_cfg]; exact h.host, by rw [tickStep_running]; exact h.run, by omega,
    fun d => eq_false_of_ne_true fun ready => ?_, ?_⟩, kept⟩
  · exact absurd ((h.unready d).symm.trans (tickStep_ready ready)) nofun
  · have ahead := h.ahead
    have now := h.now
    rw [ticksAhead] at ahead ⊢
    rw [kept, counted]
    omega

/-- `n` STEP_TICK words before the event count `n` ticks on and leave the channel. -/
theorem Waits.run_ticks {n : Nat} {s : State} {c : Chan} (h : Waits s c n) (listed : s.inputs = ticks n) :
    ∃ t, Host.Core.run Sys2Proof.core n s = .next t ∧ t.tickCounter.toNat = (s.tickCounter.toNat + n) % 49152 ∧
      t.ch[c] = s.ch[c] := by
  induction n generalizing s with
  | zero => exact ⟨s, rfl, (Nat.mod_eq_of_lt h.now).symm, rfl⟩
  | succ n ih =>
    have waits : Waits { s with inputs := ticks n, out := [] } c (n + 1) := ⟨h.host, h.run, h.now, h.unready, h.ahead⟩
    have first : step s = .next (tickStep { s with inputs := ticks n, out := [] }) :=
      (step_command (i := .stepTick) listed).trans (exec_stepTick_host h.host)
    have counted := tickStep_tickCounter_toNat waits.run
    have left := tickStep_inputs { s with inputs := ticks n, out := [] }
    obtain ⟨next, kept⟩ := waits.tick
    generalize tickStep { s with inputs := ticks n, out := [] } = u at *
    obtain ⟨t, rest, count, same⟩ := ih next left
    refine ⟨t, (run_succ first n).trans rest, ?_, same.trans kept⟩
    rw [count, counted, Nat.mod_add_mod, Nat.add_assoc, Nat.add_comm 1]

/-- Settles O23: by induction on the ticks before the event. -/
theorem pendingEventWaitsForItsTick : Obligations.PendingEventWaitsForItsTick := by
  unfold Obligations.PendingEventWaitsForItsTick
  intro s c n host run now below unready ahead
  have waits : Waits { s with inputs := ticks n } c n := ⟨host, run, now, unready, ahead⟩
  obtain ⟨t, ran, count, same⟩ := waits.run_ticks rfl
  refine ⟨t, ran, count, same, fun arrived => BitVec.eq_of_toNat_eq ?_⟩
  rw [same, count, arrived]
  dsimp only
  omega

end Sys2Proof.Machine
end
section
/-! SUPPORT. The ascending order of the channels (R89, R125, R87): the events and the draws of the dispatch pass, of the bar gate,
and the events of STOP. -/

namespace Sys2Proof.Machine

open Sys2Proof.Claims

/-! ### Events in ascending order -/

/-- The dispatch pass appends at most one event a channel, in ascending channel order (R89). -/
theorem dispatchAll_out_ascending {s : State} (silent : s.out = []) (now : BitVec 16) :
    AscendingStrict (dispatchAll now s).out := by
  obtain ⟨events, out, -, strict⟩ := forChannels_out 1 (dispatch_out now) s
  rw [dispatchAll, out, silent]
  exact strict rfl

/-- So do STOP's timeline resets (R87). -/
theorem stopped_out_ascending {s : State} (silent : s.out = []) : AscendingStrict (stopped s).out := by
  obtain ⟨events, out, -, strict⟩ := forChannels_out 1 (timelineReset_out 0) (stopCommitted s)
  rw [stopped, out, stopCommitted_out, silent]
  exact strict rfl

/-! ### What a draw decides -/

/-- The record shows the value of its draw: the eligibility of a RandomTrigger record, the level of a Voltage record (R96, R109,
R143). -/
def ShowsDraw (x : Channel) (v : Word) : Prop :=
  (x.conf.kind = .randomTrigger → x.openEligible = decide (v.toNat % 100 < x.conf.prob.toNat)) ∧
    (x.conf.kind = .voltage → x.pwmLevel.toNat = 1 + v.toNat % 255)

/-- An event rule that draws shows its draw (R98, R99). -/
theorem handleChannel_showsDraw {x : Channel} {e : Entropy} {n : Nat} {v : Word} (live : x.conf.len = 0)
    (draws : x.nextKind = .gateClose ∧ x.conf.kind = .randomTrigger ∨ x.nextKind = .pwmTick ∧ x.conf.kind = .voltage)
    (value : e.stream[n]? = some v) (cfg : Config) (swt : Vector (BitVec 8) 6) (now : BitVec 16) :
    ShowsDraw (handleChannel cfg swt now x (skip n e)).1 v := by
  rw [ShowsDraw, handleChannel_conf]
  rcases draws with ⟨event, kind⟩ | ⟨event, kind⟩
  · rw [handleChannel_gateClose event, gateClose_live kind live, drawBits32_value value, kind]
    exact ⟨fun _ => rfl, nofun⟩
  · rw [handleChannel_pwmTick event, pwmTick_live kind live, drawBits32_value value, kind]
    exact ⟨nofun, fun _ => rfl⟩

/-- A timeline reset that draws shows its draw (R100). -/
theorem timelineChannel_showsDraw {x : Channel} {e : Entropy} {n : Nat} {v : Word} (live : x.conf.len = 0)
    (random : x.conf.kind = .randomTrigger) (value : e.stream[n]? = some v) (cfg : Config) (now : BitVec 16) :
    ShowsDraw (timelineChannel cfg now x (skip n e)).1 v := by
  rw [ShowsDraw, timelineChannel_conf, timelineChannel_live random live, drawBits32_value value, random]
  exact ⟨fun _ => rfl, nofun⟩

/-- A GateOpen leaves the eligibility it opens with (R97), so it keeps a RandomTrigger record's draw. -/
theorem ShowsDraw.gateOpen {x : Channel} {v : Word} (h : ShowsDraw x v) (random : x.conf.kind = .randomTrigger)
    (cfg : Config) (now : BitVec 16) (e : Entropy) : ShowsDraw (gateOpen cfg now x e).1 v :=
  ⟨h.1, fun voltage => absurd (random.symm.trans voltage) nofun⟩

/-- A commit that draws shows its draw: of a RandomTrigger record on the timeline reset, of a Voltage record on its first event,
handled at once (R125). -/
theorem committed_showsDraw {x : Channel} {e : Entropy} {n : Nat} {v : Word} {cfg : Config} {now : BitVec 16} (wf : cfg.Wf)
    (below : now.toNat < limit) (live : x.conf.len = 0)
    (draws : x.conf.kind = .randomTrigger ∨ x.conf.kind = .voltage ∧ x.conf.delay.val = 0)
    (value : e.stream[n]? = some v) (swt : Vector (BitVec 8) 6) :
    ShowsDraw
      (if (timelineChannel cfg now x (skip n e)).1.nextTime = now then
        (handleChannel cfg swt now (timelineChannel cfg now x (skip n e)).1 (timelineChannel cfg now x (skip n e)).2).1
      else (timelineChannel cfg now x (skip n e)).1) v := by
  have conf := timelineChannel_conf cfg now x (skip n e)
  have event := timelineChannel_nextKind cfg now x (skip n e)
  rcases draws with random | ⟨voltage, undelayed⟩
  · have reset := timelineChannel_showsDraw live random value cfg now
    rw [random] at event
    rw [handleChannel_gateOpen event]
    split
    · exact reset.gateOpen (by rw [conf, random]) _ _ _
    · exact reset
  · have undrawn : drawsOnReset x.conf = false := by rw [drawsOnReset, voltage]; rfl
    rw [voltage] at event
    rw [if_pos ((timelineChannel_due wf below).mpr undelayed), timelineChannel_entropy, undrawn]
    exact handleChannel_showsDraw (by rw [conf, live]) (.inr ⟨event, by rw [conf, voltage]⟩) value _ _ _

/-! ### Draws in ascending order -/

/-- The draws of the dispatch pass: one for each channel whose event draws, in ascending order (R89, R143). -/
theorem dispatchAll_draws_ascending (s : State) :
    (dispatchAll s.tickCounter s).entropy = skip (ascending (DispatchDraws s)).length s.entropy ∧
      ∀ (c : Chan) (v : Word), Takes s (ascending (DispatchDraws s)) c v →
        ShowsDraw (dispatchAll s.tickCounter s).ch[c] v := by
  obtain ⟨entropy, channel⟩ := dispatchAll_draws s.tickCounter s _ (ascending_eq (dispatchDraws_eq s))
  refine ⟨entropy, fun c v ⟨k, place, value⟩ => ?_⟩
  obtain ⟨n, -, turn, ch⟩ := channel c
  obtain ⟨time, live, event⟩ := mem_ascending place
  have pending : s.ch[c].nextKind ≠ .none := fun none => by
    rw [none] at event
    exact event.elim (nomatch ·.1) (nomatch ·.1)
  rw [ch, due_of rfl pending time, if_pos rfl, ← turn k place]
  exact handleChannel_showsDraw live event value _ _ _

/-- The draws of the bar gate: one for each ready record whose commit draws, in ascending order (R125, R143). -/
theorem barCommit_draws_ascending {now : BitVec 16} {s : State} (wf : s.cfg.Wf) (below : now.toNat < limit) :
    (barCommit now s).entropy = skip (ascending (CommitDraws s)).length s.entropy ∧
      ∀ (c : Chan) (v : Word), Takes s (ascending (CommitDraws s)) c v → ShowsDraw (barCommit now s).ch[c] v := by
  obtain ⟨entropy, channel⟩ := barCommit_draws wf below _ (ascending_eq (commitDraws_eq s))
  refine ⟨entropy, fun c v ⟨k, place, value⟩ => ?_⟩
  obtain ⟨n, -, turn, -, commit⟩ := channel c
  obtain ⟨ready, live, draws⟩ := mem_ascending place
  rw [commit ready, ← turn k place]
  exact committed_showsDraw (x := { s.ch[c] with conf := s.stg[c].conf }) wf below live draws value _

/-! ### The tick and STOP -/

/-- A tick that commits no record (R89). -/
theorem tickStep_plain_order {s : State} (run : s.running = true) (silent : s.out = [])
    (plain : s.tickCounter.toNat % 768 ≠ 0 ∨ ∀ c : Chan, s.stg[c].ready = false) :
    AscendingStrict (tickStep s).out ∧ DrawsOnce s (tickStep s) (ascending (DispatchDraws s)) ∧
      ∀ (c : Chan) (v : Word), Takes s (ascending (DispatchDraws s)) c v → ShowsDraw (tickStep s).ch[c] v := by
  obtain ⟨ch, out, entropy⟩ := tickStep_plain run plain
  obtain ⟨drawn, shows⟩ := dispatchAll_draws_ascending s
  rw [DrawsOnce, entropy, drawn, out, ch]
  exact ⟨dispatchAll_out_ascending silent _, ⟨rfl, rfl⟩, shows⟩

/-- The dispatch pass leaves the staged records, so it does not change which commits draw. -/
theorem commitDraws_dispatchAll (now : BitVec 16) (s : State) :
    ascending (CommitDraws (dispatchAll now s)) = ascending (CommitDraws s) :=
  List.filter_congr fun c _ => by simp only [CommitDraws, dispatchAll_stg]

/-- The commits of a bar tick follow its dispatch pass (R125). -/
theorem tickStep_bar_order {s : State} (inv : s.Inv) (run : s.running = true) (bar : s.tickCounter.toNat % 768 = 0) :
    ∃ commits, (tickStep s).out = (tickStep (noneReady s)).out ++ commits ∧ Ascending commits ∧
      (∀ ev ∈ commits, s.stg[ev.chan].ready = true) ∧
      DrawsOnce (tickStep (noneReady s)) (tickStep s) (ascending (CommitDraws s)) ∧
      ∀ (c : Chan) (v : Word), Takes (tickStep (noneReady s)) (ascending (CommitDraws s)) c v →
        ShowsDraw (tickStep s).ch[c] v := by
  obtain ⟨-, out, entropy⟩ : _ ∧ (tickStep (noneReady s)).out = _ ∧ (tickStep (noneReady s)).entropy = _ :=
    tickStep_withStg run (noneReady s).stg (noneReady_ready s)
  obtain ⟨commits, appended, order, ready⟩ := barCommit_out s.tickCounter (dispatchAll s.tickCounter s)
  obtain ⟨drawn, shows⟩ := barCommit_draws_ascending (s := dispatchAll s.tickCounter s)
    (by rw [dispatchAll_cfg]; exact inv.cfgWf) inv.tickBelowLimit
  rw [commitDraws_dispatchAll] at drawn shows
  rw [dispatchAll_stg] at ready
  rw [tickStep_out run, tickStep_ch run, barGate_on bar, DrawsOnce, tickStep_entropy run, barGate_on bar, drawn, out,
    entropy]
  refine ⟨commits, appended, order, ready, ⟨rfl, rfl⟩, fun c v takes => shows c v ?_⟩
  rwa [Takes, entropy] at takes

/-- Settles O60: the dispatch pass, the bar gate after it, and STOP's resets each go through the channels in ascending order. -/
theorem channelsAreHandledInAscendingOrder : Obligations.ChannelsAreHandledInAscendingOrder := by
  unfold Obligations.ChannelsAreHandledInAscendingOrder
  refine ⟨fun s _ host run silent plain => ?_, fun s inv host run silent bar => ?_, fun s t silent stop => ?_⟩
  · obtain ⟨events, draws, shows⟩ := tickStep_plain_order run silent plain
    exact ⟨_, _, exec_stepTick_host host, rfl, events, draws, shows⟩
  · obtain ⟨commits, appended, order, ready, draws, shows⟩ := tickStep_bar_order inv run bar
    obtain ⟨events, -⟩ := tickStep_plain_order (s := noneReady s) run silent (.inr (noneReady_ready s))
    exact ⟨_, _, _, commits, exec_stepTick_host host, exec_stepTick_host (s := noneReady s) host, rfl, appended, events,
      order, ready, draws, shows⟩
  · have left : stopped s = t := Host.Outcome.next.inj stop
    exact left ▸ stopped_out_ascending silent

end Sys2Proof.Machine
end
section
/-! SUPPORT. The level a CV channel puts out: what its PwmTick computes from the entropy input it finds (R99, R106, R107,
R109). -/

namespace Sys2Proof.Machine

open Sys2Proof.Claims

/-! ### The level after a PwmTick (R99) -/

/-- The tick that handles a channel's PwmTick puts out `CV_LEVEL` on some entropy input (R99). -/
theorem tickStep_pwmLevel {s : State} {c : Chan} (h : DueAt s c .pwmTick) :
    exec .stepTick s = .next (tickStep s) ∧
      ∃ e : Entropy, (tickStep s).ch[c].pwmLevel = (cvLevel s.cfg s.ch[c] e).1 := by
  obtain ⟨tick, ⟨e, ch⟩, -⟩ := tickStep_dueAt h nofun
  obtain ⟨-, -, -, kind, -⟩ := h
  rw [handleChannel_pwmTick kind] at ch
  exact ⟨tick, e, by rw [ch]; rfl⟩

/-! ### Ramps (R107) -/

theorem ramp_le (e l : Nat) : ramp e l ≤ 255 := by
  unfold ramp
  split
  · exact le_rfl
  · exact Nat.div_le_of_le_mul (by rw [Nat.mul_comm]; exact Nat.mul_le_mul_right 255 (by omega))

theorem cvLevel_rampUp {x : Channel} (kind : x.conf.kind = .rampUp) (cfg : Config) (e : Entropy) :
    (cvLevel cfg x e).1.toNat = ramp x.elapsed.toNat (gateTicks cfg x.conf) := by
  have le := ramp_le x.elapsed.toNat (gateTicks cfg x.conf)
  simp only [cvLevel, kind, BitVec.toNat_ofNat]
  omega

theorem cvLevel_rampDown {x : Channel} (kind : x.conf.kind = .rampDown) (cfg : Config) (e : Entropy) :
    (cvLevel cfg x e).1.toNat = 255 - ramp x.elapsed.toNat (gateTicks cfg x.conf) := by
  simp only [cvLevel, kind, BitVec.toNat_ofNat]
  omega

/-- Settles O20: a ramp is at most 255, so its level is not cut at the register's width. -/
theorem rampLevels : Obligations.RampLevels := by
  unfold Obligations.RampLevels
  intro s c h
  obtain ⟨tick, e, level⟩ := tickStep_pwmLevel h
  refine ⟨_, tick, ?_⟩
  rintro _ _ _ rfl rfl rfl
  rw [level]
  exact ⟨fun up => cvLevel_rampUp up _ _, fun down => cvLevel_rampDown down _ _⟩

/-! ### Voltage levels (R109) -/

/-- With a sequence, the level is the byte its index names. -/
theorem cvLevel_sample {x : Channel} (kind : x.conf.kind = .voltage) (sequenced : x.conf.len ≠ 0) (cfg : Config)
    (e : Entropy) :
    (cvLevel cfg x e).1.toNat = (pattern x.conf).toNat / 2 ^ (8 * x.seqIdx.toNat) % 256 := by
  simp only [cvLevel, kind, voltLevel, if_neg sequenced, voltSample, BitVec.extractLsb'_toNat, Nat.shiftRight_eq_div_pow]

/-- Without one, it is a draw. -/
theorem cvLevel_freeRun {x : Channel} (kind : x.conf.kind = .voltage) (live : x.conf.len = 0) (cfg : Config)
    (e : Entropy) : cvLevel cfg x e = drawLevel e := by
  simp only [cvLevel, kind, voltLevel, if_pos live]

/-- The draw of a Voltage channel without a sequence that is handled while no other channel is due (R109, R143). -/
theorem pwmTick_live_draw {x : Channel} {e : Entropy} {v : Word} {rest : List Word} (cfg : Config) (now : BitVec 16)
    (kind : x.conf.kind = .voltage) (live : x.conf.len = 0) (stream : e.stream = v :: rest) :
    (pwmTick cfg now x e).1.pwmLevel.toNat = 1 + v.toNat % 255 ∧ (pwmTick cfg now x e).2.stream = rest := by
  obtain ⟨_, n⟩ := e
  cases stream
  refine ⟨pwmTick_live kind live, ?_⟩
  rw [pwmTick, cvLevel_freeRun kind live, drawLevel_entropy, drawBits32_cons]

/-- Settles O22: the sample of the index, or the draw; alone in its tick, the channel draws the next value of the entropy
input. -/
theorem voltageLevels : Obligations.VoltageLevels := by
  unfold Obligations.VoltageLevels
  intro s c _ h voltage
  obtain ⟨tick, e, level⟩ := tickStep_pwmLevel h
  refine ⟨_, tick, fun sequenced => ?_, fun live => ⟨?_, fun alone v rest stream => ?_⟩⟩
  · rw [level, cvLevel_sample voltage sequenced, patternWord_eq]
  · rw [level, cvLevel_freeRun voltage live, drawLevel_toNat]
    exact Nat.le_add_right _ _
  · obtain ⟨ch, entropy⟩ := Prod.ext_iff.mp (tickStep_alone h nofun alone)
    obtain ⟨-, -, -, kind, -⟩ := h
    rw [handleChannel_pwmTick kind] at ch entropy
    dsimp only at ch entropy
    rw [ch, entropy]
    exact pwmTick_live_draw _ _ voltage live stream

end Sys2Proof.Machine
end
section
/-! SUPPORT. The sine wave: the exact comparison of a cosine with a fraction, and the level found by it (R108, log 10). -/

namespace Sys2Proof.Machine

open Sys2Proof.Claims

/-! ### The cosine of a part of a turn -/

/-- The cosine of `a / l` of a turn, `cos(2*pi*a/l)` (R108). -/
noncomputable def cosTurn (a l : Nat) : ℝ := Real.cos (2 * Real.pi * a / l)

theorem cosTurn_zero (l : Nat) : cosTurn 0 l = 1 := by simp [cosTurn]

/-- Whole turns do not matter. -/
theorem cosTurn_mod {l : Nat} (hl : 0 < l) (a : Nat) : cosTurn (a % l) l = cosTurn a l := by
  have hl' : (l : ℝ) ≠ 0 := by exact_mod_cast hl.ne'
  have parts : (a : ℝ) = (a % l : ℕ) + l * (a / l : ℕ) := by exact_mod_cast (Nat.mod_add_div a l).symm
  have angle : 2 * Real.pi * a / l = 2 * Real.pi * (a % l : ℕ) / l + (a / l : ℕ) * (2 * Real.pi) := by
    rw [parts]
    field_simp
  rw [cosTurn, cosTurn, angle, Real.cos_add_nat_mul_two_pi]

/-- The double angle. -/
theorem cosTurn_double (a l : Nat) : cosTurn (2 * a) l = 2 * cosTurn a l ^ 2 - 1 := by
  have angle : 2 * Real.pi * (2 * a : ℕ) / l = 2 * (2 * Real.pi * a / l) := by push_cast; ring
  rw [cosTurn, cosTurn, angle, Real.cos_two_mul]

/-- A turn may be run backwards. -/
theorem cosTurn_sub {a l : Nat} (ha : a ≤ l) (hl : 0 < l) : cosTurn (l - a) l = cosTurn a l := by
  have hl' : (l : ℝ) ≠ 0 := by exact_mod_cast hl.ne'
  have angle : 2 * Real.pi * (l - a : ℕ) / l = 2 * Real.pi - 2 * Real.pi * a / l := by
    rw [Nat.cast_sub ha]
    field_simp
  rw [cosTurn, cosTurn, angle, Real.cos_two_pi_sub]

/-- A third of a turn. -/
theorem cosTurn_third {a l : Nat} (hl : 0 < l) (h : 3 * a = l) : cosTurn a l = -1 / 2 := by
  have ha : (a : ℝ) ≠ 0 := by exact_mod_cast (show a ≠ 0 by omega)
  have angle : 2 * Real.pi * a / l = Real.pi - Real.pi / 3 := by
    rw [← h]
    push_cast
    field_simp
    ring
  rw [cosTurn, angle, Real.cos_pi_sub, Real.cos_pi_div_three]
  norm_num

theorem cosTurn_thirds {a l : Nat} (hl : 0 < l) (h : 3 * a = l ∨ 3 * a = 2 * l) : cosTurn a l = -1 / 2 := by
  rcases h with h | h
  · exact cosTurn_third hl h
  · rw [← cosTurn_sub (by omega) hl]
    exact cosTurn_third hl (by omega)

/-- In the first quarter turn the cosine is not negative. -/
theorem cosTurn_nonneg_first {a l : Nat} (hl : 0 < l) (h : 4 * a ≤ l) : 0 ≤ cosTurn a l := by
  have hl' : (0 : ℝ) < l := by exact_mod_cast hl
  have h' : 4 * (a : ℝ) ≤ l := by exact_mod_cast h
  have pos := Real.pi_pos
  have angle : 0 ≤ 2 * Real.pi * a / l := by positivity
  refine Real.cos_nonneg_of_neg_pi_div_two_le_of_le (by linarith) ?_
  rw [div_le_iff₀ hl']
  nlinarith

/-- Nor in the last one. -/
theorem cosTurn_nonneg {a l : Nat} (ha : a < l) (h : 4 * a ≤ l ∨ 3 * l ≤ 4 * a) : 0 ≤ cosTurn a l := by
  rcases h with h | h
  · exact cosTurn_nonneg_first (by omega) h
  · rw [← cosTurn_sub ha.le (by omega)]
    exact cosTurn_nonneg_first (by omega) (by omega)

/-- Between them it is negative. -/
theorem cosTurn_neg {a l : Nat} (h1 : l < 4 * a) (h2 : 4 * a < 3 * l) : cosTurn a l < 0 := by
  have hl' : (0 : ℝ) < l := by exact_mod_cast (show 0 < l by omega)
  have h1' : (l : ℝ) < 4 * a := by exact_mod_cast h1
  have h2' : 4 * (a : ℝ) < 3 * l := by exact_mod_cast h2
  have pos := Real.pi_pos
  refine Real.cos_neg_of_pi_div_two_lt_of_lt ?_ ?_
  · rw [lt_div_iff₀ hl']
    nlinarith
  · rw [div_lt_iff₀ hl']
    nlinarith

/-! ### The comparison without rounding -/

theorem cmpInt_eq_cmp (a b : Int) : cmpInt a b = cmp (a : ℝ) (b : ℝ) := by
  unfold cmpInt
  rcases lt_trichotomy a b with lt | rfl | gt
  · rw [if_pos lt, (Int.cast_lt.mpr lt).cmp_eq_lt]
  · rw [if_neg (lt_irrefl a), if_pos rfl, cmp_self_eq_eq]
  · rw [if_neg gt.not_gt, if_neg gt.ne', (Int.cast_lt.mpr gt).cmp_eq_gt]

/-- Doubling the angle squares both sides of a comparison of nonnegative numbers. -/
theorem cmp_double {x p : ℝ} (hx : 0 ≤ x) (hp : 0 ≤ p) (q : ℝ) :
    cmp (2 * x ^ 2 - q ^ 2) (2 * p ^ 2 - q ^ 2) = cmp x p := by
  have mono : StrictMonoOn (fun z : ℝ => 2 * z ^ 2 - q ^ 2) {z | 0 ≤ z} := by
    intro y hy z _ lt
    have := pow_lt_pow_left₀ lt hy two_ne_zero
    dsimp only
    linarith
  exact mono.cmp_map_eq hx hp

/-- It turns a comparison of negative ones round. -/
theorem cmp_double_of_neg {x p : ℝ} (hx : x ≤ 0) (hp : p ≤ 0) (q : ℝ) :
    cmp (2 * p ^ 2 - q ^ 2) (2 * x ^ 2 - q ^ 2) = cmp x p := by
  have anti : StrictAntiOn (fun z : ℝ => 2 * z ^ 2 - q ^ 2) {z | z ≤ 0} := by
    intro y _ z hz lt
    have := pow_lt_pow_left₀ (neg_lt_neg lt) (neg_nonneg.mpr hz) two_ne_zero
    dsimp only
    linarith [neg_sq y, neg_sq z]
  exact anti.cmp_map_eq hp hx

/-- At a zero angle. -/
theorem cmpInt_of_zero {a l : Nat} (h : a = 0) (p q : Int) : cmpInt q p = cmp (q * cosTurn a l) p := by
  rw [cmpInt_eq_cmp, h, cosTurn_zero, mul_one]

/-- At a third of a turn. -/
theorem cmpInt_of_thirds {a l : Nat} (hl : 0 < l) (h : 3 * a = l ∨ 3 * a = 2 * l) (p q : Int) :
    cmpInt (-q) (2 * p) = cmp (q * cosTurn a l) p := by
  rw [cmpInt_eq_cmp, cosTurn_thirds hl h, ← cmp_mul_pos_left (two_pos : (0 : ℝ) < 2) (q * (-1 / 2))]
  push_cast
  congr 1
  ring

/-- The comparison of the doubled angle is that of the squares. -/
theorem cmp_cosTurn_double {a l : Nat} (hl : 0 < l) (p q : Int) :
    cmp (((q * q : Int) : ℝ) * cosTurn (2 * a % l) l) ((2 * p * p - q * q : Int) : ℝ) =
      cmp (2 * (q * cosTurn a l) ^ 2 - (q : ℝ) ^ 2) (2 * (p : ℝ) ^ 2 - (q : ℝ) ^ 2) := by
  rw [cosTurn_mod hl, cosTurn_double]
  push_cast
  congr 1 <;> ring

/-- A doubled angle, taken below a turn, needs one doubling less to end at a third of a turn. -/
theorem dvd_thirds_double {fuel a l : Nat} (h : l ∣ 3 * 2 ^ (fuel + 1) * a) : l ∣ 3 * 2 ^ fuel * (2 * a % l) := by
  have same : 3 * 2 ^ fuel * (2 * a) = 3 * 2 ^ (fuel + 1) * a := by ring
  rw [Nat.dvd_iff_mod_eq_zero, Nat.mul_mod_mod, same]
  exact Nat.dvd_iff_mod_eq_zero.mp h

/-- `cosCmp` compares `cos(2*pi*a/l)` with `p/q` exactly, as long as the doublings end at a third of a turn. -/
theorem cosCmp_eq_cmp {fuel a l : Nat} {p q : Int} (ha : a < l) (thirds : l ∣ 3 * 2 ^ fuel * a) (hq : 0 < q) :
    cosCmp fuel a l p q = cmp (q * cosTurn a l) p := by
  have hl : 0 < l := by omega
  induction fuel generalizing a p q with
  | zero =>
    obtain ⟨k, hk⟩ := thirds
    have few : k < 3 := lt_of_mul_lt_mul_left (by omega : l * k < l * 3) hl.le
    rw [cosCmp]
    split
    · exact cmpInt_of_zero ‹_› p q
    · refine cmpInt_of_thirds hl ?_ p q
      interval_cases k <;> omega
  | succ fuel ih =>
    have hq' : (0 : ℝ) < q := by exact_mod_cast hq
    have doubled := ih (a := 2 * a % l) (p := 2 * p * p - q * q) (q := q * q) (Nat.mod_lt _ hl)
      (dvd_thirds_double thirds) (mul_pos hq hq)
    rw [cmp_cosTurn_double hl] at doubled
    rw [cosCmp]
    split
    · exact cmpInt_of_zero ‹_› p q
    · split
      · exact cmpInt_of_thirds hl ‹_› p q
      · split
        · have pos : 0 ≤ q * cosTurn a l := mul_nonneg hq'.le (cosTurn_nonneg ha ‹_›)
          split
          · have below : (p : ℝ) < 0 := by exact_mod_cast ‹p < 0›
            exact (below.trans_le pos).cmp_eq_gt.symm
          · have hp : 0 ≤ (p : ℝ) := by exact_mod_cast not_lt.mp ‹¬ p < 0›
            rw [doubled, cmp_double pos hp]
        · have neg : q * cosTurn a l < 0 := mul_neg_of_pos_of_neg hq' (cosTurn_neg (by omega) (by omega))
          split
          · have above : 0 ≤ (p : ℝ) := by exact_mod_cast ‹0 ≤ p›
            exact (neg.trans_le above).cmp_eq_lt.symm
          · have hp : (p : ℝ) < 0 := by exact_mod_cast not_le.mp ‹¬ 0 ≤ p›
            rw [doubled, cmp_swap, cmp_double_of_neg neg.le hp.le]

/-! ### The level found -/

/-- The value a sine level is cut down from: `255 * (1 ± cos) / 2 + 1/2` (R108). -/
noncomputable def sineValue (start : SineStart) (x : ℝ) : ℝ :=
  match start with
  | .high => 255 * (1 + x) / 2 + 1 / 2
  | .low => 255 * (1 - x) / 2 + 1 / 2

theorem sineValue_nonneg (start : SineStart) (a l : Nat) : 0 ≤ sineValue start (cosTurn a l) := by
  have low : -1 ≤ cosTurn a l := Real.neg_one_le_cos _
  have high : cosTurn a l ≤ 1 := Real.cos_le_one _
  cases start <;> (simp only [sineValue]; linarith)

/-- No level exceeds 255 (R108: "No clamp applies"). -/
theorem sineValue_floor_lt (start : SineStart) (a l : Nat) : ⌊sineValue start (cosTurn a l)⌋₊ < 256 := by
  have low : -1 ≤ cosTurn a l := Real.neg_one_le_cos _
  have high : cosTurn a l ≤ 1 := Real.cos_le_one _
  rw [Nat.floor_lt (sineValue_nonneg start a l)]
  cases start <;> (simp only [sineValue]; push_cast; linarith)

/-- The test of a level is the comparison of real numbers it stands for, for a length of a legal table. -/
theorem sineAtLeast_iff {l : Nat} (hl : 0 < l) (turns : l ∣ limit) (start : SineStart) (e v : Nat) :
    sineAtLeast start e l v = true ↔ (v : ℝ) ≤ sineValue start (cosTurn e l) := by
  have exact_cmp (p : Int) : cosCmp 14 (e % l) l p 255 = cmp (255 * cosTurn e l) p := by
    rw [cosCmp_eq_cmp (Nat.mod_lt e hl) (Dvd.dvd.mul_right turns _) (by decide), cosTurn_mod hl, Int.cast_ofNat]
  cases start
  · rw [sineAtLeast, exact_cmp, bne_iff_ne, ne_eq, cmp_eq_lt_iff, not_lt, sineValue]
    push_cast
    constructor <;> intro h <;> linarith
  · rw [sineAtLeast, exact_cmp, bne_iff_ne, ne_eq, cmp_eq_gt_iff, not_lt, sineValue]
    push_cast
    constructor <;> intro h <;> linarith

/-- Trying the bits from the top one down finds the greatest number that passes a threshold test. -/
theorem foldl_bits_eq {test : Nat → Bool} {m : Nat} (threshold : ∀ v, test v = true ↔ v ≤ m) (k v : Nat) (low : v ≤ m)
    (high : m < v + 2 ^ k) :
    ((List.range k).reverse.map (2 ^ ·)).foldl (fun v b => if test (v + b) then v + b else v) v = m := by
  induction k generalizing v with
  | zero =>
    rw [pow_zero] at high
    exact (by omega : v = m)
  | succ k ih =>
    rw [pow_succ] at high
    rw [List.range_succ, List.reverse_append, List.map_append, List.foldl_append]
    simp only [List.reverse_singleton, List.map_singleton, List.foldl_cons, List.foldl_nil]
    split
    · exact ih _ ((threshold _).mp ‹_›) (by omega)
    · exact ih v low (not_le.mp fun le => ‹¬ _› ((threshold _).mpr le))

/-- A sine level is the exact value cut down to an integer (R108). -/
theorem sine_eq_floor {l : Nat} (hl : 0 < l) (turns : l ∣ limit) (start : SineStart) (e : Nat) :
    sine start e l = ⌊sineValue start (cosTurn e l)⌋₊ := by
  refine foldl_bits_eq (fun v => ?_) 8 0 (Nat.zero_le _) (sineValue_floor_lt start e l)
  rw [sineAtLeast_iff hl turns, Nat.le_floor_iff (sineValue_nonneg start e l)]

/-- The level of a sine channel is the exact one: it fits the level register (R106, R108). -/
theorem cvLevel_sine {cfg : Config} {x : Channel} (wf : cfg.Wf) (kind : x.conf.kind = .sine) (e : Entropy) :
    ((cvLevel cfg x e).1.toNat : ℤ) =
      ⌊sineValue cfg.sineStart (cosTurn x.elapsed.toNat (gateTicks cfg x.conf))⌋ := by
  have pos : 0 < gateTicks cfg x.conf := Nat.zero_lt_of_lt (div_ge wf x.conf.gate)
  obtain ⟨-, -, -, turns, -⟩ := wf
  have level := sine_eq_floor pos (turns x.conf.gate) cfg.sineStart x.elapsed.toNat
  simp only [cvLevel, kind, BitVec.toNat_ofNat]
  rw [level, Nat.mod_eq_of_lt (sineValue_floor_lt _ _ _)]
  exact Int.natCast_floor_eq_floor (sineValue_nonneg _ _ _)

/-- Settles O21: the comparison by doubled angles is exact for every length that divides the wrap, so the search finds the
rounded cosine. -/
theorem sineLevelsAreExact : Obligations.SineLevelsAreExact := by
  unfold Obligations.SineLevelsAreExact
  intro s c wf h sine
  obtain ⟨tick, e, level⟩ := tickStep_pwmLevel h
  refine ⟨_, tick, ?_⟩
  rintro _ rfl
  rw [level, cvLevel_sine wf sine]
  exact ⟨fun high => by rw [high]; rfl, fun low => by rw [low]; rfl⟩

end Sys2Proof.Machine
end
section
/-! SUPPORT. The pattern of `EUCLID(k, n)`: its positions, and how many they are (R101). -/

namespace Sys2Proof.Machine

open Sys2Proof.Claims

/-! ### The positions -/

/-- The steps' exact quotients grow by at least one a step, since `n / k >= 1`. -/
theorem ceilDiv_step {k n : Nat} (hk : 1 ≤ k) (hkn : k ≤ n) (j : Nat) :
    ceilDiv (j * n) k + 1 ≤ ceilDiv ((j + 1) * n) k := by
  unfold ceilDiv
  rw [← Nat.add_div_right _ hk]
  exact Nat.div_le_div_right (by rw [Nat.succ_mul]; omega)

theorem ceilDiv_strictMono {k n : Nat} (hk : 1 ≤ k) (hkn : k ≤ n) : StrictMono fun j => ceilDiv (j * n) k :=
  strictMono_nat_of_lt_succ fun j => ceilDiv_step hk hkn j

/-- They lie in `0..n-1` for the steps `0..k-1`. -/
theorem ceilDiv_lt {k n j : Nat} (hkn : k ≤ n) (hj : j < k) : ceilDiv (j * n) k < n := by
  have last : (j + 1) * n ≤ k * n := Nat.mul_le_mul_right n hj
  unfold ceilDiv
  rw [Nat.div_lt_iff_lt_mul (by omega), Nat.mul_comm n]
  rw [Nat.succ_mul] at last
  omega

/-- A step's position is below `n`. -/
theorem euclidPos_lt {k n j : Nat} (hkn : k ≤ n) (hj : j < k) : euclidPos k n j < n := by
  have := ceilDiv_lt hkn hj
  unfold euclidPos
  omega

/-- No two steps share a position. -/
theorem euclidPos_injOn {k n : Nat} (hk : 1 ≤ k) (hkn : k ≤ n) :
    Set.InjOn (euclidPos k n) (Finset.range k : Set Nat) := by
  intro i hi j hj same
  have hi := ceilDiv_lt hkn (Finset.mem_range.mp hi)
  have hj := ceilDiv_lt hkn (Finset.mem_range.mp hj)
  refine (ceilDiv_strictMono hk hkn).injective ?_
  simp only [euclidPos] at same ⊢
  omega

/-- Step 0 stands on the top bit. -/
theorem euclidPos_zero {k : Nat} (hk : 1 ≤ k) (n : Nat) : euclidPos k n 0 = n - 1 := by
  have : (k - 1) / k = 0 := Nat.div_eq_of_lt (by omega)
  rw [euclidPos, ceilDiv, Nat.zero_mul, Nat.zero_add, this, Nat.sub_zero]

/-- With a step for every position, step `j` stands on bit `n - 1 - j`. -/
theorem euclidPos_full {n : Nat} (hn : 1 ≤ n) (j : Nat) : euclidPos n n j = n - j - 1 := by
  have : (j * n + n - 1) / n = j := by
    rw [Nat.add_sub_assoc hn, Nat.mul_comm, Nat.mul_add_div hn, Nat.div_eq_of_lt (by omega), Nat.add_zero]
  rw [euclidPos, ceilDiv, this]

/-! ### The pattern -/

/-- The pattern of the first steps is the set of their positions inside the word. -/
theorem euclidSteps_getLsbD (k n m i : Nat) :
    (euclidSteps k n m).getLsbD i = true ↔ i < 32 ∧ ∃ j < m, i = euclidPos k n j := by
  induction m with
  | zero => simp [euclidSteps]
  | succ m ih =>
    have bit : (1#32 <<< euclidPos k n m).getLsbD i = true ↔ i < 32 ∧ i = euclidPos k n m := by
      rw [BitVec.getLsbD_shiftLeft, BitVec.getLsbD_one]
      simp only [Bool.and_eq_true, decide_eq_true_eq, Bool.not_eq_true', decide_eq_false_iff_not]
      omega
    rw [euclidSteps, BitVec.getLsbD_or, Bool.or_eq_true, ih, bit, ← and_or_left, Nat.exists_lt_succ_right]

/-- `EUCLID(k, n)` is the set of its positions. -/
theorem euclid_getLsbD {k n : Nat} (hkn : k ≤ n) (hn : n ≤ 32) (i : Nat) :
    (euclid k n).getLsbD i = true ↔ ∃ j < k, i = euclidPos k n j := by
  rw [euclid, euclidSteps_getLsbD, and_iff_right_iff_imp]
  rintro ⟨j, hj, rfl⟩
  exact (euclidPos_lt hkn hj).trans_le hn

/-- Every one lies in the low `n` bits. -/
theorem euclid_getLsbD_above {k n i : Nat} (hkn : k ≤ n) (hn : n ≤ 32) (hi : n ≤ i) :
    (euclid k n).getLsbD i = false := by
  refine Bool.eq_false_iff.mpr fun one => ?_
  obtain ⟨j, hj, rfl⟩ := (euclid_getLsbD hkn hn i).mp one
  exact (euclidPos_lt hkn hj).not_ge hi

/-- Its ones are as many as its steps, whose positions are distinct. -/
theorem euclid_ones {k n : Nat} (hk : 1 ≤ k) (hkn : k ≤ n) (hn : n ≤ 32) :
    ((List.range 32).filter fun i => (euclid k n).getLsbD i).length = k := by
  have positions : ((List.range 32).filter fun i => (euclid k n).getLsbD i).toFinset =
      (Finset.range k).image (euclidPos k n) := by
    ext i
    have below : (∃ j < k, i = euclidPos k n j) → i < 32 := by
      rintro ⟨j, hj, rfl⟩
      exact (euclidPos_lt hkn hj).trans_le hn
    simp only [List.mem_toFinset, List.mem_filter, List.mem_range, euclid_getLsbD hkn hn, Finset.mem_image,
      Finset.mem_range, and_iff_right_of_imp below, eq_comm]
  rw [← List.toFinset_card_of_nodup (List.nodup_range.filter _), positions,
    Finset.card_image_of_injOn (euclidPos_injOn hk hkn), Finset.card_range]

/-- `EUCLID(n, n)` is all ones. -/
theorem euclid_full {n : Nat} (h1 : 1 ≤ n) (hn : n ≤ 32) : (euclid n n).toNat = 2 ^ n - 1 := by
  refine Nat.eq_of_testBit_eq fun i => ?_
  rw [BitVec.testBit_toNat, Nat.testBit_two_pow_sub_one, Bool.eq_iff_iff, euclid_getLsbD le_rfl hn, decide_eq_true_iff]
  simp only [euclidPos_full h1]
  refine ⟨?_, fun hi => ⟨n - i - 1, by omega, by omega⟩⟩
  rintro ⟨j, hj, rfl⟩
  omega

/-! ### The statements about it -/

/-- Settles O27: the pattern is the set of its positions, all of which lie inside the word. -/
theorem euclideanPositions : Obligations.EuclideanPositions := by
  unfold Obligations.EuclideanPositions
  intro k n i _ hkn hn
  exact euclid_getLsbD hkn hn i

/-- Settles O26: the positions are distinct, below `n`, and the first of them is `n - 1`. -/
theorem euclideanPatternCounts : Obligations.EuclideanPatternCounts := by
  unfold Obligations.EuclideanPatternCounts
  intro k n hk hkn hn
  have top : (euclid k n).getLsbD (n - 1) = true :=
    (euclid_getLsbD hkn hn _).mpr ⟨0, hk, (euclidPos_zero hk n).symm⟩
  exact ⟨euclid_ones hk hkn hn, fun i => euclid_getLsbD_above hkn hn, top, euclid_full (hk.trans hkn) hn⟩

end Sys2Proof.Machine
end
section
/-! SUPPORT. The pattern a staging command draws (R102 to R104), for the record it leaves (R119 to R121). -/

namespace Sys2Proof.Machine

open Sys2Proof.Claims

/-! ### GENERATE and its draws -/

/-- The pattern word of a random record and the entropy input after it follow from the entropy input before it: a random-trigger
bit from each draw below `len`, a Voltage pattern from one draw, neither for `len = 0` (R102 to R104, R143). -/
def PatternDrawn (before after : Entropy) (r : Record) : Prop :=
  (r.kind = .randomTrigger →
    (∀ (j : Nat) (v : Word), j < 32 → j < r.len.toNat → before.stream[j]? = some v →
      (patternWord r).getLsbD j = decide (v.toNat % 100 < r.prob.toNat)) ∧
    (∀ j, r.len.toNat ≤ j → (patternWord r).getLsbD j = false) ∧
    after.stream = before.stream.drop r.len.toNat ∧ after.count = before.count + r.len.toNat) ∧
  (r.kind = .voltage → r.len ≠ 0 → ∀ v rest, before.stream = v :: rest →
    patternWord r = v ∧ after.stream = rest ∧ after.count = before.count + 1) ∧
  (r.kind = .randomTrigger ∨ r.kind = .voltage → r.len = 0 → patternWord r = 0 ∧ after = before)

/-- With `len = 0` a random-trigger record has `RTRIG`'s empty pattern, so `RTRIG` is its pattern for every `len` (R104). -/
theorem generatePattern_trigger {r : Record} (kind : r.kind = .randomTrigger) (e : Entropy) :
    generatePattern r e = rtrig r.prob.toNat r.len.toNat e := by
  simp only [generatePattern, kind]
  split
  · rename_i zero
    rw [zero]
    rfl
  · rfl

theorem generatePattern_voltage {r : Record} (kind : r.kind = .voltage) (sequenced : r.len ≠ 0) (e : Entropy) :
    generatePattern r e = drawBits32 e := by
  simp only [generatePattern, kind, if_neg sequenced, rvolt]

theorem generatePattern_empty {r : Record} (kind : r.kind = .randomTrigger ∨ r.kind = .voltage) (zero : r.len = 0)
    (e : Entropy) : generatePattern r e = (0, e) := by
  rcases kind with kind | kind <;> simp only [generatePattern, kind, if_pos zero]

/-- Step `j` of `RTRIG` decides bit `j` by the `j`-th draw (R102). -/
theorem rtrig_getLsbD {p len j : Nat} {e : Entropy} {v : Word} (word : j < 32) (inside : j < len)
    (value : e.stream[j]? = some v) : (rtrig p len e).1.getLsbD j = decide (v.toNat % 100 < p) := by
  have bit := rtrigFrom_getLsbD_inside p len 0 0 e inside (by omega) BitVec.getLsbD_zero value
  rwa [Nat.zero_add] at bit

/-- `GENERATE` draws the pattern of the record it leaves. -/
theorem generate_patternDrawn (r : Record) (e : Entropy) : PatternDrawn e (generate r e).2 (generate r e).1 := by
  have word : patternWord (generate r e).1 = (generatePattern r e).1 := pattern_withPattern _ _
  unfold PatternDrawn
  rw [word, generate_entropy, generate_record, withPattern_kind, withPattern_len, withPattern_prob]
  refine ⟨fun trigger => ?_, fun voltage sequenced v rest stream => ?_, fun random zero => ?_⟩
  · rw [generatePattern_trigger trigger]
    have after : (rtrig r.prob.toNat r.len.toNat e).2 = skip r.len.toNat e := rtrigFrom_entropy _ _ _ _ _
    rw [after]
    exact ⟨fun _ _ => rtrig_getLsbD, fun _ => rtrig_getLsbD_above _ _ _, rfl, rfl⟩
  · obtain ⟨_, n⟩ := e
    cases stream
    rw [generatePattern_voltage voltage sequenced, drawBits32_cons]
    exact ⟨rfl, rfl, rfl⟩
  · rw [generatePattern_empty random zero]
    exact ⟨rfl, rfl⟩

/-- A staging command's record has the pattern drawn for it (R119, R120). -/
theorem stageRecord_patternDrawn (c : Chan) (r : Record) (s : State) :
    PatternDrawn s.entropy (stageRecord c r s).entropy (stageRecord c r s).stg[c].conf := by
  rw [stageRecord_conf_same]
  exact generate_patternDrawn _ _

/-! ### The record both commands leave -/

theorem normalize_len_trigger {r : Record} (kind : (normalize r).kind = .randomTrigger) : (normalize r).len = r.len := by
  rw [normalize_kind] at kind
  refine BitVec.eq_of_toNat_eq ?_
  rw [normalize_len_toNat, kind, if_neg nofun, if_neg nofun]

theorem normalize_len_voltage {r : Record} (kind : (normalize r).kind = .voltage) :
    (normalize r).len.toNat = min r.len.toNat 4 := by
  rw [normalize_kind] at kind
  rw [normalize_len_toNat, kind, if_neg nofun, if_pos rfl]

theorem kindNumber_clampKind (cap : Kind) (k : BitVec 3) :
    kindNumber (clampKind cap k) = min (max k.toNat 1) (kindNumber cap) := by
  rw [kindNumber_eq, kindNumber_eq]
  exact kindCode_clampKind cap k

/-- A record that is not ready takes the command's fields (R118 to R120). -/
theorem exec_stageTiming_free {s : State} {c : Chan} (free : s.stg[c].ready = false) (kind : BitVec 3)
    (clk gate delay : BitVec 4) : exec (.stageTiming c kind clk gate delay) s = .next (stageRecord c
      { s.stg[c].conf with
        kind := clampKind s.cfg.cap[c] kind, clk := clampLength clk, gate := clampLength gate
        delay := clampDelay delay } s) := by
  simp only [exec, execStageTiming, free, Bool.false_eq_true, if_false]

theorem exec_stagePattern_free {s : State} {c : Chan} (free : s.stg[c].ready = false) (len steps : BitVec 6)
    (prob : BitVec 7) : exec (.stagePattern c len steps prob) s = .next (stageRecord c
      { s.stg[c].conf with len := clampLen len, steps := clampSteps steps, prob := clampProb prob } s) := by
  simp only [exec, execStagePattern, free, Bool.false_eq_true, if_false]

/-- Settles O28: the record a staging command leaves is the normalized one, with the pattern `GENERATE` draws for it. -/
theorem randomPatternsFollowTheDraws : Obligations.RandomPatternsFollowTheDraws := by
  unfold Obligations.RandomPatternsFollowTheDraws
  intro s ch i free command
  rcases command with ⟨kind, clk, gate, delay, rfl⟩ | ⟨len, steps, prob, rfl⟩
  · refine ⟨_, _, _, exec_stageTiming_free free kind clk gate delay, rfl, rfl, ?_, nofun, stageRecord_patternDrawn _ _ _⟩
    rintro _ _ _ _ ⟨⟩
    rw [stageRecord_conf_same, generate_record, withPattern_kind, withPattern_len, withPattern_prob, normalize_prob]
    exact ⟨by rw [normalize_kind, kindNumber_clampKind], rfl, normalize_len_trigger, normalize_len_voltage⟩
  · refine ⟨_, _, _, exec_stagePattern_free free len steps prob, rfl, rfl, nofun, ?_, stageRecord_patternDrawn _ _ _⟩
    rintro _ _ _ ⟨⟩
    rw [stageRecord_conf_same, generate_record, withPattern_kind, withPattern_len, withPattern_prob, normalize_prob]
    refine ⟨normalize_kind _, clampProb_toNat _, fun trigger => ?_, fun voltage => ?_⟩
    · rw [normalize_len_trigger trigger, clampLen_toNat]
    · rw [normalize_len_voltage voltage, clampLen_toNat]
      omega

end Sys2Proof.Machine
end
section
/-! SUPPORT. The swing registers (R26): SET_SWING writes the staged amount or the live one with its table, and a tick makes the
staged amount live at a bar boundary only (R111, R115, R116, R125). -/

namespace Sys2Proof.Machine

open Sys2Proof.Claims

/-! ### SET_SWING (R115) -/

/-- Settles O29: by the two branches of SET_SWING, each with the clamped amount. -/
theorem setSwingStagesOrApplies : Obligations.SetSwingStagesOrApplies := by
  unfold Obligations.SetSwingStagesOrApplies
  intro s val
  have clamped := clampSwing_toNat s.cfg val
  exact ⟨fun run => ⟨_, if_pos run, rfl, clamped, rfl⟩,
    fun halted => ⟨_, if_neg (ne_true_of_eq_false halted), rfl, clamped, swingTableOf_swingTable _, rfl⟩⟩

/-! ### The swing commit in a tick (R116, R125) -/

/-- The swing commit makes a ready amount live with its table and clears the flag (R116). -/
theorem commitSwingIfReady_swingOf (s : State) : swingOf (commitSwingIfReady s) =
    if s.swingReady then (s.swingStaged, swingTable s.swingStaged, false) else swingOf s := by
  rcases commitSwingIfReady_cases s with ⟨unready, e⟩ | ⟨ready, e⟩ <;> rw [e]
  · exact (if_neg (ne_true_of_eq_false unready)).symm
  · exact (if_pos ready).symm

theorem dispatchAll_swingOf (now : BitVec 16) (s : State) : swingOf (dispatchAll now s) = swingOf s := by
  simp only [swingOf, dispatchAll_swingLive, dispatchAll_swt, dispatchAll_swingReady]

/-- The channels' commits leave the swing registers as the bar gate's swing commit makes them (R125). -/
theorem barCommit_swingOf (now : BitVec 16) (s : State) : swingOf (barCommit now s) = swingOf (commitSwingIfReady s) := by
  simp only [swingOf, barCommit_swingLive, barCommit_swt, barCommit_swingReady]

/-- A tick commits the swing at a bar boundary, of the amount that was ready before the tick, and else leaves its registers
(R81, R116). -/
theorem tickStep_swingOf {s : State} (run : s.running = true) : swingOf (tickStep s) =
    if s.tickCounter.toNat % 768 = 0 ∧ s.swingReady = true then (s.swingStaged, swingTable s.swingStaged, false)
    else swingOf s := by
  have gate : swingOf (tickStep s) = swingOf (barGate s.tickCounter (dispatchAll s.tickCounter s)) := by
    rw [tickStep_of_running run]
    rfl
  rw [gate]
  by_cases bar : s.tickCounter.toNat % 768 = 0
  · rw [barGate_on bar, barCommit_swingOf, commitSwingIfReady_swingOf, dispatchAll_swingOf, dispatchAll_swingReady,
      dispatchAll_swingStaged]
    simp only [bar, true_and]
  · rw [barGate_away bar, dispatchAll_swingOf, if_neg fun both => bar both.1]

/-- Settles O30: by the swing registers after a tick, committed where both the boundary and the flag are there. -/
theorem swingCommitsAtTheBar : Obligations.SwingCommitsAtTheBar := by
  unfold Obligations.SwingCommitsAtTheBar
  intro s source run
  have swing := tickStep_swingOf run
  refine ⟨tickStep s, exec_stepTick_host source, tickStep_swingStaged s, fun bar ready => ?_, fun kept => ?_⟩
  · rw [if_pos ⟨bar, ready⟩] at swing
    obtain ⟨live, table, unready⟩ : _ ∧ _ ∧ _ := by simpa only [swingOf, Prod.mk.injEq] using swing
    exact ⟨live, table ▸ swingTableOf_swingTable _, unready⟩
  · have uncommitted : ¬ (s.tickCounter.toNat % 768 = 0 ∧ s.swingReady = true) :=
      not_and_or.mpr (kept.imp_right ne_true_of_eq_false)
    rw [if_neg uncommitted] at swing
    simpa only [swingOf, Prod.mk.injEq] using swing

end Sys2Proof.Machine
end
section
/-! SUPPORT. The staging commands and COMMIT (44_commit.md, R117 to R124): the record a staging command leaves, and the timeline
a COMMIT starts at once while the transport is stopped. -/

namespace Sys2Proof.Machine

open Sys2Proof.Claims

/-! ### NORMALIZE and GENERATE (R104, R121) -/

/-- What the end of a staging command makes of the record `old` with the command's clamped operands: the fields are consistent
with the kind, and a pattern that takes no draw is the one of the kind (R104, R121). -/
structure StagedFrom (old new : Record) : Prop where
  kind : new.kind = old.kind
  clk : new.clk = old.clk
  delay : new.delay = old.delay
  prob : new.prob = old.prob
  gate : new.gate.val = if GateKind new.kind then min old.gate.val old.clk.val else old.gate.val
  len : new.len.toNat = if new.kind = .euclidean then max old.len.toNat 1
    else if new.kind = .voltage then min old.len.toNat 4 else old.len.toNat
  steps : new.steps.toNat = if new.kind = .euclidean then min old.steps.toNat new.len.toNat else old.steps.toNat
  euclidean : new.kind = .euclidean → patternWord new = euclid new.steps.toNat new.len.toNat
  empty : new.kind = .clock ∨ ¬ GateKind new.kind ∧ new.kind ≠ .voltage → patternWord new = 0

theorem normalize_gate_val (r : Record) :
    (normalize r).gate.val = if GateKind r.kind then min r.gate.val r.clk.val else r.gate.val := by
  rw [normalize_gate]
  by_cases gate : isGateKind r.kind = true
  · rw [if_pos gate, if_pos ((gateKind_iff _).mpr gate), shorterOf_val]
  · rw [if_neg gate, if_neg (mt (gateKind_iff _).mp gate)]

/-- `NORMALIZE` cuts a Euclidean record's steps at the length it leaves (R121). -/
theorem normalize_steps_le_len (r : Record) :
    (normalize r).steps.toNat =
      if r.kind = .euclidean then min r.steps.toNat (normalize r).len.toNat else r.steps.toNat := by
  rw [normalize_steps_toNat, normalize_len_toNat]
  split <;> rfl

/-- The ramps, the sine and the clock have no pattern (R104). -/
theorem patternLegal_empty {r : Record} (legal : r.PatternLegal)
    (plain : r.kind = .clock ∨ ¬ GateKind r.kind ∧ r.kind ≠ .voltage) : patternWord r = 0 := by
  obtain ⟨-, -, -, empty⟩ := legal
  rcases plain with clock | ⟨cv, voltage⟩
  · exact empty (by simp [clock]) (by simp [clock]) (by simp [clock])
  · exact empty (fun e => cv (.inr (.inl e))) (fun e => cv (.inr (.inr e))) voltage

theorem generate_stagedFrom (r : Record) (e : Entropy) : StagedFrom r (generate (normalize r) e).1 := by
  have kind : (generate (normalize r) e).1.kind = r.kind := normalize_kind r
  have legal := generate_patternLegal (normalize r) e
  exact {
    kind := kind
    clk := normalize_clk r
    delay := normalize_delay r
    prob := normalize_prob r
    gate := kind ▸ normalize_gate_val r
    len := kind ▸ normalize_len_toNat r
    steps := kind ▸ normalize_steps_le_len r
    euclidean := legal.1
    empty := patternLegal_empty legal }

/-- Only a random pattern of at least one step takes draws (R104). -/
theorem generatePattern_entropy {r : Record} (plain : r.kind ≠ .randomTrigger ∧ r.kind ≠ .voltage ∨ r.len = 0) (e : Entropy) :
    (generatePattern r e).2 = e := by
  cases kind : r.kind with
  | clock | euclidean | rampUp | rampDown | sine => simp only [generatePattern, kind]
  | randomTrigger | voltage =>
    have zero : r.len = 0 := plain.resolve_left (by simp [kind])
    simp only [generatePattern, kind, if_pos zero]

/-! ### The staging commands (R118 to R120) -/

/-- A staging command writes one staged record and the entropy input, this one only for a random pattern. -/
theorem stageRecord_staged {s : State} {c : Chan} (free : s.stg[c].ready = false) (r : Record) :
    ∃ new, (stageRecord c r s).stg[c] = { conf := new, ready := false } ∧ StagedFrom r new ∧
      (new.kind ≠ .randomTrigger ∧ new.kind ≠ .voltage ∨ new.len = 0 → (stageRecord c r s).entropy = s.entropy) ∧
      (∀ d : Chan, d ≠ c → (stageRecord c r s).stg[d] = s.stg[d]) ∧
      { stageRecord c r s with stg := s.stg, entropy := s.entropy } = s := by
  have ready : (stageRecord c r s).stg[c].ready = false := (stageRecord_ready c c r s).trans free
  refine ⟨(generate (normalize r) s.entropy).1, ?_, generate_stagedFrom r s.entropy,
    fun plain => generatePattern_entropy plain s.entropy, fun d other => stageRecord_stg_other other r s, rfl⟩
  rw [← stageRecord_conf_same, ← ready]

/-- Settles O31: the record is the staged one with the clamped operands, made consistent with its kind. -/
theorem stageTimingNormalizes : Obligations.StageTimingNormalizes := by
  unfold Obligations.StageTimingNormalizes
  intro s ch kind clk gate delay free
  obtain ⟨r, record, staged, entropy, others, frame⟩ := stageRecord_staged free
    { s.stg[ch].conf with
      kind := clampKind s.cfg.cap[ch] kind, clk := clampLength clk, gate := clampLength gate, delay := clampDelay delay }
  exact ⟨_, r, _, exec_stageTiming_free free kind clk gate delay, record, rfl,
    staged.kind ▸ kindNumber_clampKind _ _, congrArg Fin.val staged.clk, congrArg Fin.val staged.delay, staged.gate,
    staged.len, staged.steps, staged.prob, staged.euclidean, staged.empty, entropy, others, frame⟩

/-- Settles O32: in the same way, with the clamps of this command; a Voltage length clamped to 32 and then to 4 is clamped to 4. -/
theorem stagePatternNormalizes : Obligations.StagePatternNormalizes := by
  unfold Obligations.StagePatternNormalizes
  intro s ch len steps prob free
  obtain ⟨r, record, staged, entropy, others, frame⟩ := stageRecord_staged free
    { s.stg[ch].conf with len := clampLen len, steps := clampSteps steps, prob := clampProb prob }
  have hlen := staged.len
  have hsteps := staged.steps
  rw [clampLen_toNat] at hlen
  rw [clampSteps_toNat] at hsteps
  refine ⟨_, r, _, exec_stagePattern_free free len steps prob, record, rfl, staged.kind, staged.clk, staged.delay,
    staged.gate, ?_, hsteps, staged.prob ▸ clampProb_toNat prob, staged.euclidean, staged.empty, entropy, others, frame⟩
  have cut : min (min len.toNat 32) 4 = min len.toNat 4 := by omega
  rwa [cut] at hlen

/-- Settles O33: both commands refuse a ready record, with `BUSY_ERR` set and `CMD_ERR` as it was. -/
theorem stagingWhileReadyIsRefused : Obligations.StagingWhileReadyIsRefused := by
  unfold Obligations.StagingWhileReadyIsRefused
  intro s ch i ready command
  obtain ⟨busy, cmd⟩ := setErr_busyErrBit s
  have refused : exec i s = .next (setErr busyErrBit s) := by
    rcases command with ⟨kind, clk, gate, delay, rfl⟩ | ⟨len, steps, prob, rfl⟩
    · exact if_pos ready
    · exact if_pos ready
  exact ⟨_, refused, busy, cmd, rfl⟩

/-! ### COMMIT (R122 to R124) -/

theorem exec_commit_ready {s : State} {c : Chan} (ready : s.stg[c].ready = true) : exec (.commit c) s = .next s :=
  if_pos ready

theorem exec_commit_running {s : State} {c : Chan} (free : s.stg[c].ready = false) (run : s.running = true) :
    exec (.commit c) s = .next (setReady c true s) := by
  simp only [exec, execCommit, free, run, Bool.false_eq_true, if_false, if_true]

theorem exec_commit_stopped {s : State} {c : Chan} (free : s.stg[c].ready = false) (halted : s.running = false) :
    exec (.commit c) s = .next (applyCfg 0 c s) := by
  simp only [exec, execCommit, free, halted, Bool.false_eq_true, if_false]

/-- Settles O34: by the two values of the flag. -/
theorem commitWhileRunningSetsReady : Obligations.CommitWhileRunningSetsReady := by
  unfold Obligations.CommitWhileRunningSetsReady
  intro s ch
  refine ⟨exec_commit_ready, fun run => ?_⟩
  cases flag : s.stg[ch].ready
  · exact ⟨_, exec_commit_running flag run, setReady_stg_same ch true s, fun d other => setReady_stg_other other true s, rfl⟩
  · exact ⟨s, exec_commit_ready flag, by rw [← flag], fun _ _ => rfl, rfl⟩

/-- A staged record applied at `now` leaves the entropy input as its timeline reset does (R124). -/
theorem applyCfg_entropy (now : BitVec 16) (c : Chan) (s : State) : (applyCfg now c s).entropy =
    (timelineChannel s.cfg now { s.ch[c] with conf := s.stg[c].conf } s.entropy).2 := by
  rw [← copyStaged_ch_same]
  rfl

/-- The timeline reset of a live RandomTrigger record takes the next value of the entropy input (R96, R100, R143). -/
theorem timelineChannel_live_draw {x : Channel} {e : Entropy} {v : Word} {rest : List Word} (cfg : Config) (now : BitVec 16)
    (random : x.conf.kind = .randomTrigger) (live : x.conf.len = 0) (stream : e.stream = v :: rest) :
    (timelineChannel cfg now x e).1.openEligible = decide (v.toNat % 100 < x.conf.prob.toNat) ∧
      (timelineChannel cfg now x e).2.stream = rest ∧ (timelineChannel cfg now x e).2.count = e.count + 1 := by
  have draws : drawsOnReset x.conf = true := decide_eq_true ⟨random, live⟩
  obtain ⟨_, n⟩ := e
  cases stream
  rw [timelineChannel_live random live, timelineChannel_entropy, draws, drawBits32_cons]
  exact ⟨rfl, rfl, rfl⟩

/-- It emits for its timeline reset, exactly if the channel's levels change (R124, R39). -/
theorem applyCfg_out (now : BitVec 16) (c : Chan) (s : State) :
    (applyCfg now c s).out = s.out ++ change c (levels s c) (levels (applyCfg now c s) c) := by
  have out : (applyCfg now c s).out = s.out ++ emission c (copyStaged c s).ch[c] (applyCfg now c s).ch[c] := by
    rw [applyCfg, timelineReset_ch_same]
    exact putChannel_out _ _ _
  rw [out, copyStaged_ch_same, levels, levels, change_eq]
  rfl

/-- Settles O35: the channel is the staged record with its timeline reset at 0, which draws for a live RandomTrigger record
only. -/
theorem commitWhileStoppedAppliesAtOnce : Obligations.CommitWhileStoppedAppliesAtOnce := by
  unfold Obligations.CommitWhileStoppedAppliesAtOnce
  intro s ch inv halted
  have free : s.stg[ch].ready = false := by
    by_contra ready
    exact absurd (halted.symm.trans (inv.readyRunning ch (eq_true_of_ne_false ready))) nofun
  have live := applyCfg_ch_same 0 ch s
  have entropy := applyCfg_entropy 0 ch s
  refine ⟨_, exec_commit_stopped free halted, ?_, ?_, fun random zero v rest stream => ?_, fun plain => ?_,
    applyCfg_out 0 ch s, fun d other => applyCfg_ch_other other s, rfl⟩
  · rw [live, timelineChannel_conf]
  · rw [live]
    exact timelineChannel_fresh (inv.stagedLegal ch).1 s.cfg 0 s.entropy
  · rw [live, entropy]
    exact timelineChannel_live_draw s.cfg 0 random zero stream
  · have silent : drawsOnReset s.stg[ch].conf = false :=
      decide_eq_false fun both => plain.elim (· both.1) (· both.2)
    rw [entropy, timelineChannel_entropy, silent]
    rfl

end Sys2Proof.Machine
end
section
/-! SUPPORT. Staged records and the tick (44_commit.md, R125 to R127): before the bar boundary no staged record is read; the
bar-boundary tick applies every ready one after its dispatch pass. -/

namespace Sys2Proof.Machine

open Sys2Proof.Claims

/-- Settles O37: away from the boundary a tick is the dispatch pass, which reads no staged record. -/
theorem stagedRecordsAreInvisibleBeforeTheBar : Obligations.StagedRecordsAreInvisibleBeforeTheBar := by
  unfold Obligations.StagedRecordsAreInvisibleBeforeTheBar
  intro s stg away
  by_cases run : s.running = true
  · rw [tickStep_away run away, tickStep_away (s := { s with stg := stg }) run away]
    dsimp only
    rw [dispatchAll_with_stg]
  · have halted := eq_false_of_ne_true run
    rw [tickStep_stopped halted, tickStep_stopped (s := { s with stg := stg }) halted]

/-! ### A first event handled at its timeline's start (R125) -/

/-- The GateOpen of a fresh timeline puts out the eligibility its reset decided (R97, R100). -/
theorem freshTimeline_gateOpen {cfg : Config} {now : BitVec 16} {x y : Channel} {r : Record}
    {swt : Vector (BitVec 8) 6} {e : Entropy} (fresh : FreshTimeline cfg now.toNat x) (conf : x.conf = r)
    (gate : GateKind r.kind) (handled : y = (handleChannel cfg swt now x e).1) :
    y.nextKind = .gateClose ∧ y.nextTime.toNat = (now.toNat + openTime cfg r) % 49152 ∧
      y.gateLevel = y.openEligible ∧ y.pwmLevel = 0 ∧ y.swingPhase = false ∧ y.elapsed = 0 ∧
      EligibleFrom r (if r.kind = .euclidean then r.len.toNat - 1 else 0) y.openEligible y.seqIdx := by
  subst conf
  obtain ⟨-, -, phase, elapsed, -, start, -⟩ := fresh
  obtain ⟨kind, eligible⟩ := start gate
  rw [handleChannel_gateOpen kind] at handled
  subst handled
  exact ⟨rfl, tadd_toNat _ _, rfl, rfl, phase, elapsed, eligible⟩

/-- Both sine waves start at the level of their name (R108). -/
theorem sine_zero (start : SineStart) (l : Nat) : sine start 0 l = if start = .high then 255 else 0 := by
  cases start <;> simp [sine, sineAtLeast, cosCmp, cmpInt]

/-- The level of a CV record at elapsed 0 and index 0 (R106 to R109). -/
theorem cvLevel_start {cfg : Config} {x : Channel} (wf : cfg.Wf) (elapsed : x.elapsed = 0) (idx : x.seqIdx = 0)
    (e : Entropy) :
    (x.conf.kind = .rampUp → (cvLevel cfg x e).1.toNat = 0) ∧
      (x.conf.kind = .rampDown → (cvLevel cfg x e).1.toNat = 255) ∧
      (x.conf.kind = .sine → (cvLevel cfg x e).1.toNat = if cfg.sineStart = .high then 255 else 0) ∧
      (x.conf.kind = .voltage → x.conf.len ≠ 0 → (cvLevel cfg x e).1.toNat = (patternWord x.conf).toNat % 256) ∧
      (x.conf.kind = .voltage → x.conf.len = 0 → 1 ≤ (cvLevel cfg x e).1.toNat) := by
  have long : 3 ≤ gateTicks cfg x.conf := div_ge wf x.conf.gate
  have ramp_zero : ramp 0 (gateTicks cfg x.conf) = 0 := by
    rw [ramp, if_neg (by omega), Nat.mul_zero, Nat.zero_div]
  have zero : x.elapsed.toNat = 0 := by rw [elapsed]; rfl
  refine ⟨fun up => ?_, fun down => ?_, fun wave => ?_, fun voltage sequenced => ?_, fun voltage live => ?_⟩
  · rw [cvLevel_rampUp up, zero, ramp_zero]
  · rw [cvLevel_rampDown down, zero, ramp_zero]
  · simp only [cvLevel, wave, zero, sine_zero]
    split <;> rfl
  · rw [cvLevel_sample voltage sequenced, idx, patternWord_eq]
    simp
  · rw [cvLevel_freeRun voltage live, drawLevel_toNat]
    exact Nat.le_add_right _ _

/-- `elapsed` and the index after the first PwmTick of a cycle: a cycle of one PWM step is over at once (R105). -/
theorem advanceElapsed_start {cfg : Config} {x : Channel} (wf : cfg.Wf) (elapsed : x.elapsed = 0) (idx : x.seqIdx = 0)
    (len32 : x.conf.len.toNat ≤ 32) :
    (advanceElapsed cfg x).elapsed.toNat = (if cfg.div[x.conf.clk] ≤ 6 then 0 else 6) ∧
      (advanceElapsed cfg x).seqIdx.toNat =
        if x.conf.kind = .voltage ∧ x.conf.len ≠ 0 ∧ cfg.div[x.conf.clk] ≤ 6 then 1 % x.conf.len.toNat else 0 := by
  have zero : x.elapsed.toNat = 0 := by rw [elapsed]; rfl
  by_cases short : cfg.div[x.conf.clk] ≤ 6
  · obtain ⟨restarted, next⟩ := advanceElapsed_restart (x := x) (by omega : cfg.div[x.conf.clk] ≤ x.elapsed.toNat + 6)
    rw [restarted, next, if_pos short]
    refine ⟨rfl, ?_⟩
    by_cases sequence : x.conf.kind = .voltage ∧ x.conf.len ≠ 0
    · obtain ⟨voltage, sequenced⟩ := sequence
      rw [restartIdx_sequence voltage sequenced len32, idx, if_pos ⟨voltage, sequenced, short⟩]
      rfl
    · rw [restartIdx, if_neg sequence, if_neg fun all => sequence ⟨all.1, all.2.1⟩, idx]
      rfl
  · obtain ⟨moved, same⟩ := advanceElapsed_within wf (by omega : x.elapsed.toNat + 6 < cfg.div[x.conf.clk])
    rw [moved, same, zero, idx, if_neg short, if_neg fun all => short all.2.2]
    exact ⟨rfl, rfl⟩

/-- The PwmTick of a fresh timeline puts out the level at elapsed 0 and moves `elapsed` on (R99, R100). -/
theorem freshTimeline_pwmTick {cfg : Config} {now : BitVec 16} {x y : Channel} {r : Record}
    {swt : Vector (BitVec 8) 6} {e : Entropy} (fresh : FreshTimeline cfg now.toNat x) (conf : x.conf = r) (wf : cfg.Wf)
    (len32 : r.len.toNat ≤ 32) (cv : ¬ GateKind r.kind) (handled : y = (handleChannel cfg swt now x e).1) :
    y.nextKind = .pwmTick ∧ y.nextTime.toNat = (now.toNat + 6) % 49152 ∧ y.gateLevel = false ∧ y.swingPhase = false ∧
      y.openEligible = false ∧ y.elapsed.toNat = (if cfg.div[r.clk] ≤ 6 then 0 else 6) ∧
      y.seqIdx.toNat = (if r.kind = .voltage ∧ r.len ≠ 0 ∧ cfg.div[r.clk] ≤ 6 then 1 % r.len.toNat else 0) ∧
      (r.kind = .rampUp → y.pwmLevel.toNat = 0) ∧
      (r.kind = .rampDown → y.pwmLevel.toNat = 255) ∧
      (r.kind = .sine → y.pwmLevel.toNat = if cfg.sineStart = .high then 255 else 0) ∧
      (r.kind = .voltage → r.len ≠ 0 → y.pwmLevel.toNat = (patternWord r).toNat % 256) ∧
      (r.kind = .voltage → r.len = 0 → 1 ≤ y.pwmLevel.toNat) := by
  subst conf
  obtain ⟨-, -, phase, elapsed, -, -, start⟩ := fresh
  obtain ⟨kind, ineligible, idx⟩ := start cv
  obtain ⟨sameEligible, samePhase⟩ := advanceElapsed_rest cfg x
  obtain ⟨moved, next⟩ := advanceElapsed_start wf elapsed idx len32
  rw [handleChannel_pwmTick kind] at handled
  subst handled
  exact ⟨rfl, tadd_toNat _ _, rfl, samePhase.trans phase, sameEligible.trans ineligible, moved, next,
    cvLevel_start wf elapsed idx e⟩

/-! ### The bar-boundary tick, channel by channel (R125) -/

/-- A bar tick is the dispatch pass, then the bar gate, for a channel's live record and its events. -/
theorem tickStep_bar {s : State} (run : s.running = true) (bar : s.tickCounter.toNat % 768 = 0) :
    (tickStep s).ch = (barCommit s.tickCounter (dispatchAll s.tickCounter s)).ch ∧
      ∀ c, eventsOf (tickStep s) c = eventsOf (barCommit s.tickCounter (dispatchAll s.tickCounter s)) c := by
  refine ⟨by rw [tickStep_ch run, barGate_on bar], fun c => ?_⟩
  rw [eventsOf, tickStep_out run, barGate_on bar, eventsOf]

theorem tickStep_bar_stg {s : State} (run : s.running = true) (bar : s.tickCounter.toNat % 768 = 0) (c : Chan) :
    (tickStep s).stg[c] = { s.stg[c] with ready := false } := by
  rw [tickStep_stg run, barGate_on bar, barCommit_stg, dispatchAll_stg]

/-- With no record ready the tick is its dispatch pass. -/
theorem tickStep_noneReady {s : State} (run : s.running = true) :
    (tickStep (noneReady s)).ch = (dispatchAll s.tickCounter s).ch ∧
      ∀ c, eventsOf (tickStep (noneReady s)) c = eventsOf (dispatchAll s.tickCounter s) c := by
  obtain ⟨ch, out, -⟩ := tickStep_withStg run (noneReady s).stg (noneReady_ready s)
  exact ⟨ch, fun c => by rw [eventsOf, eventsOf, ← out]; rfl⟩

/-- A channel whose record is not ready is left as the tick leaves it that finds no record ready. -/
theorem tickStep_bar_unready {s : State} {c : Chan} (run : s.running = true) (bar : s.tickCounter.toNat % 768 = 0)
    (unready : s.stg[c].ready = false) :
    (tickStep s).ch[c] = (tickStep (noneReady s)).ch[c] ∧ eventsOf (tickStep s) c = eventsOf (tickStep (noneReady s)) c := by
  have pass : (dispatchAll s.tickCounter s).stg[c].ready = false := by rw [dispatchAll_stg]; exact unready
  obtain ⟨ch, events⟩ := tickStep_bar run bar
  obtain ⟨plain_ch, plain_events⟩ := tickStep_noneReady run
  obtain ⟨_, _, gate⟩ := barCommit_at s.tickCounter c (dispatchAll s.tickCounter s)
  rw [ch, events, plain_ch, plain_events, gate, pass, barCommit_events_other pass]
  exact ⟨rfl, rfl⟩

/-- The tick without a commit keeps every configuration, and leaves a channel alone whose event is at another time. -/
theorem tickStep_noneReady_ch {s : State} (run : s.running = true) (c : Chan) :
    (tickStep (noneReady s)).ch[c].conf = s.ch[c].conf ∧
      (s.ch[c].nextTime ≠ s.tickCounter → (tickStep (noneReady s)).ch[c] = s.ch[c]) := by
  obtain ⟨e, pass⟩ := dispatchAll_at s.tickCounter c s
  rw [(tickStep_noneReady run).1, pass]
  refine ⟨?_, fun idle => by rw [not_due_of_ne idle]; rfl⟩
  split
  · exact handleChannel_conf _ _ _ _ _
  · rfl

/-- A ready record is live after the tick, its timeline fresh at this tick; its first event is handled at once where it has no
start delay (R125). -/
theorem tickStep_bar_committed {s : State} {c : Chan} (inv : s.Inv) (run : s.running = true)
    (bar : s.tickCounter.toNat % 768 = 0) (ready : s.stg[c].ready = true) :
    ∃ x : Channel, x.conf = s.stg[c].conf ∧ FreshTimeline s.cfg s.tickCounter.toNat x ∧
      (s.stg[c].conf.delay ≠ 0 → (tickStep s).ch[c] = x) ∧
      (s.stg[c].conf.delay = 0 →
        ∃ swt e, (tickStep s).ch[c] = (handleChannel s.cfg swt s.tickCounter x e).1) := by
  obtain ⟨e, e', gate⟩ := barCommit_at s.tickCounter c (dispatchAll s.tickCounter s)
  rw [← (tickStep_bar run bar).1, dispatchAll_stg, dispatchAll_cfg, if_pos ready] at gate
  generalize (dispatchAll s.tickCounter s).ch[c] = old at gate
  have at_once := timelineChannel_due (x := { old with conf := s.stg[c].conf }) (e := e) inv.cfgWf inv.tickBelowLimit
  refine ⟨(timelineChannel s.cfg s.tickCounter { old with conf := s.stg[c].conf } e).1, timelineChannel_conf _ _ _ _,
    timelineChannel_fresh (inv.stagedLegal c).1 _ _ e, fun delayed => ?_, fun undelayed => ?_⟩
  · exact gate.trans (if_neg fun due => delayed (Fin.ext (at_once.mp due)))
  · exact ⟨_, e', gate.trans (if_pos (at_once.mpr (congrArg Fin.val undelayed)))⟩

/-- Its events: that of its old configuration, the gate-close of the timeline reset, that of its first event (R92, R39). -/
theorem tickStep_bar_events {s : State} {c : Chan} (run : s.running = true) (bar : s.tickCounter.toNat % 768 = 0)
    (ready : s.stg[c].ready = true) :
    eventsAt (tickStep s) c = eventsAt (tickStep (noneReady s)) c ++
      change c (levels (tickStep (noneReady s)) c) (false, 0) ++ change c (false, 0) (levels (tickStep s) c) := by
  obtain ⟨ch, events⟩ := tickStep_bar run bar
  obtain ⟨plain_ch, plain_events⟩ := tickStep_noneReady run
  obtain ⟨x, closed, silent, gate⟩ := barCommit_events_ready (now := s.tickCounter) (c := c)
    (s := dispatchAll s.tickCounter s) (by rw [dispatchAll_stg]; exact ready)
  rw [← events, ← plain_events, ← ch, ← plain_ch, ← change_eq, ← change_eq, closed, silent] at gate
  exact gate

/-- Settles O36: each channel by its dispatch and its commit, the other registers by the tick's shape. -/
theorem barTickAppliesReadyRecords : Obligations.BarTickAppliesReadyRecords := by
  unfold Obligations.BarTickAppliesReadyRecords
  intro s inv source run bar
  obtain ⟨_, _, _, _, _, _, _, _, shape⟩ := tickStep_shape s
  refine ⟨_, _, exec_stepTick_host source, exec_stepTick_host (s := noneReady s) source, tickStep_tickCounter_toNat run,
    by rw [shape], fun c => ⟨tickStep_bar_stg run bar c, fun unready => ?_, fun ready => ?_⟩⟩
  · obtain ⟨ch, events⟩ := tickStep_bar_unready run bar unready
    obtain ⟨conf, idle⟩ := tickStep_noneReady_ch run c
    rw [ch]
    exact ⟨conf, rfl, events, idle⟩
  · obtain ⟨x, conf, fresh, later, now⟩ := tickStep_bar_committed inv run bar ready
    refine ⟨?_, tickStep_bar_events run bar ready, fun delayed => later delayed ▸ fresh, fun undelayed gate => ?_,
      fun undelayed cv => ?_⟩
    · by_cases undelayed : s.stg[c].conf.delay = 0
      · obtain ⟨_, _, handled⟩ := now undelayed
        rw [handled, handleChannel_conf, conf]
      · rw [later undelayed, conf]
    · obtain ⟨_, _, handled⟩ := now undelayed
      exact freshTimeline_gateOpen fresh conf gate handled
    · obtain ⟨_, _, handled⟩ := now undelayed
      obtain ⟨⟨-, -, -, len32, -⟩, -⟩ := inv.stagedLegal c
      exact freshTimeline_pwmTick fresh conf inv.cfgWf len32 cv handled

end Sys2Proof.Machine
end
section
/-! SUPPORT. Host access (45_host_access.md): the word READ returns for each selector, and the commands that change the error
bits or nothing (R128 to R132). -/

namespace Sys2Proof.Machine

open Sys2Proof.Claims

/-! ### A READ word as the concatenation of its fields (R129) -/

/-- A concatenation is placed part by part, the low part first. -/
theorem placeField_append {m n : Nat} (high : BitVec m) (low : BitVec n) (lo : Nat) :
    placeField (high ++ low) lo = placeField low lo ||| placeField high (lo + n) := by
  refine BitVec.eq_of_getLsbD_eq fun i _ => ?_
  simp only [BitVec.getLsbD_or, placeField_getLsbD, BitVec.getLsbD_append, Nat.sub_add_eq]
  by_cases inHigh : lo + n ≤ i
  · have beyond : low.getLsbD (i - lo) = false := BitVec.getLsbD_of_ge _ _ (by omega)
    simp [inHigh, beyond, show lo ≤ i by omega, show ¬ i - lo < n by omega]
  · by_cases inLow : lo ≤ i
    · simp [inHigh, inLow, show i - lo < n by omega]
    · simp [inHigh, inLow]

theorem placeField_zero (n lo : Nat) : placeField (0#n) lo = 0 := by simp [placeField]

theorem placeField_word (w : Word) : placeField w 0 = w := by simp [placeField]

theorem packParam_eq (r : Record) :
    packParam r = placeField (0#9 ++ r.prob ++ 0#2 ++ r.len ++ 0#2 ++ r.steps) 0 := by
  repeat rw [placeField_append]
  simp [packParam, placeField_zero, BitVec.or_assoc]

theorem packLevel_eq (x : Channel) : packLevel x = placeField (0#2 ++ x.elapsed ++ x.seqIdx ++
    BitVec.ofBool x.openEligible ++ BitVec.ofBool x.swingPhase ++ BitVec.ofBool x.gateLevel ++ x.pwmLevel) 0 := by
  repeat rw [placeField_append]
  simp [packLevel, flagBit, placeField_zero, BitVec.or_assoc]

theorem packEvent_eq (x : Channel) :
    packEvent x = placeField (0#14 ++ BitVec.ofNat 2 (eventNumber x.nextKind) ++ x.nextTime) 0 := by
  repeat rw [placeField_append]
  simp [packEvent, eventNumber_eq, placeField_zero]

/-- `TEMPO`, `SWING` and `SWT_HI`: two bytes. -/
theorem placeField_pair (a b : BitVec 8) : placeField a 0 ||| placeField b 8 = placeField (0#16 ++ b ++ a) 0 := by
  repeat rw [placeField_append]
  simp [placeField_zero]

/-- `SWT_LO`: four bytes. -/
theorem placeField_quad (a b c d : BitVec 8) :
    placeField a 0 ||| placeField b 8 ||| placeField c 16 ||| placeField d 24 = placeField (d ++ c ++ b ++ a) 0 := by
  repeat rw [placeField_append]
  simp [BitVec.or_assoc]

/-- `TICK`: 16 bits. -/
theorem placeField_half (t : BitVec 16) : placeField t 0 = placeField (0#16 ++ t) 0 := by
  rw [placeField_append, placeField_zero, BitVec.ofNat_eq_ofNat, BitVec.or_zero]

/-! ### STATUS and the configuration words, field by field (R129) -/

/-- A placed field has no bit above its width. -/
theorem placeField_getLsbD_above {n : Nat} (v : BitVec n) {lo i : Nat} (above : lo + n ≤ i) :
    (placeField v lo).getLsbD i = false := by
  rw [placeField_getLsbD, BitVec.getLsbD_of_ge v _ (by omega), Bool.and_false]

/-- A placed field's own bit, where the word reaches. -/
theorem placeField_getLsbD_add {n : Nat} (v : BitVec n) {lo j : Nat} (word : lo + j < 32) :
    (placeField v lo).getLsbD (lo + j) = v.getLsbD j := by
  rw [placeField_getLsbD, decide_eq_true word, decide_eq_true (Nat.le_add_right lo j), Nat.add_sub_cancel_left]
  rfl

theorem packStatus_flags (s : State) :
    (packStatus s).getLsbD 0 = s.running ∧ (packStatus s).getLsbD 1 = s.swingReady ∧
      (packStatus s).getLsbD 2 = s.statusErr.getLsbD 0 ∧ (packStatus s).getLsbD 3 = s.statusErr.getLsbD 1 := by
  simp [-BitVec.getLsbD_eq_getElem, packStatus, placeField_getLsbD, flagBit, cmdErr, busyErr, cmdErrBit, busyErrBit]

/-- The ready flags lie above the four flags of `packStatus_flags`. -/
theorem packStatus_ready (s : State) (c : Chan) : (packStatus s).getLsbD (8 + c.val) = s.stg[c].ready := by
  simp (disch := omega) only [packStatus, BitVec.getLsbD_or, placeField_getLsbD_above, placeField_getLsbD_add,
    Bool.false_or]
  exact readyBits_getLsbD s c c.isLt

theorem packStatus_clear (s : State) :
    (packStatus s).extractLsb' 4 4 = 0 ∧ (packStatus s).extractLsb' 16 16 = 0 := by
  simp (disch := omega) [packStatus, extract_or, extract_placeField_other]

/-- `CH_CFG` is the word of `STG_CFG` with the ready flag clear. -/
theorem packConfig_unready (r : Record) : packConfig r = packStagedConfig ⟨r, false⟩ := by
  simp [packStagedConfig, flagBit, placeField_zero]

theorem packStagedConfig_fields (x : Staged) :
    (packStagedConfig x).extractLsb' 0 3 = BitVec.ofNat 3 (kindCode x.conf.kind) ∧
      (packStagedConfig x).extractLsb' 4 4 = BitVec.ofNat 4 x.conf.clk ∧
      (packStagedConfig x).extractLsb' 8 4 = BitVec.ofNat 4 x.conf.gate ∧
      (packStagedConfig x).extractLsb' 12 4 = BitVec.ofNat 4 x.conf.delay ∧
      (packStagedConfig x).extractLsb' 16 15 = 0 := by
  simp (disch := omega) [packStagedConfig, packConfig, extract_or, extract_placeField_same, extract_placeField_other]

theorem packStagedConfig_bits (x : Staged) :
    (packStagedConfig x).getLsbD 3 = false ∧ (packStagedConfig x).getLsbD 31 = x.ready := by
  simp (disch := omega) [-BitVec.getLsbD_eq_getElem, packStagedConfig, packConfig, placeField_getLsbD,
    BitVec.getLsbD_of_ge, flagBit]

/-- What a configuration word shows of its record: the kind by its code, the indices as numbers, and between the fields and
bit 31 only zeros (R129, R29). -/
def ShowsConfig (v : Word) (r : Record) : Prop :=
  (v.extractLsb' 0 3).toNat = kindNumber r.kind ∧ (v.extractLsb' 4 4).toNat = r.clk.val ∧
    (v.extractLsb' 8 4).toNat = r.gate.val ∧ (v.extractLsb' 12 4).toNat = r.delay.val ∧
    v.getLsbD 3 = false ∧ v.extractLsb' 16 15 = 0

/-- Each code and index fits its field, so its number is read back whole. -/
theorem packStagedConfig_showsConfig (x : Staged) : ShowsConfig (packStagedConfig x) x.conf := by
  obtain ⟨kind, clk, gate, delay, zero⟩ := packStagedConfig_fields x
  have ⟨_, kind7⟩ := kindCode_range x.conf.kind
  refine ⟨?_, ?_, ?_, ?_, (packStagedConfig_bits x).1, zero⟩
  · rw [kind, kindNumber_eq, BitVec.toNat_ofNat, Nat.mod_eq_of_lt (by omega)]
  · rw [clk, BitVec.toNat_ofNat, Nat.mod_eq_of_lt (by omega)]
  · rw [gate, BitVec.toNat_ofNat, Nat.mod_eq_of_lt (by omega)]
  · rw [delay, BitVec.toNat_ofNat, Nat.mod_eq_of_lt (by omega)]

/-! ### READ (R128) -/

/-- READ of a selector that is not reserved has a value, and writes it to `rdata`. -/
theorem exec_read_value (s : State) (c : Chan) {sel : BitVec 4} (used : sel.toNat < 14) :
    ∃ v, readValue s sel c = some v ∧ exec (.read c sel) s = .next { s with rdata := v } := by
  cases value : readValue s sel c with
  | none =>
    have := readValue_eq_none.mp value
    omega
  | some v => exact ⟨v, rfl, by rw [exec, execRead, value]⟩

theorem exec_read_reserved {sel : BitVec 4} (reserved : 14 ≤ sel.toNat) (s : State) (c : Chan) :
    exec (.read c sel) s = .next (setErr cmdErrBit { s with rdata := 0 }) := by
  rw [exec, execRead, readValue_eq_none.mpr reserved]

/-- The value of selector `k`, which the model reads as a concatenation of the word's width placed at bit 0. -/
theorem eq_of_readValue {s : State} {sel k : BitVec 4} {c : Chan} {v w : Word} (value : readValue s sel c = some v)
    (selected : sel = k) (read : readValue s k c = some (placeField w 0)) : v = w := by
  rw [selected, read, placeField_word] at value
  exact (Option.some.inj value).symm

/-- Settles O38: STATUS bit by bit, every other selector as the concatenation of its registers. -/
theorem readGlobalSelectors : Obligations.ReadGlobalSelectors := by
  unfold Obligations.ReadGlobalSelectors
  intro s c sel global
  obtain ⟨v, value, effect⟩ := exec_read_value s c (sel := sel) (by omega)
  refine ⟨v, effect, fun status => ?_, fun tempo => ?_, fun swing => ?_, fun tick => ?_, fun swtLo => ?_, fun swtHi => ?_⟩
  · subst status
    obtain rfl : packStatus s = v := Option.some.inj value
    obtain ⟨run, swing, cmd, busy⟩ := packStatus_flags s
    exact ⟨run, swing, cmd, busy, packStatus_ready s, packStatus_clear s⟩
  · exact eq_of_readValue value tempo (congrArg some (placeField_pair _ _))
  · exact eq_of_readValue value swing (congrArg some (placeField_pair _ _))
  · exact eq_of_readValue value tick (congrArg some (placeField_half _))
  · exact eq_of_readValue value swtLo (congrArg some (placeField_quad _ _ _ _))
  · exact eq_of_readValue value swtHi (congrArg some (placeField_pair _ _))

/-- Settles O39: the configuration words field by field, every other selector as the concatenation of its fields. -/
theorem readChannelSelectors : Obligations.ReadChannelSelectors := by
  unfold Obligations.ReadChannelSelectors
  intro s c sel _ channel
  obtain ⟨v, value, effect⟩ := exec_read_value s c (sel := sel) (by omega)
  have live (is4 : sel = 4) : v = packStagedConfig ⟨s.ch[c].conf, false⟩ := by
    subst is4
    exact (Option.some.inj value).symm.trans (packConfig_unready _)
  have staged (is9 : sel = 9) : v = packStagedConfig s.stg[c] := by
    subst is9
    exact (Option.some.inj value).symm
  refine ⟨v, effect, ?_, fun is4 => live is4 ▸ (packStagedConfig_bits _).2,
    fun is9 => staged is9 ▸ (packStagedConfig_bits _).2, ?_, fun level => ?_, ?_, fun event => ?_⟩
  · rintro r (⟨is4, rfl⟩ | ⟨is9, rfl⟩)
    · exact live is4 ▸ packStagedConfig_showsConfig ⟨s.ch[c].conf, false⟩
    · exact staged is9 ▸ packStagedConfig_showsConfig s.stg[c]
  · rintro r (⟨param, rfl⟩ | ⟨param, rfl⟩)
    · exact eq_of_readValue value param (congrArg some (packParam_eq _))
    · exact eq_of_readValue value param (congrArg some (packParam_eq _))
  · exact eq_of_readValue value level (congrArg some (packLevel_eq _))
  · rintro r (⟨rfl, rfl⟩ | ⟨rfl, rfl⟩)
    · exact (Option.some.inj value).symm
    · exact (Option.some.inj value).symm
  · exact eq_of_readValue value event (congrArg some (packEvent_eq _))

/-- Settles O40: a reserved selector has no value, so READ sets the error bit over a cleared `rdata`. -/
theorem readReservedSelectorIsRefused : Obligations.ReadReservedSelectorIsRefused := by
  unfold Obligations.ReadReservedSelectorIsRefused
  intro s c sel reserved
  obtain ⟨cmd, busy⟩ := setErr_cmdErrBit { s with rdata := 0 }
  exact ⟨_, exec_read_reserved reserved s c, rfl, cmd, busy, rfl⟩

/-! ### NOP, CLEAR_ERR and the reserved opcodes (R130 to R132) -/

/-- Settles O10: NOP returns the state it was given, and opcode 0 is its row. -/
theorem nopChangesNothing : Obligations.NopChangesNothing := by
  unfold Obligations.NopChangesNothing
  exact ⟨fun _ => rfl, decode_eq_iff.mpr ⟨by decide, trivial⟩⟩

/-- Settles O41: both bits of the cleared register are 0. -/
theorem clearErrClearsBothBits : Obligations.ClearErrClearsBothBits := by
  unfold Obligations.ClearErrClearsBothBits
  exact fun s => ⟨_, rfl, BitVec.getLsbD_zero, BitVec.getLsbD_zero, rfl⟩

/-- Settles O42: a reserved opcode's command is the setting of `CMD_ERR`. -/
theorem reservedOpcodesSetCmdErrOnly : Obligations.ReservedOpcodesSetCmdErrOnly := by
  unfold Obligations.ReservedOpcodesSetCmdErrOnly
  intro s i reserved
  obtain ⟨cmd, busy⟩ := setErr_cmdErrBit s
  exact ⟨_, exec_reserved reserved s, cmd, busy, rfl⟩

end Sys2Proof.Machine
end
section
/-! SUPPORT. Exceptions (60_exceptions.md): every command and every step has a result, and the error bits record exactly the
refused commands (R27, R133, R134, R136). -/

namespace Sys2Proof.Machine

open Sys2Proof.Claims

/-! ### Totality (R133) -/

theorem exec_total (i : Instr) (s : State) : ∃ t, exec i s = .next t := by
  obtain ⟨t, next, -⟩ := exec_commandEffect i s
  exact ⟨t, next⟩

/-- The environment's move is a command, which has a result, or a clock cycle or the reset input, whose results are states. -/
theorem step_total (s : State) : ∃ t, step s = .next t := by
  unfold step
  cases (takeInput s).1 with
  | command w => exact exec_total (decode w) (takeInput s).2
  | clock => exact ⟨_, rfl⟩
  | reset => exact ⟨_, rfl⟩

/-- Settles O9: a command has one of its outcomes, a step performs a command, a clock cycle or the reset. -/
theorem everyStepCompletes : Obligations.EveryStepCompletes := by
  unfold Obligations.EveryStepCompletes
  exact ⟨exec_total, step_total⟩

/-! ### The error bits (R27, R134) -/

/-- The conditions that set `CMD_ERR` (R134): a reserved opcode, a reserved READ selector, a STEP_TICK under `DIVIDER`. -/
def RaisesCmdErr (s : State) (i : Instr) : Prop :=
  0xB ≤ (opcodeOf i).toNat ∨ (∃ c sel, i = .read c sel ∧ 14 ≤ sel.toNat) ∨
    (i = .stepTick ∧ s.cfg.tickSource = .divider)

/-- The condition that sets `BUSY_ERR` (R134): a staging command for a ready record. -/
def RaisesBusyErr (s : State) (i : Instr) : Prop :=
  ∃ c : Chan, s.stg[c].ready = true ∧
    ((∃ kind clk gate delay, i = .stageTiming c kind clk gate delay) ∨
      ∃ len steps prob, i = .stagePattern c len steps prob)

theorem raisesCmdErr_read {s : State} {c : Chan} {sel : BitVec 4} :
    RaisesCmdErr s (.read c sel) ↔ 14 ≤ sel.toNat := by
  simp [RaisesCmdErr, opcodeOf]

theorem raisesCmdErr_stepTick {s : State} : RaisesCmdErr s .stepTick ↔ s.cfg.tickSource = .divider := by
  simp [RaisesCmdErr, opcodeOf]

theorem raisesBusyErr_stageTiming {s : State} {c : Chan} {kind : BitVec 3} {clk gate delay : BitVec 4} :
    RaisesBusyErr s (.stageTiming c kind clk gate delay) ↔ s.stg[c].ready = true := by
  simp [RaisesBusyErr]

theorem raisesBusyErr_stagePattern {s : State} {c : Chan} {len steps : BitVec 6} {prob : BitVec 7} :
    RaisesBusyErr s (.stagePattern c len steps prob) ↔ s.stg[c].ready = true := by
  simp [RaisesBusyErr]

/-- No command sets both bits: a staging command is none of those that set `CMD_ERR` (R134). -/
theorem RaisesCmdErr.not_raisesBusyErr {s : State} {i : Instr} (cmd : RaisesCmdErr s i) : ¬ RaisesBusyErr s i := by
  rintro ⟨_, -, ⟨_, _, _, _, rfl⟩ | ⟨_, _, _, rfl⟩⟩
  · simp [RaisesCmdErr, opcodeOf] at cmd
  · simp [RaisesCmdErr, opcodeOf] at cmd

@[simp] theorem stopped_statusErr (s : State) : (stopped s).statusErr = s.statusErr := by
  obtain ⟨_, _, _, _, _, _, _, h⟩ := stopped_shape s
  rw [h]

/-- `CMD_ERR` after a command: set by its three conditions, and otherwise as it was. -/
theorem CommandEffect.cmdErr_iff {i : Instr} {s t : State} (effect : CommandEffect s i t) (clear : i ≠ .clearErr) :
    cmdErr t = true ↔ cmdErr s = true ∨ RaisesCmdErr s i := by
  cases effect with
  | clearErr => exact absurd rfl clear
  | reserved opcode => exact iff_of_true (setErr_cmdErrBit s).1 (.inr (.inl opcode))
  | readRefused value =>
    exact iff_of_true (setErr_cmdErrBit _).1 (.inr (raisesCmdErr_read.mpr (readValue_eq_none.mp value)))
  | tickRefused source => exact iff_of_true (setErr_cmdErrBit s).1 (.inr (raisesCmdErr_stepTick.mpr source))
  | read value =>
    rw [raisesCmdErr_read, ← readValue_eq_none, value]
    exact (or_iff_left nofun).symm
  | stepTick source =>
    rw [raisesCmdErr_stepTick, source, cmdErr, tickStep_statusErr]
    exact (or_iff_left nofun).symm
  | timingRefused ready =>
    rw [(setErr_busyErrBit s).2]
    exact (or_iff_left fun cmd => cmd.not_raisesBusyErr (raisesBusyErr_stageTiming.mpr ready)).symm
  | patternRefused ready =>
    rw [(setErr_busyErrBit s).2]
    exact (or_iff_left fun cmd => cmd.not_raisesBusyErr (raisesBusyErr_stagePattern.mpr ready)).symm
  | stop => simp [cmdErr, RaisesCmdErr, opcodeOf]
  | _ => exact (or_iff_left (by simp [RaisesCmdErr, opcodeOf])).symm

/-- `BUSY_ERR` after a command: set by a staging command for a ready record, and otherwise as it was. -/
theorem CommandEffect.busyErr_iff {i : Instr} {s t : State} (effect : CommandEffect s i t) (clear : i ≠ .clearErr) :
    busyErr t = true ↔ busyErr s = true ∨ RaisesBusyErr s i := by
  cases effect with
  | clearErr => exact absurd rfl clear
  | timingRefused ready =>
    exact iff_of_true (setErr_busyErrBit s).1 (.inr (raisesBusyErr_stageTiming.mpr ready))
  | patternRefused ready =>
    exact iff_of_true (setErr_busyErrBit s).1 (.inr (raisesBusyErr_stagePattern.mpr ready))
  | stageTiming free =>
    rw [raisesBusyErr_stageTiming, free]
    exact (or_iff_left nofun).symm
  | stagePattern free =>
    rw [raisesBusyErr_stagePattern, free]
    exact (or_iff_left nofun).symm
  | reserved opcode =>
    rw [(setErr_cmdErrBit s).2]
    exact (or_iff_left (RaisesCmdErr.not_raisesBusyErr (.inl opcode))).symm
  | readRefused value =>
    rw [(setErr_cmdErrBit _).2]
    exact (or_iff_left (raisesCmdErr_read.mpr (readValue_eq_none.mp value)).not_raisesBusyErr).symm
  | tickRefused source =>
    rw [(setErr_cmdErrBit s).2]
    exact (or_iff_left (raisesCmdErr_stepTick.mpr source).not_raisesBusyErr).symm
  | stepTick | stop => simp [busyErr, RaisesBusyErr]
  | _ => exact (or_iff_left (by simp [RaisesBusyErr])).symm

/-- Settles O53: by the outcomes of a command, for each bit. -/
theorem errorBitsAreStickyAndExact : Obligations.ErrorBitsAreStickyAndExact := by
  unfold Obligations.ErrorBitsAreStickyAndExact
  intro i s t clear h
  have effect := CommandEffect.of_exec h
  exact ⟨effect.cmdErr_iff clear, effect.busyErr_iff clear⟩

end Sys2Proof.Machine
end
section
/-! SUPPORT. Reset and the hazards of a channel's timeline (70_reset_and_hazards.md): the reset input (R147), the early swing that
misses its tick (R153), and the draws of STOP (R156). -/

namespace Sys2Proof.Machine

open Sys2Proof.Claims

/-! ### The draws of STOP (R156) -/

@[simp] theorem stopCommitted_entropy (s : State) : (stopCommitted s).entropy = s.entropy := by
  rw [stopCommitted, forChannels_frame (fun t => t.entropy) stopCommitChannel_entropy, commitSwingIfReady_entropy]

/-- The records live before STOP's timeline resets are those it leaves live. -/
theorem stopped_ch_conf (s : State) (c : Chan) : (stopped s).ch[c].conf = (stopCommitted s).ch[c].conf := by
  obtain ⟨e, ch⟩ := timelineResets_at 0 c (stopCommitted s)
  rw [stopped, ch, timelineChannel_conf]

/-- The draws of STOP: one for each channel it leaves a live RandomTrigger, in ascending order, each shown as the channel's
eligibility (R87, R96, R143). -/
theorem stopped_draws_ascending {s t : State} (left : stopped s = t) {l : List Chan}
    (drawers : l = ascending fun c => t.ch[c].conf.kind = .randomTrigger ∧ t.ch[c].conf.len = 0) :
    t.entropy = skip l.length s.entropy ∧
      ∀ (c : Chan) (v : Word), Takes s l c v → t.ch[c].conf.kind = .randomTrigger ∧ ShowsDraw t.ch[c] v := by
  have conf (c : Chan) : (stopCommitted s).ch[c].conf = t.ch[c].conf := left ▸ (stopped_ch_conf s c).symm
  have resets : l = (List.finRange 8).filter fun c => drawsOnReset (stopCommitted s).ch[c].conf :=
    drawers.trans (ascending_eq fun c => by rw [drawsOnReset, conf])
  obtain ⟨entropy, channel⟩ := timelineResets_draws 0 (stopCommitted s) l resets
  rw [stopCommitted_entropy, ← stopped, left] at entropy channel
  refine ⟨entropy, fun c v ⟨k, place, value⟩ => ?_⟩
  obtain ⟨n, -, turn, ch⟩ := channel c
  obtain ⟨random, live⟩ := mem_ascending (drawers ▸ place)
  refine ⟨random, ?_⟩
  rw [← conf] at random live
  rw [ch, ← turn k place]
  exact timelineChannel_showsDraw live random value _ _

/-- Settles O14: STOP's timeline resets draw in ascending order, each for its channel's eligibility. -/
theorem stopDrawsForLiveRandomTriggersOnly : Obligations.StopDrawsForLiveRandomTriggersOnly := by
  unfold Obligations.StopDrawsForLiveRandomTriggersOnly
  intro s t stop l drawers
  obtain ⟨entropy, shows⟩ := stopped_draws_ascending (Host.Outcome.next.inj stop) drawers
  rw [DrawsOnce, entropy]
  refine ⟨⟨rfl, rfl⟩, fun c v takes => ?_⟩
  obtain ⟨random, draw, -⟩ := shows c v takes
  exact draw random

/-! ### The missed event (R153) -/

/-- An event scheduled at or before the current tick waits, from the next tick on, one tick less than a wrap and what it lies back
(R90, R35). -/
theorem wait_of_scheduled_back {now ahead back : Nat} (missed : ahead ≤ back) (near : back < 49152) :
    (((now + ahead) % 49152 + 49152 - back) % 49152 + 49152 - (now + 1) % 49152) % 49152 + 1 =
      49152 - (back - ahead) := by
  omega

/-- Settles O24: the early swing takes the GateOpen from its close time back by a byte's offset. -/
theorem earlySwingCanMissItsTick : Obligations.EarlySwingCanMissItsTick := by
  unfold Obligations.EarlySwingCanMissItsTick
  intro s c inv due early short missed
  obtain ⟨t, base, tick, rfl, -, -, -, -, swung, -⟩ := gateCloseEvent s c inv due
  obtain ⟨source, run, -⟩ := due
  obtain rfl : tickStep s = t := Host.Outcome.next.inj ((exec_stepTick_host source).symm.trans tick)
  obtain ⟨-, -, swungEarly⟩ := swung short
  refine ⟨_, tick, ?_⟩
  rw [swungEarly early, tickStep_tickCounter_toNat run]
  have offset := s.swt[s.ch[c].conf.clk.val].isLt
  exact wait_of_scheduled_back missed (by omega)

/-! ### The reset input (R147) -/

/-- The reset channel is a Clock channel's timeline started at tick 0 (R43, R100). -/
theorem timelineChannel_reset (cfg : Config) (e : Entropy) : timelineChannel cfg 0 Channel.reset e = (Channel.reset, e) := rfl

/-- Settles O47: the reset input is the move taken, and each reset channel is a fresh timeline already. -/
theorem resetInputRestoresEveryRegister : Obligations.ResetInputRestoresEveryRegister := by
  unfold Obligations.ResetInputRestoresEveryRegister
  intro s rest listed
  refine ⟨?_, fun c => ?_⟩
  · rw [step, takeInput_cons listed]
    rfl
  · rw [timelineReset_ch_same, resetWith_ch, timelineChannel_reset]

end Sys2Proof.Machine
end
